-- ==== Sys2Proof/Word.lean ====
section
/-! DEFINITION. The one word type of the block: `Bits8` of 00_scope.md R22, unsigned, bit 0 least significant (R30). -/

namespace Sys2Proof

/-- `Bits8`: a byte operand, a cursor coordinate, a width, a count (00_scope.md R22). -/
abbrev Byte := BitVec 8

end Sys2Proof
end

