-- ==== Sys2Proof/Syntax.lean ====
section
/-! DEFINITION. The syntax of the block: line roles and bus descriptors (10_state.md R104), the encoded requests a step takes, and
one constructor of `Instr` for each of the 29 rows of spec/opcode_table.json. -/

namespace Sys2Proof

/-- The 11 line roles of the bus descriptor (10_state.md R104). -/
inductive LineRole where
  | rs | rnw | e | db7 | db6 | db5 | db4 | db3 | db2 | db1 | db0
  deriving DecidableEq, Repr

/-- One electrical pin: a port identifier and a pin identifier, opaque to the engine (10_state.md R104, 60_exceptions.md R730).
Their widths are not in the spec: DESIGN CHOICE, log 4. -/
structure GpioLine where
  port : Byte
  pin  : Byte
  deriving DecidableEq, Repr

/-- One value for each of the 11 line roles. -/
structure RoleMap (α : Type) where
  rs  : α
  rnw : α
  e   : α
  db7 : α
  db6 : α
  db5 : α
  db4 : α
  db3 : α
  db2 : α
  db1 : α
  db0 : α
  deriving DecidableEq, Repr

/-- The Bus Descriptor: a map from the line roles to GPIO lines (10_state.md R104). -/
abbrev BusDescriptor := RoleMap GpioLine

/-- The four kinds of setup phase the engine has (40_bus_transport.md R400, R420): the phase of a BUS8 write, the two of a BUS4
write, and that of a lone nibble. -/
inductive SetupPhase where
  | write8 | write4High | write4Low | loneNibble
  deriving DecidableEq, Repr

/-- The three formats of spec/opcode_table.json (30_encoding.md R300, R301, R330). -/
inductive Format where
  | hostOp | bw10 | nib6
  deriving DecidableEq, Repr

/-- An encoded instruction as it is handed to the machine: its format and its bytes. A host call is its tag and then its operands
(log 3); a bus word is its low byte DB7..DB0 and then RS and RNW in bits 1 and 0 of a second byte; a nibble cycle is one byte. -/
structure Request where
  format : Format
  bytes  : List Byte
  deriving DecidableEq, Repr

/-- One constructor per row of spec/opcode_table.json. -/
inductive Instr where
  -- BW10 bus words (30_encoding.md R310, R315)
  | cmdClear
  | cmdHome
  | cmdEntryMode (increment shift : Bool)
  | cmdDisplayControl (displayOn showCursor cursorBlink : Bool)
  | cmdShift (shiftDisplay shiftRight : Bool)
  | cmdFunctionSet (bus8 twoLines bigFont : Bool)
  | cmdSetCgram (addr : Byte)
  | cmdSetDdram (addr : Byte)
  | data (byte : Byte)
  -- NIB6 priming nibbles (30_encoding.md R303)
  | nibPrime3
  | nibPrime2
  -- host operations (30_encoding.md R330)
  | init (bus : BusDescriptor) (width : Byte) (bus8 : Bool) (lineCount : Byte) (bigFont : Bool)
  | clear
  | home
  | entryModeSet (increment shift : Bool)
  | displayControl (displayOn showCursor cursorBlink : Bool)
  | cursorControl (shiftDisplay shiftRight : Bool)
  | functionSet (bus8 : Bool) (lineCount : Byte) (bigFont : Bool)
  | setCgramAddress (addr : Byte)
  | setDdramAddress (addr : Byte)
  | putChar (code : Byte)
  | putCharAt (col row code : Byte)
  | formatted (text : List Byte)
  | formattedAt (col row : Byte) (text : List Byte)
  | defineChar (addr : Byte) (pattern : List Byte) (size : Byte)
  | isBusy
  | moveTo (col row : Byte)
  | newline
  | write (isData : Bool) (byte : Byte)
  deriving DecidableEq, Repr

end Sys2Proof
end

