-- ==== Sys2Proof/Machine/State.lean ====
section
/-! DEFINITION. The state of the engine (10_state.md), the ways a step can stop, and the power-on state (10_state.md R130). -/

namespace Sys2Proof.Machine

/-- The lifecycle field's values (10_state.md R107). -/
inductive Life where
  | uninit | ready | halted
  deriving DecidableEq, Repr

/-- The bus width mode's values (10_state.md R102). -/
inductive BusMode where
  | bus8 | bus4
  deriving DecidableEq, Repr

/-- The driver's notion of the cursor (10_state.md R105). -/
structure Cursor where
  col : Byte
  row : Byte
  deriving DecidableEq, Repr

/-- How a line is configured, as far as the engine knows (10_state.md R110). -/
inductive LineConfig where
  | unconf | output
  deriving DecidableEq, Repr

/-- A trace event: one call on the GPIO capability or on the delay primitive (00_scope.md R33). Each GPIO call carries its role and
the physical line `s.bus[L]` it addresses (R33, 10_state.md R104; log 17). -/
inductive Event where
  /-- `Clk(L)`: `enableClockDomain(line)`. -/
  | clk (role : LineRole) (line : GpioLine)
  /-- `Drv(L, v)`: `set(line)` when the level is true, `clear(line)` when it is false. -/
  | drv (role : LineRole) (line : GpioLine) (level : Bool)
  /-- `Out(L)`: `configureOutput(line)`. -/
  | out (role : LineRole) (line : GpioLine)
  /-- `Dly(n)`: `sleepMilliseconds(n)`. -/
  | dly (units : Nat)
  deriving DecidableEq, Repr

/-- Why the engine halted (60_exceptions.md R710). -/
inductive HaltReason where
  | badPort
  deriving DecidableEq, Repr

/-- Why a call has no meaning. The first five reasons are the spec's (60_exceptions.md R700): outside HALTED a step hands them back to
the caller, who goes on (R722; log 8). The others end the run. -/
inductive Refusal where
  /-- BAD_OPCODE: raised by `step` for tag 0x0F or 0x13..0xFF (30_encoding.md R331). Safe: the spec refuses the call. -/
  | badOpcode (tag : Byte)
  /-- NOT_INITIALIZED: raised by every host operation but INIT in UNINIT (10_state.md R107). Safe: the spec refuses the call. -/
  | notInitialized
  /-- BAD_WIDTH: raised by INIT for width 0 (10_state.md R103). Safe: the spec refuses the call. -/
  | badWidth
  /-- LINE_ALIAS: raised by INIT when two used roles name one line (10_state.md R104). Safe: the spec refuses the call. -/
  | lineAlias
  /-- SHORT_PATTERN: raised by DEFINE_CHAR for a pattern shorter than size (43_text.md R580). Safe: the spec refuses the call. -/
  | shortPattern
  /-- Raised by `exec` for an instruction without a meaning yet. Safe. -/
  | notModelled (mnemonic : String)
  /-- Raised by `step` for a request that ends before its last operand (log 3). Safe: no such call can be made. -/
  | truncated
  /-- Raised by `step` for an operand byte outside its type (30_encoding.md R331, log 3). Safe: no such call can be made. -/
  | badOperand
  /-- Raised by `step` for bytes after the last operand (log 3). Safe: no such call can be made. -/
  | trailingBytes
  /-- Raised by `step` for a bus word of more than 10 bits or a nibble cycle of more than 6 (log 3). Safe: no such word exists. -/
  | badWordWidth
  /-- Raised by `step` for a bus word or nibble the engine never sends (30_encoding.md R322, R303). Safe: a decoder must reject it. -/
  | notEmitted
  deriving DecidableEq, Repr

/-- How the last call ended, as the host sees it (00_scope.md R11, R13). The model's own field (log 10). -/
inductive OpOutcome where
  /-- No call has ended yet. -/
  | noneYet
  /-- Done without a result. -/
  | done
  /-- Done with IS_BUSY's Boolean (44_init_status.md R650). -/
  | doneBool (result : Bool)
  /-- Refused with its reason, which nothing else records (60_exceptions.md R700, R722). -/
  | refused (reason : Refusal)
  /-- Halted with the role being clocked (60_exceptions.md R710). -/
  | halted (reason : HaltReason) (role : LineRole)
  deriving DecidableEq, Repr

/-- The engine's state (10_state.md R100). `outcome` and `calls` are the model's own (logs 10, 1). -/
structure State where
  /-- Lifecycle (R107). -/
  life    : Life
  /-- Bus width mode (R102). -/
  mode    : BusMode
  /-- Characters per row (R103). -/
  width   : Byte
  /-- Bus descriptor (R104). -/
  bus     : BusDescriptor
  /-- Driver cursor (R105). -/
  cursor  : Cursor
  /-- Level last driven on each role; `none` is ⊥, never driven (R110). -/
  lvl     : RoleMap (Option Bool)
  /-- Configuration of each role's line (R110). -/
  cfg     : RoleMap LineConfig
  /-- Events emitted so far, oldest first (R111). -/
  trace   : List Event
  /-- How the last call ended (the model's own, log 10). -/
  outcome : OpOutcome
  /-- The host's pending calls, next first (the model's own, log 1). -/
  calls   : List Request
  deriving DecidableEq, Repr

/-- How the machine is stuck. -/
inductive Fault where
  /-- Raised by every step in HALTED: no operation has a step (60_exceptions.md R711). Safe: the spec says the same. -/
  | engineHalted
  deriving DecidableEq, Repr

/-- The power-on state (10_state.md R130). `mode`, `width`, `bus` and `cursor` are unspecified there: DESIGN CHOICE, log 7. -/
def State.reset : State where
  life    := .uninit
  mode    := .bus4
  width   := 0
  bus     := ⟨⟨0, 0⟩, ⟨0, 0⟩, ⟨0, 0⟩, ⟨0, 0⟩, ⟨0, 0⟩, ⟨0, 0⟩, ⟨0, 0⟩, ⟨0, 0⟩, ⟨0, 0⟩, ⟨0, 0⟩, ⟨0, 0⟩⟩
  cursor  := ⟨0, 0⟩
  lvl     := ⟨none, none, none, none, none, none, none, none, none, none, none⟩
  cfg     := ⟨.unconf, .unconf, .unconf, .unconf, .unconf, .unconf, .unconf, .unconf, .unconf, .unconf, .unconf⟩
  trace   := []
  outcome := .noneYet
  calls   := []

end Sys2Proof.Machine
end

