-- ==== Sys2Proof/Machine/Lines.lean ====
section
/-! DEFINITION. Reading and writing one role's entry (10_state.md R104, R110), and the roles INIT uses (44_init_status.md R600). -/

namespace Sys2Proof.Machine

/-- The entry of one role. -/
def roleGet {α : Type} (m : RoleMap α) : LineRole → α
  | .rs => m.rs
  | .rnw => m.rnw
  | .e => m.e
  | .db7 => m.db7
  | .db6 => m.db6
  | .db5 => m.db5
  | .db4 => m.db4
  | .db3 => m.db3
  | .db2 => m.db2
  | .db1 => m.db1
  | .db0 => m.db0

/-- The map with one role's entry replaced. -/
def roleSet {α : Type} (m : RoleMap α) (role : LineRole) (v : α) : RoleMap α :=
  match role with
  | .rs => { m with rs := v }
  | .rnw => { m with rnw := v }
  | .e => { m with e := v }
  | .db7 => { m with db7 := v }
  | .db6 => { m with db6 := v }
  | .db5 => { m with db5 := v }
  | .db4 => { m with db4 := v }
  | .db3 => { m with db3 := v }
  | .db2 => { m with db2 := v }
  | .db1 => { m with db1 := v }
  | .db0 => { m with db0 := v }

/-- The roles INIT uses, in the order it visits them (44_init_status.md R600, R603): 11 in BUS8, 7 in BUS4. -/
def usedRoles : BusMode → List LineRole
  | .bus8 => [.rs, .e, .rnw, .db7, .db6, .db5, .db4, .db3, .db2, .db1, .db0]
  | .bus4 => [.rs, .e, .rnw, .db7, .db6, .db5, .db4]

/-- The mode an init argument `bus8` selects (10_state.md R102). -/
def modeOf (bus8 : Bool) : BusMode := if bus8 then .bus8 else .bus4

/-- Two of the used roles name the same line (10_state.md R104). -/
def lineAliased (bus : BusDescriptor) (mode : BusMode) : Bool :=
  !decide ((usedRoles mode).map (roleGet bus)).Nodup

end Sys2Proof.Machine
end

