-- ==== Sys2Proof/Config.lean ====
section
/-! DEFINITION. The OPEN parameters of 00_scope.md R20: opaque constants, free values of which nothing can be proved (logs 11 to 14).
The parameters whose values the source states are in Sys2Proof/Machine/Params.lean. -/

namespace Sys2Proof.Config

/-- `REMAP_ENABLED`: is the code-page remap active (R20, R21). OPEN: free value, log 12. -/
opaque remapEnabled : Bool

/-- `REMAP`: the remap table, a total function (R20, R21). OPEN: free value, log 12. -/
opaque remap : Byte → Byte

/-- `BUSY_STUB_RESULT`: the Boolean IS_BUSY returns (R20, conflict C1). OPEN: free value, log 13. -/
opaque busyStubResult : Bool

/-- `PORT_VALID`: the platform's predicate on a port identifier (R20, 44_init_status.md R608). OPEN: free value, log 14. -/
opaque portValid : Byte → Bool

/-- `SETUP_ORDER`: the place of each role's drive within one setup phase, which may depend on the kind of phase and on the levels
driven (R20, 40_bus_transport.md R405). A smaller rank is driven earlier; equal ranks follow the reference order. OPEN: free value,
log 11. -/
opaque setupRank : SetupPhase → List (LineRole × Bool) → LineRole → Nat

end Sys2Proof.Config
end

