-- ==== Sys2Proof/Machine/Flags.lean ====
section
/-! DEFINITION. The flags of the block. The engine has no status flags or condition codes (10_state.md R108); the only flags are the
Booleans a command carries, each encoded at its bit of the command word and then forgotten (42_commands.md R510). -/

namespace Sys2Proof.Machine

/-- A command flag's contribution to its word: its bit when true, 0 when false (30_encoding.md R320). -/
def flagBit (flag : Bool) (bit : Byte) : Byte := if flag then bit else 0

/-- The N flag of a function-set word: `lineCount > 1`, unsigned (30_encoding.md R320, D39). -/
def twoLines (lineCount : Byte) : Bool := decide (1 < lineCount.toNat)

end Sys2Proof.Machine
end

