-- ==== Sys2Proof/Machine/Params.lean ====
section
/-! DEFINITION. The parameters of 00_scope.md R20 and R4 whose values the source states: every literal is a named constant (log 15), so
that a correction changes this file and no meaning. The OPEN parameters are in Sys2Proof/Config.lean. -/

namespace Sys2Proof.Config

/-- `T_EH`: units requested while E is high (R20, 40_bus_transport.md R410). -/
def tEh : Nat := 1
/-- `T_EL`: units requested after E goes low (R20, 40_bus_transport.md R410). -/
def tEl : Nat := 1
/-- `T_POWERUP`: post-power-up settle in INIT (R20, 44_init_status.md R604). -/
def tPowerup : Nat := 40
/-- `N_PRIME`: count of 0x3 priming nibbles (R20). -/
def nPrime : Nat := 3
/-- `T_PRIME`: units after each 0x3 priming nibble (R20). -/
def tPrime : Nat := 15
/-- `T_HOME`: settle after return home (R20, 42_commands.md R501). -/
def tHome : Nat := 2
/-- `T_BUSY`: units requested by the busy stub (R20, 44_init_status.md R650). -/
def tBusy : Nat := 1
/-- `UNIT`: the nominal milliseconds of one delay unit, "1 unit ≈ 1 millisecond" (R20, 60_exceptions.md R732). No event and no outcome
depends on it (70_reset_and_hazards.md R820; log 16). -/
def unitMilliseconds : Nat := 1
/-- `TEXT_CAP`: most characters emitted per formatted call (R20, 43_text.md R570). -/
def textCap : Nat := 80
/-- `N_ROWS`: addressable rows (R20, 41_addressing.md R452). -/
def nRows : Nat := 2
/-- `ROW_BASE`: DDRAM base address of a row (R20): row 0 at 0x00, row 1 at 0x40. -/
def rowBase : Nat → Nat
  | 1 => 0x40
  | _ => 0x00
/-- `DDRAM_MASK` (R20, 42_commands.md R514). -/
def ddramMask : Byte := 0x7F
/-- `CGRAM_MASK` (R20, 42_commands.md R513). -/
def cgramMask : Byte := 0x3F

/-- The fixed opcodes of the command words (30_encoding.md R310; parameters by 00_scope.md R4). -/
def opClear : Byte := 0x01
/-- Opcode of return home (30_encoding.md R310). -/
def opHome : Byte := 0x02
/-- Opcode of entry mode set (30_encoding.md R310). -/
def opEntryMode : Byte := 0x04
/-- Opcode of display control (30_encoding.md R310). -/
def opDisplayControl : Byte := 0x08
/-- Opcode of cursor or display shift (30_encoding.md R310). -/
def opShift : Byte := 0x10
/-- Opcode of function set (30_encoding.md R310). -/
def opFunctionSet : Byte := 0x20
/-- Opcode of set CGRAM address (30_encoding.md R310). -/
def opSetCgram : Byte := 0x40
/-- Opcode of set DDRAM address (30_encoding.md R310). -/
def opSetDdram : Byte := 0x80

/-- The priming nibble sent `N_PRIME` times: `functionSet(true, ·, ·) >> 4` (44_init_status.md R604). -/
def primeNibble : BitVec 4 := 0x3
/-- The last priming nibble: `0x20 >> 4` (44_init_status.md R604). -/
def fourBitNibble : BitVec 4 := 0x2

/-- The byte FORMATTED takes as a newline (43_text.md R570). -/
def newlineByte : Byte := 0x0A
/-- The byte that ends a rendered text (43_text.md R570). -/
def endByte : Byte := 0x00

end Sys2Proof.Config
end

