-- ==== Sys2Proof/Machine/Operands.lean ====
section
/-! DEFINITION. Operand assembly: command words from flags and addresses (30_encoding.md R310, R320), the logical position to DDRAM
address map (41_addressing.md R450), the code-page remap (00_scope.md R21) and the text FORMATTED emits (43_text.md R570). -/

namespace Sys2Proof.Machine

/-! ### Command words -/

/-- `0x04 | (shift?0x01:0) | (increment?0x02:0)` (42_commands.md R502). -/
def entryModeWord (increment shift : Bool) : Byte :=
  Config.opEntryMode ||| flagBit shift 0x01 ||| flagBit increment 0x02

/-- `0x08 | (cursorBlink?0x01:0) | (showCursor?0x02:0) | (displayOn?0x04:0)` (42_commands.md R503). -/
def displayControlWord (displayOn showCursor cursorBlink : Bool) : Byte :=
  Config.opDisplayControl ||| flagBit cursorBlink 0x01 ||| flagBit showCursor 0x02 ||| flagBit displayOn 0x04

/-- `0x10 | (shiftDisplay?0x08:0) | (shiftRight?0x04:0)` (42_commands.md R504). -/
def shiftWord (shiftDisplay shiftRight : Bool) : Byte :=
  Config.opShift ||| flagBit shiftDisplay 0x08 ||| flagBit shiftRight 0x04

/-- `0x20 | (bigFont?0x04:0) | (lineCount>1?0x08:0) | (bus8?0x10:0)` (42_commands.md R505), from the N flag. -/
def functionSetWord (bus8 lines2 bigFont : Bool) : Byte :=
  Config.opFunctionSet ||| flagBit bigFont 0x04 ||| flagBit lines2 0x08 ||| flagBit bus8 0x10

/-- `0x40 + (addr & 0x3F)` (42_commands.md R513). -/
def setCgramWord (addr : Byte) : Byte := Config.opSetCgram + (addr &&& Config.cgramMask)

/-- `0x80 + (addr & 0x7F)` (42_commands.md R514), for an address of any size: the mask keeps the low bits only. -/
def setDdramWord (addr : Nat) : Byte := Config.opSetDdram + (BitVec.ofNat 8 addr &&& Config.ddramMask)

/-! ### Positions -/

/-- The end-of-line wrap, before row mapping, at most once (41_addressing.md R451). -/
def wrapColumn (width col row : Nat) : Nat × Nat :=
  if width ≤ col then (0, row + 1) else (col, row)

/-- The row mapping (41_addressing.md R452): the position kept or forced to (0, 0), and the row's base address. -/
def mapRow (col row : Nat) : (Nat × Nat) × Nat :=
  if row < Config.nRows then ((col, row), Config.rowBase row) else ((0, 0), Config.rowBase 0)

/-- Where a position of the cursor space lands, and the DDRAM address to send (41_addressing.md R450 to R454). -/
def locate (width col row : Nat) : (Nat × Nat) × Nat :=
  let wrapped := wrapColumn width col row
  let placed := mapRow wrapped.1 wrapped.2
  (placed.1, placed.1.1 + placed.2)

/-! ### Characters and text -/

/-- `remap(c)`: the table's entry when the remap is enabled, else the code (00_scope.md R21). -/
def remapCode (code : Byte) : Byte := if Config.remapEnabled then Config.remap code else code

/-- The bytes of a rendered text that are emitted: those before the first 0x00, at most `TEXT_CAP` (43_text.md R570). -/
def emittedText (text : List Byte) : List Byte :=
  (text.takeWhile (fun c => c != Config.endByte)).take Config.textCap

end Sys2Proof.Machine
end

