-- ==== Sys2Proof/Machine/Ops.lean ====
section
/-! DEFINITION. The named operations over the state: trace primitives (00_scope.md R33), the setup phase, pulse, lone nibble and byte
write (40_bus_transport.md), the command writes (42_commands.md), MoveTo (41_addressing.md R450), and how an operation ends: done,
refused, or halted (00_scope.md R13, 60_exceptions.md R710). The engine has no exception to take but the halt (R722). -/

namespace Sys2Proof.Machine

/-- A step's answer on this machine. -/
abbrev Answer := Host.Outcome State Fault Refusal

/-! ### Trace primitives (00_scope.md R33) -/

/-- `Clk(L)`. -/
def clk (role : LineRole) (s : State) : State :=
  { s with trace := s.trace ++ [.clk role (roleGet s.bus role)] }

/-- `Drv(L, v)`: also sets `lvl(L)`. -/
def drv (role : LineRole) (level : Bool) (s : State) : State :=
  { s with trace := s.trace ++ [.drv role (roleGet s.bus role) level], lvl := roleSet s.lvl role (some level) }

/-- `Out(L)`: also sets `cfg(L)` (10_state.md R110). -/
def out (role : LineRole) (s : State) : State :=
  { s with trace := s.trace ++ [.out role (roleGet s.bus role)], cfg := roleSet s.cfg role .output }

/-- `Dly(n)`. -/
def dly (units : Nat) (s : State) : State :=
  { s with trace := s.trace ++ [.dly units] }

/-! ### Setup phase, pulse, nibble, write (40_bus_transport.md) -/

/-- The pairs of one setup phase in the order `SETUP_ORDER` gives them (R405). -/
def setupOrder (phase : SetupPhase) (pairs : List (LineRole × Bool)) : List (LineRole × Bool) :=
  pairs.insertionSort (fun a b => Config.setupRank phase pairs a.1 ≤ Config.setupRank phase pairs b.1)

/-- The levels after every pair is driven. -/
def drivenLevels (pairs : List (LineRole × Bool)) (lvl : RoleMap (Option Bool)) : RoleMap (Option Bool) :=
  pairs.foldl (fun m p => roleSet m p.1 (some p.2)) lvl

/-- `Setup(S)` (R405): one `Drv` for each pair, in the order `SETUP_ORDER` gives; the levels do not depend on that order, since no
role stands twice in S. -/
def setup (phase : SetupPhase) (pairs : List (LineRole × Bool)) (s : State) : State :=
  { s with
    trace := s.trace ++ (setupOrder phase pairs).map (fun p => .drv p.1 (roleGet s.bus p.1) p.2)
    lvl := drivenLevels pairs s.lvl }

/-- `Pulse()` (R410). -/
def pulse (s : State) : State :=
  dly Config.tEl (drv .e false (dly Config.tEh (drv .e true s)))

/-- Nibble bits on DB7..DB4, bit 3 on DB7 (20_memory.md R210). -/
def nibblePairs (n : BitVec 4) : List (LineRole × Bool) :=
  [(.db7, n.getLsbD 3), (.db6, n.getLsbD 2), (.db5, n.getLsbD 1), (.db4, n.getLsbD 0)]

/-- Byte bits on DB7..DB0, bit 7 on DB7 (20_memory.md R210). -/
def bytePairs (b : Byte) : List (LineRole × Bool) :=
  [(.db7, b.getLsbD 7), (.db6, b.getLsbD 6), (.db5, b.getLsbD 5), (.db4, b.getLsbD 4),
   (.db3, b.getLsbD 3), (.db2, b.getLsbD 2), (.db1, b.getLsbD 1), (.db0, b.getLsbD 0)]

/-- RNW low and RS at the register selected, as every write's first setup phase drives them (R401, R402). -/
def selectPairs (isData : Bool) : List (LineRole × Bool) := [(.rnw, false), (.rs, isData)]

/-- `Nibble(n)` (R420): RS and RNW are not driven. -/
def nibble (n : BitVec 4) (s : State) : State :=
  pulse (setup .loneNibble (nibblePairs n) s)

/-- The high nibble of a byte, b[7:4]. -/
def highNibble (b : Byte) : BitVec 4 := b.extractLsb' 4 4

/-- The low nibble of a byte, b[3:0]. -/
def lowNibble (b : Byte) : BitVec 4 := b.extractLsb' 0 4

/-- `Write(isData, b)` (R400): one cycle in BUS8, high nibble then low nibble in BUS4. -/
def writeByte (isData : Bool) (b : Byte) (s : State) : State :=
  match s.mode with
  | .bus8 => pulse (setup .write8 (selectPairs isData ++ bytePairs b) s)
  | .bus4 =>
    pulse (setup .write4Low (nibblePairs (lowNibble b))
      (pulse (setup .write4High (selectPairs isData ++ nibblePairs (highNibble b)) s)))

/-- A command: `Write(false, word)` (42_commands.md R510). -/
def sendCommand (word : Byte) (s : State) : State := writeByte false word s

/-- `SetCGRAMAddress(a)` (42_commands.md R513). -/
def sendCgramAddress (addr : Byte) (s : State) : State := sendCommand (setCgramWord addr) s

/-- `SetDDRAMAddress(a)` (42_commands.md R514). -/
def sendDdramAddress (addr : Nat) (s : State) : State := sendCommand (setDdramWord addr) s

/-! ### The cursor -/

/-- `s.cursor <- (col, row)`. -/
def setCursor (col row : Nat) (s : State) : State :=
  { s with cursor := ⟨BitVec.ofNat 8 col, BitVec.ofNat 8 row⟩ }

/-- `MoveTo(c, r)` (41_addressing.md R450). -/
def moveCursor (col row : Nat) (s : State) : State :=
  let target := locate s.width.toNat col row
  sendDdramAddress target.2 (setCursor target.1.1 target.1.2 s)

/-- `newline()`: `MoveTo(0, s.cursor.row + 1)` (41_addressing.md R460). -/
def lineFeed (s : State) : State := moveCursor 0 (s.cursor.row.toNat + 1) s

/-- `clear()`'s effect: the cursor reset, then the word (42_commands.md R500). -/
def clearDisplay (s : State) : State := sendCommand Config.opClear (setCursor 0 0 s)

/-- `home()`'s effect: the cursor reset, the word, the settle delay (42_commands.md R501). -/
def returnHome (s : State) : State := dly Config.tHome (sendCommand Config.opHome (setCursor 0 0 s))

/-! ### Characters -/

/-- `PutChar(code)` (43_text.md R550). -/
def emitChar (code : Byte) (s : State) : State :=
  let s1 := writeByte true (remapCode code) s
  moveCursor (s1.cursor.col.toNat + 1) s1.cursor.row.toNat s1

/-- One byte of a text: a newline, or a character (43_text.md R570). -/
def emitTextByte (s : State) (c : Byte) : State :=
  if c = Config.newlineByte then lineFeed s else emitChar c s

/-- `EmitText(text)` (43_text.md R570). -/
def emitText (text : List Byte) (s : State) : State := (emittedText text).foldl emitTextByte s

/-- Data bytes one after another, none remapped (43_text.md R580). -/
def streamData (bytes : List Byte) (s : State) : State := bytes.foldl (fun s b => writeByte true b s) s

/-! ### How an operation ends -/

/-- Done: the state, with the outcome the host sees (00_scope.md R13). -/
def finish (outcome : OpOutcome) (s : State) : Answer := .next { s with outcome := outcome }

/-- `raise Halt(reason, L)`: every event appended before it stays, and the engine is HALTED (60_exceptions.md R710; log 9). -/
def raiseHalt (reason : HaltReason) (role : LineRole) (s : State) : Answer :=
  .next { s with life := .halted, outcome := .halted reason role }

/-- The check of every host operation but INIT, before any event: stuck in HALTED, refused in UNINIT (60_exceptions.md R702). -/
def whenReady (s : State) (k : State → Answer) : Answer :=
  match s.life with
  | .halted => .fault .engineHalted
  | .uninit => .refused .notInitialized
  | .ready => k s

/-- The check of INIT and of the sequencer's own words: stuck in HALTED only (60_exceptions.md R711, 42_commands.md R511; log 6). -/
def unlessHalted (s : State) (k : State → Answer) : Answer :=
  match s.life with
  | .halted => .fault .engineHalted
  | .uninit => k s
  | .ready => k s

/-- A host operation that is done without a result. -/
def hostOp (effect : State → State) (s : State) : Answer := whenReady s fun s => finish .done (effect s)

/-- A word of the sequencer's table put on the bus (30_encoding.md R302, R303; log 6). -/
def busOp (effect : State → State) (s : State) : Answer := unlessHalted s fun s => finish .done (effect s)

end Sys2Proof.Machine
end

