-- ==== Sys2Proof/Machine/Addressing.lean ====
section
/-! DEFINITION. The DDRAM address translator's host operations (41_addressing.md). -/

namespace Sys2Proof.Machine

/-- MOVE_TO col, row (41_addressing.md R461). -/
def execMoveTo (col row : Byte) (s : State) : Answer := hostOp (moveCursor col.toNat row.toNat) s

/-- NEWLINE (41_addressing.md R460). -/
def execNewline (s : State) : Answer := hostOp lineFeed s

end Sys2Proof.Machine
end

