-- ==== Sys2Proof/Machine/Commands.lean ====
section
/-! DEFINITION. The command instruction builder's host operations (42_commands.md). -/

namespace Sys2Proof.Machine

/-- CLEAR (42_commands.md R500). -/
def execClear (s : State) : Answer := hostOp clearDisplay s

/-- HOME (42_commands.md R501). -/
def execHome (s : State) : Answer := hostOp returnHome s

/-- ENTRY_MODE_SET increment, shift (42_commands.md R502). -/
def execEntryModeSet (increment shift : Bool) (s : State) : Answer :=
  hostOp (sendCommand (entryModeWord increment shift)) s

/-- DISPLAY_CONTROL displayOn, showCursor, cursorBlink (42_commands.md R503). -/
def execDisplayControl (displayOn showCursor cursorBlink : Bool) (s : State) : Answer :=
  hostOp (sendCommand (displayControlWord displayOn showCursor cursorBlink)) s

/-- CURSOR_CONTROL shiftDisplay, shiftRight (42_commands.md R504). -/
def execCursorControl (shiftDisplay shiftRight : Bool) (s : State) : Answer :=
  hostOp (sendCommand (shiftWord shiftDisplay shiftRight)) s

/-- FUNCTION_SET bus8, lineCount, bigFont (42_commands.md R505): `s.mode` is not written. -/
def execFunctionSet (bus8 : Bool) (lineCount : Byte) (bigFont : Bool) (s : State) : Answer :=
  hostOp (sendCommand (functionSetWord bus8 (twoLines lineCount) bigFont)) s

/-- SET_CGRAM_ADDRESS addr (42_commands.md R506). -/
def execSetCgramAddress (addr : Byte) (s : State) : Answer := hostOp (sendCgramAddress addr) s

/-- SET_DDRAM_ADDRESS addr (42_commands.md R507): the cursor is not written (R517). -/
def execSetDdramAddress (addr : Byte) (s : State) : Answer := hostOp (sendDdramAddress addr.toNat) s

end Sys2Proof.Machine
end

