-- ==== Sys2Proof/Machine/Init.lean ====
section
/-! DEFINITION. The initialization sequence and the busy stub (44_init_status.md). -/

namespace Sys2Proof.Machine

/-- Step 1 of INIT (R602). -/
def initRecord (bus : BusDescriptor) (width : Byte) (bus8 : Bool) (s : State) : State :=
  { s with width := width, mode := modeOf bus8, bus := bus, cursor := ⟨0, 0⟩ }

/-- Step 2 of INIT (R603, R608): each line clocked, driven low and configured as output, in list order; the first role whose port is
not valid, if any, right after its `Clk`. -/
def configureLines : List LineRole → State → State × Option LineRole
  | [], s => (s, none)
  | role :: rest, s =>
    let s1 := clk role s
    if Config.portValid (roleGet s1.bus role).port then configureLines rest (out role (drv role false s1))
    else (s1, some role)

/-- `N_PRIME` priming nibbles 0x3, each followed by its delay (R604). -/
def primeRepeat : Nat → State → State
  | 0, s => s
  | n + 1, s => primeRepeat n (dly Config.tPrime (nibble Config.primeNibble s))

/-- Steps 3 and 4 of INIT (R604, R605): the settle delay, and in BUS4 the priming. -/
def initPrime (s : State) : State :=
  let s1 := dly Config.tPowerup s
  match s1.mode with
  | .bus8 => s1
  | .bus4 => nibble Config.fourBitNibble (primeRepeat Config.nPrime s1)

/-- Step 5 of INIT (R606). -/
def initWords (lineCount : Byte) (s : State) : State :=
  returnHome (clearDisplay
    (sendCommand (shiftWord false false)
      (sendCommand (entryModeWord true false)
        (sendCommand (displayControlWord true false false)
          (sendCommand (functionSetWord false (twoLines lineCount) false) s)))))

/-- The end of INIT: `s.life <- READY` (R600). -/
def initReady (s : State) : State := { s with life := .ready }

/-- INIT bus, width, bus8, lineCount, bigFont (R600). `bigFont` is used by no step (R601). -/
def execInit (bus : BusDescriptor) (width : Byte) (bus8 : Bool) (lineCount : Byte) (_bigFont : Bool) (s : State) : Answer :=
  unlessHalted s fun s =>
    if width = 0 then .refused .badWidth
    else if lineAliased bus (modeOf bus8) then .refused .lineAlias
    else
      match configureLines (usedRoles (modeOf bus8)) (initRecord bus width bus8 s) with
      | (s1, some role) => raiseHalt .badPort role s1
      | (s1, none) => finish .done (initReady (initWords lineCount (initPrime s1)))

/-- IS_BUSY (R650). -/
def execIsBusy (s : State) : Answer :=
  whenReady s fun s => finish (.doneBool Config.busyStubResult) (dly Config.tBusy s)

end Sys2Proof.Machine
end

