-- ==== Sys2Proof/Machine/Text.lean ====
section
/-! DEFINITION. Character emission (43_text.md). -/

namespace Sys2Proof.Machine

/-- PUT_CHAR code (43_text.md R550). -/
def execPutChar (code : Byte) (s : State) : Answer := hostOp (emitChar code) s

/-- PUT_CHAR_AT col, row, code (43_text.md R551). -/
def execPutCharAt (col row code : Byte) (s : State) : Answer :=
  hostOp (fun s => emitChar code (moveCursor col.toNat row.toNat s)) s

/-- FORMATTED text (43_text.md R570). -/
def execFormatted (text : List Byte) (s : State) : Answer := hostOp (emitText text) s

/-- FORMATTED_AT col, row, text (43_text.md R571). -/
def execFormattedAt (col row : Byte) (text : List Byte) (s : State) : Answer :=
  hostOp (fun s => emitText text (moveCursor col.toNat row.toNat s)) s

/-- DEFINE_CHAR addr, pattern, size (43_text.md R580). -/
def execDefineChar (addr : Byte) (pattern : List Byte) (size : Byte) (s : State) : Answer :=
  whenReady s fun s =>
    if pattern.length < size.toNat then .refused .shortPattern
    else finish .done (streamData (pattern.take size.toNat) (sendCgramAddress addr s))

end Sys2Proof.Machine
end

