-- ==== Sys2Proof/Machine/Transport.lean ====
section
/-! DEFINITION. The bus-cycle sequencer's table: the BW10 bus words (30_encoding.md R302, R310, R315), the NIB6 priming nibbles (R303,
40_bus_transport.md R420), and the internal host operation WRITE (R431). A bus word moves no cursor and makes no lifecycle check but
HALTED (42_commands.md R511; log 6). -/

namespace Sys2Proof.Machine

/-- CMD_CLEAR: the bus word {0, 0, 0x01} (30_encoding.md R310). -/
def execCmdClear (s : State) : Answer := busOp (sendCommand Config.opClear) s

/-- CMD_HOME: the bus word {0, 0, 0x02} (30_encoding.md R310). -/
def execCmdHome (s : State) : Answer := busOp (sendCommand Config.opHome) s

/-- CMD_ENTRY_MODE: the bus word 000001IS (30_encoding.md R310). -/
def execCmdEntryMode (increment shift : Bool) (s : State) : Answer :=
  busOp (sendCommand (entryModeWord increment shift)) s

/-- CMD_DISPLAY_CONTROL: the bus word 00001DCB (30_encoding.md R310). -/
def execCmdDisplayControl (displayOn showCursor cursorBlink : Bool) (s : State) : Answer :=
  busOp (sendCommand (displayControlWord displayOn showCursor cursorBlink)) s

/-- CMD_SHIFT: the bus word 0001PR00 (30_encoding.md R310). -/
def execCmdShift (shiftDisplay shiftRight : Bool) (s : State) : Answer :=
  busOp (sendCommand (shiftWord shiftDisplay shiftRight)) s

/-- CMD_FUNCTION_SET: the bus word 001LNF00 (30_encoding.md R310). -/
def execCmdFunctionSet (bus8 lines2 bigFont : Bool) (s : State) : Answer :=
  busOp (sendCommand (functionSetWord bus8 lines2 bigFont)) s

/-- CMD_SET_CGRAM: the bus word 01AAAAAA (30_encoding.md R310). -/
def execCmdSetCgram (addr : Byte) (s : State) : Answer := busOp (sendCgramAddress addr) s

/-- CMD_SET_DDRAM: the bus word 1AAAAAAA (30_encoding.md R310). -/
def execCmdSetDdram (addr : Byte) (s : State) : Answer := busOp (sendDdramAddress addr.toNat) s

/-- DATA: the bus word {1, 0, b} (30_encoding.md R315). -/
def execData (byte : Byte) (s : State) : Answer := busOp (writeByte true byte) s

/-- NIB_PRIME_3: the lone nibble 0x3 (30_encoding.md R303, 40_bus_transport.md R420). -/
def execNibPrime3 (s : State) : Answer := busOp (nibble Config.primeNibble) s

/-- NIB_PRIME_2: the lone nibble 0x2 (30_encoding.md R303, 40_bus_transport.md R420). -/
def execNibPrime2 (s : State) : Answer := busOp (nibble Config.fourBitNibble) s

/-- WRITE isData, byte (40_bus_transport.md R431). -/
def execWrite (isData : Bool) (byte : Byte) (s : State) : Answer := hostOp (writeByte isData byte) s

end Sys2Proof.Machine
end

