-- ==== Sys2Proof/Machine/Dispatch.lean ====
section
/-! DEFINITION. One arm per constructor of `Instr`: the meaning of every row of spec/opcode_table.json. -/

namespace Sys2Proof.Machine

def exec (i : Instr) (s : State) : Host.Outcome State Fault Refusal :=
  match i with
  -- BW10 bus words and NIB6 priming nibbles
  | .cmdClear => Sys2Proof.Machine.execCmdClear s
  | .cmdHome => Sys2Proof.Machine.execCmdHome s
  | .cmdEntryMode increment shift => Sys2Proof.Machine.execCmdEntryMode increment shift s
  | .cmdDisplayControl displayOn showCursor cursorBlink => Sys2Proof.Machine.execCmdDisplayControl displayOn showCursor cursorBlink s
  | .cmdShift shiftDisplay shiftRight => Sys2Proof.Machine.execCmdShift shiftDisplay shiftRight s
  | .cmdFunctionSet bus8 lines2 bigFont => Sys2Proof.Machine.execCmdFunctionSet bus8 lines2 bigFont s
  | .cmdSetCgram addr => Sys2Proof.Machine.execCmdSetCgram addr s
  | .cmdSetDdram addr => Sys2Proof.Machine.execCmdSetDdram addr s
  | .data byte => Sys2Proof.Machine.execData byte s
  | .nibPrime3 => Sys2Proof.Machine.execNibPrime3 s
  | .nibPrime2 => Sys2Proof.Machine.execNibPrime2 s
  -- host operations
  | .init bus width bus8 lineCount bigFont => Sys2Proof.Machine.execInit bus width bus8 lineCount bigFont s
  | .clear => Sys2Proof.Machine.execClear s
  | .home => Sys2Proof.Machine.execHome s
  | .entryModeSet increment shift => Sys2Proof.Machine.execEntryModeSet increment shift s
  | .displayControl displayOn showCursor cursorBlink => Sys2Proof.Machine.execDisplayControl displayOn showCursor cursorBlink s
  | .cursorControl shiftDisplay shiftRight => Sys2Proof.Machine.execCursorControl shiftDisplay shiftRight s
  | .functionSet bus8 lineCount bigFont => Sys2Proof.Machine.execFunctionSet bus8 lineCount bigFont s
  | .setCgramAddress addr => Sys2Proof.Machine.execSetCgramAddress addr s
  | .setDdramAddress addr => Sys2Proof.Machine.execSetDdramAddress addr s
  | .putChar code => Sys2Proof.Machine.execPutChar code s
  | .putCharAt col row code => Sys2Proof.Machine.execPutCharAt col row code s
  | .formatted text => Sys2Proof.Machine.execFormatted text s
  | .formattedAt col row text => Sys2Proof.Machine.execFormattedAt col row text s
  | .defineChar addr pattern size => Sys2Proof.Machine.execDefineChar addr pattern size s
  | .isBusy => Sys2Proof.Machine.execIsBusy s
  | .moveTo col row => Sys2Proof.Machine.execMoveTo col row s
  | .newline => Sys2Proof.Machine.execNewline s
  | .write isData byte => Sys2Proof.Machine.execWrite isData byte s

end Sys2Proof.Machine
end

