-- ==== Sys2Proof/WellFormed.lean ====
section
/-! DEFINITION. Which instructions can be written down. The typed operands of 30_encoding.md R330 need no check; the address fields of
the two set-address bus words have 6 and 7 bits (R310), held in a byte here. -/

namespace Sys2Proof

/-- The instruction's operands fit the fields the encoding gives them (30_encoding.md R310). -/
def Instr.wf : Instr → Bool
  | .cmdClear => true
  | .cmdHome => true
  | .cmdEntryMode _ _ => true
  | .cmdDisplayControl _ _ _ => true
  | .cmdShift _ _ => true
  | .cmdFunctionSet _ _ _ => true
  | .cmdSetCgram addr => decide (addr.toNat < 0x40)
  | .cmdSetDdram addr => decide (addr.toNat < 0x80)
  | .data _ => true
  | .nibPrime3 => true
  | .nibPrime2 => true
  | .init _ _ _ _ _ => true
  | .clear => true
  | .home => true
  | .entryModeSet _ _ => true
  | .displayControl _ _ _ => true
  | .cursorControl _ _ => true
  | .functionSet _ _ _ => true
  | .setCgramAddress _ => true
  | .setDdramAddress _ => true
  | .putChar _ => true
  | .putCharAt _ _ _ => true
  | .formatted _ => true
  | .formattedAt _ _ _ => true
  | .defineChar _ _ _ => true
  | .isBusy => true
  | .moveTo _ _ => true
  | .newline => true
  | .write _ _ => true

end Sys2Proof
end

