-- ==== Sys2Proof/Decode.lean ====
section
/-! DEFINITION. Decoding, total on any bytes, and encoding. Bus words and priming nibbles follow 30_encoding.md R300 to R322; host
operations follow R330 and R331, with the model's byte layout of their operands (log 3). -/

namespace Sys2Proof

/-- Why a request is no instruction. -/
inductive DecodeError where
  /-- The tag names no host operation (30_encoding.md R331). -/
  | badOpcode (tag : Byte)
  /-- The request ends before its last operand. -/
  | truncated
  /-- An operand byte is outside its type, which cannot be written down (30_encoding.md R331). -/
  | badOperand
  /-- Bytes are left after the last operand. -/
  | trailingBytes
  /-- A bus word has more than 10 bits, or a nibble cycle more than 6. -/
  | badWordWidth
  /-- A bus word or nibble the engine never sends (30_encoding.md R322, R303). -/
  | notEmitted
  deriving DecidableEq, Repr

/-! ### Bus words (BW10) and nibbles (NIB6) -/

/-- R321: the (match, mask) pairs of the bus words, on the 10-bit numbering of R300. -/
def decodeWord (w : BitVec 10) : Except DecodeError Instr :=
  if w = 0x001 then .ok .cmdClear
  else if w = 0x002 then .ok .cmdHome
  else if w &&& 0x3FC = 0x004 then .ok (.cmdEntryMode (w.getLsbD 1) (w.getLsbD 0))
  else if w &&& 0x3F8 = 0x008 then .ok (.cmdDisplayControl (w.getLsbD 2) (w.getLsbD 1) (w.getLsbD 0))
  else if w &&& 0x3F3 = 0x010 then .ok (.cmdShift (w.getLsbD 3) (w.getLsbD 2))
  else if w &&& 0x3E3 = 0x020 then .ok (.cmdFunctionSet (w.getLsbD 4) (w.getLsbD 3) (w.getLsbD 2))
  else if w &&& 0x3C0 = 0x040 then .ok (.cmdSetCgram (w.setWidth 8 &&& 0x3F))
  else if w &&& 0x380 = 0x080 then .ok (.cmdSetDdram (w.setWidth 8 &&& 0x7F))
  else if w &&& 0x300 = 0x200 then .ok (.data (w.setWidth 8))
  else .error .notEmitted

/-- R303: the only lone nibble cycles the engine sends, on the 6-bit numbering of R301. -/
def decodeNibble (n : BitVec 6) : Except DecodeError Instr :=
  if n = 0x03 then .ok .nibPrime3
  else if n = 0x02 then .ok .nibPrime2
  else .error .notEmitted

/-! ### Operands of host calls (log 3) -/

/-- A `Bits8` operand is one byte. -/
def takeByte : List Byte → Except DecodeError (Byte × List Byte)
  | [] => .error .truncated
  | b :: rest => .ok (b, rest)

/-- A Boolean operand is one byte, 0 or 1 (30_encoding.md R340). -/
def takeBool : List Byte → Except DecodeError (Bool × List Byte)
  | [] => .error .truncated
  | b :: rest => if b = 0 then .ok (false, rest) else if b = 1 then .ok (true, rest) else .error .badOperand

/-- A list operand is the byte 1 and an element, for each element, and then the byte 0. -/
def takeList : List Byte → Except DecodeError (List Byte × List Byte)
  | [] => .error .truncated
  | [m] => if m = 0 then .ok ([], []) else if m = 1 then .error .truncated else .error .badOperand
  | m :: b :: rest =>
    if m = 0 then .ok ([], b :: rest)
    else if m = 1 then
      match takeList rest with
      | .ok (bs, left) => .ok (b :: bs, left)
      | .error err => .error err
    else .error .badOperand

/-- A line is its port byte and its pin byte. -/
def takeLine : List Byte → Except DecodeError (GpioLine × List Byte)
  | port :: pin :: rest => .ok (⟨port, pin⟩, rest)
  | _ => .error .truncated

/-- A bus descriptor is its 11 lines, in the order RS, RNW, E, DB7..DB0 (10_state.md R104). -/
def takeBus (bytes : List Byte) : Except DecodeError (BusDescriptor × List Byte) := do
  let (rs, r) ← takeLine bytes
  let (rnw, r) ← takeLine r
  let (e, r) ← takeLine r
  let (db7, r) ← takeLine r
  let (db6, r) ← takeLine r
  let (db5, r) ← takeLine r
  let (db4, r) ← takeLine r
  let (db3, r) ← takeLine r
  let (db2, r) ← takeLine r
  let (db1, r) ← takeLine r
  let (db0, r) ← takeLine r
  .ok (⟨rs, rnw, e, db7, db6, db5, db4, db3, db2, db1, db0⟩, r)

/-- R330: the tag, then the operands in the order of the table; what is left of the bytes. -/
def decodeHost : List Byte → Except DecodeError (Instr × List Byte)
  | [] => .error .truncated
  | tag :: r =>
    match tag.toNat with
    | 0x00 => do
      let (bus, r) ← takeBus r
      let (width, r) ← takeByte r
      let (bus8, r) ← takeBool r
      let (lineCount, r) ← takeByte r
      let (bigFont, r) ← takeBool r
      .ok (.init bus width bus8 lineCount bigFont, r)
    | 0x01 => .ok (.clear, r)
    | 0x02 => .ok (.home, r)
    | 0x03 => do
      let (increment, r) ← takeBool r
      let (shift, r) ← takeBool r
      .ok (.entryModeSet increment shift, r)
    | 0x04 => do
      let (displayOn, r) ← takeBool r
      let (showCursor, r) ← takeBool r
      let (cursorBlink, r) ← takeBool r
      .ok (.displayControl displayOn showCursor cursorBlink, r)
    | 0x05 => do
      let (shiftDisplay, r) ← takeBool r
      let (shiftRight, r) ← takeBool r
      .ok (.cursorControl shiftDisplay shiftRight, r)
    | 0x06 => do
      let (bus8, r) ← takeBool r
      let (lineCount, r) ← takeByte r
      let (bigFont, r) ← takeBool r
      .ok (.functionSet bus8 lineCount bigFont, r)
    | 0x07 => do
      let (addr, r) ← takeByte r
      .ok (.setCgramAddress addr, r)
    | 0x08 => do
      let (addr, r) ← takeByte r
      .ok (.setDdramAddress addr, r)
    | 0x09 => do
      let (code, r) ← takeByte r
      .ok (.putChar code, r)
    | 0x0A => do
      let (col, r) ← takeByte r
      let (row, r) ← takeByte r
      let (code, r) ← takeByte r
      .ok (.putCharAt col row code, r)
    | 0x0B => do
      let (text, r) ← takeList r
      .ok (.formatted text, r)
    | 0x0C => do
      let (col, r) ← takeByte r
      let (row, r) ← takeByte r
      let (text, r) ← takeList r
      .ok (.formattedAt col row text, r)
    | 0x0D => do
      let (addr, r) ← takeByte r
      let (pattern, r) ← takeList r
      let (size, r) ← takeByte r
      .ok (.defineChar addr pattern size, r)
    | 0x0E => .ok (.isBusy, r)
    | 0x10 => do
      let (col, r) ← takeByte r
      let (row, r) ← takeByte r
      .ok (.moveTo col row, r)
    | 0x11 => .ok (.newline, r)
    | 0x12 => do
      let (isData, r) ← takeBool r
      let (byte, r) ← takeByte r
      .ok (.write isData byte, r)
    | _ => .error (.badOpcode tag)

/-- The instruction at the front of a request's bytes, and the bytes left after it. -/
def decodeFront (q : Request) : Except DecodeError (Instr × List Byte) :=
  match q.format with
  | .hostOp => decodeHost q.bytes
  | .bw10 =>
    match q.bytes with
    | low :: high :: rest =>
      if high.toNat < 4 then do
        let i ← decodeWord (high.setWidth 2 ++ low)
        .ok (i, rest)
      else .error .badWordWidth
    | _ => .error .truncated
  | .nib6 =>
    match q.bytes with
    | b :: rest =>
      if b.toNat < 0x40 then do
        let i ← decodeNibble (b.setWidth 6)
        .ok (i, rest)
      else .error .badWordWidth
    | [] => .error .truncated

/-- A request is exactly one instruction. -/
def decode (q : Request) : Except DecodeError Instr :=
  match decodeFront q with
  | .ok (i, []) => .ok i
  | .ok (_, _ :: _) => .error .trailingBytes
  | .error err => .error err

/-! ### Encoding -/

/-- A flag at its bit of a bus word when true, 0 when false (30_encoding.md R320). -/
def wordFlag (b : Bool) (bit : BitVec 10) : BitVec 10 := if b then bit else 0

/-- A Boolean operand's byte (30_encoding.md R340). -/
def boolByte (b : Bool) : Byte := if b then 1 else 0

/-- A list operand's bytes. -/
def listBytes : List Byte → List Byte
  | [] => [0]
  | b :: rest => 1 :: b :: listBytes rest

/-- A line's bytes. -/
def lineBytes (l : GpioLine) : List Byte := [l.port, l.pin]

/-- A bus descriptor's bytes. -/
def busBytes (m : BusDescriptor) : List Byte :=
  lineBytes m.rs ++ lineBytes m.rnw ++ lineBytes m.e ++ lineBytes m.db7 ++ lineBytes m.db6 ++ lineBytes m.db5 ++
    lineBytes m.db4 ++ lineBytes m.db3 ++ lineBytes m.db2 ++ lineBytes m.db1 ++ lineBytes m.db0

/-- The request of a 10-bit bus word: DB7..DB0, then RS and RNW. -/
def wordRequest (w : BitVec 10) : Request := ⟨.bw10, [w.setWidth 8, (w >>> 8).setWidth 8]⟩

/-- The words of an instruction: R310 and R315 for bus words, R303 for nibbles, R330 for host operations. -/
def encode : Instr → Request
  | .cmdClear => wordRequest 0x001
  | .cmdHome => wordRequest 0x002
  | .cmdEntryMode increment shift => wordRequest (0x004 ||| wordFlag increment 0x002 ||| wordFlag shift 0x001)
  | .cmdDisplayControl displayOn showCursor cursorBlink =>
    wordRequest (0x008 ||| wordFlag displayOn 0x004 ||| wordFlag showCursor 0x002 ||| wordFlag cursorBlink 0x001)
  | .cmdShift shiftDisplay shiftRight => wordRequest (0x010 ||| wordFlag shiftDisplay 0x008 ||| wordFlag shiftRight 0x004)
  | .cmdFunctionSet bus8 twoLines bigFont =>
    wordRequest (0x020 ||| wordFlag bus8 0x010 ||| wordFlag twoLines 0x008 ||| wordFlag bigFont 0x004)
  | .cmdSetCgram addr => wordRequest (0x040 ||| (addr &&& 0x3F).setWidth 10)
  | .cmdSetDdram addr => wordRequest (0x080 ||| (addr &&& 0x7F).setWidth 10)
  | .data byte => wordRequest (0x200 ||| byte.setWidth 10)
  | .nibPrime3 => ⟨.nib6, [0x03]⟩
  | .nibPrime2 => ⟨.nib6, [0x02]⟩
  | .init bus width bus8 lineCount bigFont =>
    ⟨.hostOp, 0x00 :: (busBytes bus ++ [width, boolByte bus8, lineCount, boolByte bigFont])⟩
  | .clear => ⟨.hostOp, [0x01]⟩
  | .home => ⟨.hostOp, [0x02]⟩
  | .entryModeSet increment shift => ⟨.hostOp, [0x03, boolByte increment, boolByte shift]⟩
  | .displayControl displayOn showCursor cursorBlink =>
    ⟨.hostOp, [0x04, boolByte displayOn, boolByte showCursor, boolByte cursorBlink]⟩
  | .cursorControl shiftDisplay shiftRight => ⟨.hostOp, [0x05, boolByte shiftDisplay, boolByte shiftRight]⟩
  | .functionSet bus8 lineCount bigFont => ⟨.hostOp, [0x06, boolByte bus8, lineCount, boolByte bigFont]⟩
  | .setCgramAddress addr => ⟨.hostOp, [0x07, addr]⟩
  | .setDdramAddress addr => ⟨.hostOp, [0x08, addr]⟩
  | .putChar code => ⟨.hostOp, [0x09, code]⟩
  | .putCharAt col row code => ⟨.hostOp, [0x0A, col, row, code]⟩
  | .formatted text => ⟨.hostOp, 0x0B :: listBytes text⟩
  | .formattedAt col row text => ⟨.hostOp, 0x0C :: col :: row :: listBytes text⟩
  | .defineChar addr pattern size => ⟨.hostOp, 0x0D :: addr :: (listBytes pattern ++ [size])⟩
  | .isBusy => ⟨.hostOp, [0x0E]⟩
  | .moveTo col row => ⟨.hostOp, [0x10, col, row]⟩
  | .newline => ⟨.hostOp, [0x11]⟩
  | .write isData byte => ⟨.hostOp, [0x12, boolByte isData, byte]⟩

/-! ### Words as spec/opcode_table.json numbers them -/

/-- The longest operand part of a host call whose operand bits are zero (INIT's: 11 lines and 4 bytes). -/
def zeroOperandBytes : List Byte := List.replicate 26 0

/-- A table word laid out as bytes in its format: 6 bits are a NIB6 cycle, 8 a host tag with operands of zeros, 10 (or its two
whole bytes, 16) a BW10 word (log 5). -/
def tableRequest (nbits w : Nat) : Option Request :=
  if 2 ^ nbits ≤ w then none
  else if nbits = 6 then some ⟨.nib6, [BitVec.ofNat 8 w]⟩
  else if nbits = 8 then some ⟨.hostOp, BitVec.ofNat 8 w :: zeroOperandBytes⟩
  else if nbits = 10 ∨ nbits = 16 then some ⟨.bw10, [BitVec.ofNat 8 w, BitVec.ofNat 8 (w / 256)]⟩
  else none

/-- The instruction the decoder reads from a table word. -/
def decodeTableWord (nbits w : Nat) : Option Instr :=
  match tableRequest nbits w with
  | some q =>
    match decodeFront q with
    | .ok (i, _) => some i
    | .error _ => none
  | none => none

/-- The request that holds exactly the instruction at the front of `q`: the bytes its decoding leaves are cut off. A request that
is no instruction stays as it is. -/
def trimRequest (q : Request) : Request :=
  match decodeFront q with
  | .ok (_, left) => ⟨q.format, q.bytes.take (q.bytes.length - left.length)⟩
  | .error _ => q

end Sys2Proof
end

