-- ==== Sys2Proof/Machine/Fetch.lean ====
section
/-! DEFINITION. Where a step finds its instruction. The engine has no program counter and fetches nothing (10_state.md R101): the next
instruction is the first of the host's pending calls (log 1). -/

namespace Sys2Proof.Machine

/-- The next pending call, and the state with that call taken. -/
def nextCall (s : State) : Option (Request × State) :=
  match s.calls with
  | [] => none
  | q :: rest => some (q, { s with calls := rest })

/-- What a step answers to a request that is no instruction (60_exceptions.md R700, R702: checked before anything else). -/
def refusalOf : DecodeError → Refusal
  | .badOpcode tag => .badOpcode tag
  | .truncated => .truncated
  | .badOperand => .badOperand
  | .trailingBytes => .trailingBytes
  | .badWordWidth => .badWordWidth
  | .notEmitted => .notEmitted

/-- The refusals of the spec's table, which return to the caller (60_exceptions.md R700, R722). -/
def returnsToCaller : Refusal → Bool
  | .badOpcode _ => true
  | .notInitialized => true
  | .badWidth => true
  | .lineAlias => true
  | .shortPattern => true
  | _ => false

/-- What the caller gets of a call's answer: a refusal of the spec's table returns with the state unchanged, the reason in the outcome
(60_exceptions.md R700, R722; log 8). Nothing returns in HALTED, whose caller never got control back (R711; log 9). -/
def backToCaller (s : State) : Answer → Answer
  | .next t => .next t
  | .fault f => .fault f
  | .refused r => if returnsToCaller r ∧ s.life ≠ .halted then .next { s with outcome := .refused r } else .refused r

/-- No call is pending: the engine waits for the host, or is stuck in HALTED (60_exceptions.md R711; log 2). -/
def idle (s : State) : Answer := unlessHalted s .next

/-- The state with the instruction of a table word as its next pending call, and nothing else changed (logs 1, 5). -/
def placeTableWord (s : State) (nbits w : Nat) : State :=
  match tableRequest nbits w with
  | some q => { s with calls := trimRequest q :: s.calls }
  | none => { s with calls := ⟨.hostOp, []⟩ :: s.calls }

end Sys2Proof.Machine
end

