-- ==== Sys2Proof/Machine/Step.lean ====
section
/-! DEFINITION. One step of the machine: the host's next pending call, decoded and run to completion (00_scope.md R12). -/

namespace Sys2Proof.Machine

/-- One step. The tag is checked before anything else (60_exceptions.md R702); then the instruction's own checks and effect. A refused
call returns to the caller (R722). -/
def step (s : State) : Host.Outcome State Fault Refusal :=
  match nextCall s with
  | none => idle s
  | some (q, s1) =>
    backToCaller s1
      (match decode q with
      | .ok i => exec i s1
      | .error err => .refused (refusalOf err))

/-- The state whose very next step runs the instruction of a table word (log 5). -/
def State.withFetchWord (s : State) (nbits w : Nat) : State := placeTableWord s nbits w

end Sys2Proof.Machine
end

