-- ==== Sys2Proof/Machine/Observe.lean ====
section
/-! DEFINITION. What an observer of the trace sees at the level of bus cycles (40_bus_transport.md R406): the levels at each rise of E,
and the calls that are no drive. The order of drives within a setup phase cannot be seen here. -/

namespace Sys2Proof.Machine

/-- One bus cycle, `CYC rs rnw d` (30_encoding.md R342): the levels while E is high, DB7 first; `none` is ⊥. -/
structure BusCycle where
  rs   : Option Bool
  rnw  : Option Bool
  data : List (Option Bool)
  deriving DecidableEq, Repr

/-- The cycle's observed value: DB7..DB0 in BUS8, DB7..DB4 in BUS4 (40_bus_transport.md R406). -/
def sampleCycle (mode : BusMode) (lvl : RoleMap (Option Bool)) : BusCycle :=
  match mode with
  | .bus8 => ⟨lvl.rs, lvl.rnw, [lvl.db7, lvl.db6, lvl.db5, lvl.db4, lvl.db3, lvl.db2, lvl.db1, lvl.db0]⟩
  | .bus4 => ⟨lvl.rs, lvl.rnw, [lvl.db7, lvl.db6, lvl.db5, lvl.db4]⟩

/-- What the observer sees of the trace, in order. -/
inductive Observed where
  /-- E rises: one bus cycle. -/
  | cycle (c : BusCycle)
  /-- E is driven low. -/
  | strobeLow
  | clk (role : LineRole) (line : GpioLine)
  | out (role : LineRole) (line : GpioLine)
  | dly (units : Nat)
  deriving DecidableEq, Repr

/-- The levels after some events (10_state.md R110: derived from the trace). -/
def levelsAfter (lvl : RoleMap (Option Bool)) : List Event → RoleMap (Option Bool)
  | [] => lvl
  | .drv role _ v :: rest => levelsAfter (roleSet lvl role (some v)) rest
  | .clk _ _ :: rest => levelsAfter lvl rest
  | .out _ _ :: rest => levelsAfter lvl rest
  | .dly _ :: rest => levelsAfter lvl rest

/-- The line configurations after some events (10_state.md R110: derived from the trace). -/
def configsAfter (cfg : RoleMap LineConfig) : List Event → RoleMap LineConfig
  | [] => cfg
  | .out role _ :: rest => configsAfter (roleSet cfg role .output) rest
  | .drv _ _ _ :: rest => configsAfter cfg rest
  | .clk _ _ :: rest => configsAfter cfg rest
  | .dly _ :: rest => configsAfter cfg rest

/-- One drive as the observer sees it: a rise of E samples the levels, a fall of E is seen, other drives are seen in the samples. -/
def observeDrive (mode : BusMode) (lvl : RoleMap (Option Bool)) (role : LineRole) (v : Bool) : List Observed :=
  if role = .e then (if v then [.cycle (sampleCycle mode lvl)] else [.strobeLow]) else []

/-- What is seen of some events, from the levels before them. -/
def observe (mode : BusMode) (lvl : RoleMap (Option Bool)) : List Event → List Observed
  | [] => []
  | .drv role _ v :: rest =>
    observeDrive mode lvl role v ++ observe mode (roleSet lvl role (some v)) rest
  | .clk role line :: rest => .clk role line :: observe mode lvl rest
  | .out role line :: rest => .out role line :: observe mode lvl rest
  | .dly n :: rest => .dly n :: observe mode lvl rest

/-- The bus cycles among what is seen. -/
def cyclesSeen : List Observed → List BusCycle
  | [] => []
  | .cycle c :: rest => c :: cyclesSeen rest
  | .strobeLow :: rest => cyclesSeen rest
  | .clk _ _ :: rest => cyclesSeen rest
  | .out _ _ :: rest => cyclesSeen rest
  | .dly _ :: rest => cyclesSeen rest

/-- The delay units some events request (70_reset_and_hazards.md R820). -/
def requestedUnits : List Event → Nat
  | [] => 0
  | .dly n :: rest => n + requestedUnits rest
  | .drv _ _ _ :: rest => requestedUnits rest
  | .clk _ _ :: rest => requestedUnits rest
  | .out _ _ :: rest => requestedUnits rest

/-- The time some events ask for, in nominal milliseconds: the sum of their units, each of `UNIT` (70_reset_and_hazards.md R820; log 16).
How much time passes is the delay primitive's. -/
def requestedMilliseconds (evs : List Event) : Nat := requestedUnits evs * Config.unitMilliseconds

end Sys2Proof.Machine
end

