-- ==== Sys2Proof/Safety.lean ====
section
/-! DEFINITION. The terms claims are stated in: what a bus word looks like to an observer (30_encoding.md R302), the closed form of the
cursor translation (41_addressing.md R465), what a text sends (43_text.md R570), and the invariants of a run (10_state.md R106, R110,
R112). Every number here is written out from the spec, not taken from the machine. -/

namespace Sys2Proof.Machine

/-! ### Bus words and bus cycles -/

/-- A bus word `{isData, 0, byte}` (30_encoding.md R300). -/
structure BusWord where
  isData : Bool
  byte   : Byte
  deriving DecidableEq, Repr

/-- `CMD b` (30_encoding.md R342). -/
def cmdWord (b : Byte) : BusWord := ⟨false, b⟩

/-- `DAT b` (30_encoding.md R342). -/
def datWord (b : Byte) : BusWord := ⟨true, b⟩

/-- `CYC rs 0 b` of a BUS8 cycle (20_memory.md R210). -/
def byteCycle (rs : Bool) (b : Byte) : BusCycle :=
  ⟨some rs, some false, [some (b.getLsbD 7), some (b.getLsbD 6), some (b.getLsbD 5), some (b.getLsbD 4),
    some (b.getLsbD 3), some (b.getLsbD 2), some (b.getLsbD 1), some (b.getLsbD 0)]⟩

/-- `CYC rs 0 n` of a BUS4 cycle: nibble bit 3 on DB7 (20_memory.md R210). -/
def nibbleCycle (rs : Bool) (n : BitVec 4) : BusCycle :=
  ⟨some rs, some false, [some (n.getLsbD 3), some (n.getLsbD 2), some (n.getLsbD 1), some (n.getLsbD 0)]⟩

/-- R302: one cycle in BUS8; b[7:4] and then b[3:0] in BUS4. -/
def wordCycles : BusMode → BusWord → List BusCycle
  | .bus8, w => [byteCycle w.isData w.byte]
  | .bus4, w => [nibbleCycle w.isData (w.byte.extractLsb' 4 4), nibbleCycle w.isData (w.byte.extractLsb' 0 4)]

/-- One enable pulse as it is seen: E up, 1 unit, E down, 1 unit (40_bus_transport.md R410). -/
def strobeSeen (c : BusCycle) : List Observed := [.cycle c, .dly 1, .strobeLow, .dly 1]

/-- What is seen of some words sent one after another. -/
def wordsSeen (mode : BusMode) (ws : List BusWord) : List Observed := (ws.flatMap (wordCycles mode)).flatMap strobeSeen

/-- The levels one word leaves (40_bus_transport.md R400): in BUS4 the low nibble stays on DB7..DB4 and DB3..DB0 are not touched. -/
def levelsAfterWord (mode : BusMode) (lvl : RoleMap (Option Bool)) (w : BusWord) : RoleMap (Option Bool) :=
  match mode with
  | .bus8 =>
    { rs := some w.isData, rnw := some false, e := some false
      db7 := some (w.byte.getLsbD 7), db6 := some (w.byte.getLsbD 6), db5 := some (w.byte.getLsbD 5), db4 := some (w.byte.getLsbD 4)
      db3 := some (w.byte.getLsbD 3), db2 := some (w.byte.getLsbD 2), db1 := some (w.byte.getLsbD 1), db0 := some (w.byte.getLsbD 0) }
  | .bus4 =>
    { lvl with
      rs := some w.isData, rnw := some false, e := some false
      db7 := some (w.byte.getLsbD 3), db6 := some (w.byte.getLsbD 2), db5 := some (w.byte.getLsbD 1), db4 := some (w.byte.getLsbD 0) }

/-- The levels some words leave, sent one after another. -/
def levelsAfterWords (mode : BusMode) (ws : List BusWord) (lvl : RoleMap (Option Bool)) : RoleMap (Option Bool) :=
  ws.foldl (levelsAfterWord mode) lvl

/-- Going from `s` to `t` appended events that an observer sees as `seen`, and the levels of `t` are those the events drive. -/
def Emits (s t : State) (seen : List Observed) : Prop :=
  ∃ evs, t.trace = s.trace ++ evs ∧ observe s.mode s.lvl evs = seen ∧ t.lvl = levelsAfter s.lvl evs

/-- Going from `s` to `t` sent exactly these words, in the mode of `s`, and then what `after` says. -/
def SendsThen (s t : State) (ws : List BusWord) (after : List Observed) : Prop :=
  Emits s t (wordsSeen s.mode ws ++ after) ∧ t.lvl = levelsAfterWords s.mode ws s.lvl

/-- Going from `s` to `t` sent exactly these words, in the mode of `s`. -/
def Sends (s t : State) (ws : List BusWord) : Prop := SendsThen s t ws []

/-- A state that differs from `s` in the trace, the levels and the outcome alone: what an operation that moves no cursor keeps. -/
def KeepsAllButBus (s t : State) (outcome : OpOutcome) : Prop :=
  t = { s with trace := t.trace, lvl := t.lvl, outcome := outcome }

/-- A state that differs from `s` in the trace, the levels, the outcome and the cursor alone. -/
def KeepsAllButBusAndCursor (s t : State) (cursor : Cursor) : Prop :=
  t = { s with trace := t.trace, lvl := t.lvl, outcome := .done, cursor := cursor }

/-! ### The rows of spec/opcode_table.json -/

/-- A host operation (30_encoding.md R330). -/
def isHostOp (i : Instr) : Bool := decide ((encode i).format = .hostOp)

/-- The bus word of a BW10 row (30_encoding.md R310, R315). -/
def busWordOf : Instr → Option BusWord
  | .cmdClear => some (cmdWord 0x01)
  | .cmdHome => some (cmdWord 0x02)
  | .cmdEntryMode increment shift => some (cmdWord (0x04 ||| (if shift then 0x01 else 0) ||| (if increment then 0x02 else 0)))
  | .cmdDisplayControl displayOn showCursor cursorBlink =>
    some (cmdWord (0x08 ||| (if cursorBlink then 0x01 else 0) ||| (if showCursor then 0x02 else 0) ||| (if displayOn then 0x04 else 0)))
  | .cmdShift shiftDisplay shiftRight =>
    some (cmdWord (0x10 ||| (if shiftDisplay then 0x08 else 0) ||| (if shiftRight then 0x04 else 0)))
  | .cmdFunctionSet bus8 lines2 bigFont =>
    some (cmdWord (0x20 ||| (if bigFont then 0x04 else 0) ||| (if lines2 then 0x08 else 0) ||| (if bus8 then 0x10 else 0)))
  | .cmdSetCgram addr => some (cmdWord (0x40 ||| (addr &&& 0x3F)))
  | .cmdSetDdram addr => some (cmdWord (0x80 ||| (addr &&& 0x7F)))
  | .data byte => some (datWord byte)
  | _ => none

/-- The request of a bus word in the model's bytes. -/
def requestOfWord (w : BusWord) : Request := ⟨.bw10, [w.byte, if w.isData then 2 else 0]⟩

/-! ### The cursor translation, in closed form (41_addressing.md R465) -/

/-- The position after the end-of-line wrap. -/
def wrapped (w c r : Nat) : Nat × Nat := if w ≤ c then (0, r + 1) else (c, r)

/-- R465: the new cursor. -/
def movedTo (w c r : Nat) : Nat × Nat :=
  if (wrapped w c r).2 ≤ 1 then wrapped w c r else (0, 0)

/-- R465: the word sent. -/
def movedWord (w c r : Nat) : Byte :=
  if (wrapped w c r).2 = 0 then 0x80 ||| BitVec.ofNat 8 ((wrapped w c r).1 % 128)
  else if (wrapped w c r).2 = 1 then 0x80 ||| BitVec.ofNat 8 (((wrapped w c r).1 + 0x40) % 128)
  else 0x80

/-- The wrap computed modulo 256 (41_addressing.md R463 a). -/
def wrapped8 (w c r : Byte) : Byte × Byte := if w.toNat ≤ c.toNat then (0, r + 1) else (c, r)

/-- The new cursor computed modulo 256 (41_addressing.md R463). -/
def movedTo8 (w c r : Byte) : Cursor :=
  if (wrapped8 w c r).2.toNat ≤ 1 then ⟨(wrapped8 w c r).1, (wrapped8 w c r).2⟩ else ⟨0, 0⟩

/-- The word sent, its address computed modulo 256 (41_addressing.md R463 b). -/
def movedWord8 (w c r : Byte) : Byte :=
  if (wrapped8 w c r).2 = 0 then 0x80 ||| ((wrapped8 w c r).1 &&& 0x7F)
  else if (wrapped8 w c r).2 = 1 then 0x80 ||| (((wrapped8 w c r).1 + 0x40) &&& 0x7F)
  else 0x80

/-- A position as the cursor holds it. -/
def cursorAt (p : Nat × Nat) : Cursor := ⟨BitVec.ofNat 8 p.1, BitVec.ofNat 8 p.2⟩

/-! ### Text (43_text.md R550, R570) -/

/-- `remap(c)` (00_scope.md R21). -/
def remapped (c : Byte) : Byte := if Config.remapEnabled then Config.remap c else c

/-- The bytes of a text that are emitted: before the first 0x00, at most 80. -/
def keptText (text : List Byte) : List Byte := (text.takeWhile (fun c => c != 0x00)).take 80

/-- The words the bytes of a text send from a position, and the position they leave. -/
def textRun (w : Nat) : Nat × Nat → List Byte → List BusWord × (Nat × Nat)
  | p, [] => ([], p)
  | p, c :: rest =>
    if c = 0x0A then
      let next := textRun w (movedTo w 0 (p.2 + 1)) rest
      (cmdWord (movedWord w 0 (p.2 + 1)) :: next.1, next.2)
    else
      let next := textRun w (movedTo w (p.1 + 1) p.2) rest
      (datWord (remapped c) :: cmdWord (movedWord w (p.1 + 1) p.2) :: next.1, next.2)

/-- The number of drawn bytes, `n` of 43_text.md R581. -/
def drawnCount (text : List Byte) : Nat := (keptText text).countP (fun c => c != 0x0A)

/-- The number of newline bytes, `k` of 43_text.md R581. -/
def newlineCount (text : List Byte) : Nat := (keptText text).countP (fun c => c == 0x0A)

/-! ### Events of one bus cycle (40_bus_transport.md R405, R410) -/

/-- One drive for each pair, in the order of the list. -/
def drivesOf (bus : BusDescriptor) (pairs : List (LineRole × Bool)) : List Event :=
  pairs.map fun p => .drv p.1 (roleGet bus p.1) p.2

/-- The four events of a pulse. -/
def strobeEvents (bus : BusDescriptor) : List Event := [.drv .e bus.e true, .dly 1, .drv .e bus.e false, .dly 1]

/-! ### INIT (44_init_status.md) -/

/-- The roles INIT uses, in its order (R600). -/
def initRoles (bus8 : Bool) : List LineRole :=
  [.rs, .e, .rnw, .db7, .db6, .db5, .db4] ++ (if bus8 then [.db3, .db2, .db1, .db0] else [])

/-- The three events of one line (R603). -/
def lineEvents (bus : BusDescriptor) (role : LineRole) : List Event :=
  [.clk role (roleGet bus role), .drv role (roleGet bus role) false, .out role (roleGet bus role)]

/-- The first of some roles whose port is not valid, with the roles before it (R608). -/
def firstBadPort (bus : BusDescriptor) : List LineRole → Option (List LineRole × LineRole)
  | [] => none
  | role :: rest =>
    if Config.portValid (roleGet bus role).port then
      (firstBadPort bus rest).map fun p => (role :: p.1, p.2)
    else some ([], role)

/-- The six words of step 5 (R606). -/
def initWordList (lineCount : Byte) : List BusWord :=
  [cmdWord (if 1 < lineCount.toNat then 0x28 else 0x20), cmdWord 0x0C, cmdWord 0x06, cmdWord 0x10, cmdWord 0x01, cmdWord 0x02]

/-- The priming nibbles (R604): none in BUS8. -/
def initNibbles (bus8 : Bool) : List (BitVec 4) := if bus8 then [] else [0x3, 0x3, 0x3, 0x2]

/-- What is seen of steps 3 to 5 (R604 to R606). -/
def initSeen (bus8 : Bool) (lineCount : Byte) : List Observed :=
  .dly 40 ::
    ((if bus8 then []
      else
        strobeSeen (nibbleCycle false 0x3) ++ [.dly 15] ++ strobeSeen (nibbleCycle false 0x3) ++ [.dly 15] ++
        strobeSeen (nibbleCycle false 0x3) ++ [.dly 15] ++ strobeSeen (nibbleCycle false 0x2)) ++
      wordsSeen (modeOf bus8) (initWordList lineCount) ++ [.dly 2])

/-! ### Rules about every event list -/

/-- Nothing is driven, clocked or configured while E is high, E never rises twice, and E ends low (70_reset_and_hazards.md R824);
`high` says whether E is high before the events. -/
def strobesClean (high : Bool) : List Event → Bool
  | [] => !high
  | .drv role _ v :: rest =>
    if role = .e then (!(high && v)) && strobesClean v rest else !high && strobesClean high rest
  | .clk _ _ :: rest => !high && strobesClean high rest
  | .out _ _ :: rest => !high && strobesClean high rest
  | .dly _ :: rest => strobesClean high rest

/-- The event addresses the line the bus descriptor gives its role (10_state.md R104). -/
def onBus (bus : BusDescriptor) : Event → Bool
  | .clk role line => decide (line = roleGet bus role)
  | .drv role line _ => decide (line = roleGet bus role)
  | .out role line => decide (line = roleGet bus role)
  | .dly _ => true

/-- The role an event names, if any. -/
def eventRole : Event → Option LineRole
  | .clk role _ => some role
  | .drv role _ _ => some role
  | .out role _ => some role
  | .dly _ => none

/-- An answer handed to a further operation: a stop stops the sequence (30_encoding.md R341). -/
def andThen (a : Host.Outcome State Fault Refusal) (k : State → Host.Outcome State Fault Refusal) :
    Host.Outcome State Fault Refusal :=
  match a with
  | .next t => k t
  | .fault r => .fault r
  | .refused r => .refused r

/-- The state a refused call leaves: that call taken, the reason in the outcome, nothing else changed (60_exceptions.md R722). -/
def afterRefusal (s : State) (rest : List Request) (r : Refusal) : State := { s with calls := rest, outcome := .refused r }

/-- What a step does with an instruction's answer: a refusal returns to the caller with the state unchanged (60_exceptions.md R722). -/
def answered (s : State) (a : Host.Outcome State Fault Refusal) : Host.Outcome State Fault Refusal :=
  match a with
  | .next t => .next t
  | .fault f => .fault f
  | .refused r => .next { s with outcome := .refused r }

/-- The host operation is refused with NOT_INITIALIZED before INIT (10_state.md R107). -/
def RefusedBeforeInit (i : Instr) : Prop := ∀ s : State, s.life = .uninit → exec i s = .refused .notInitialized

/-- INIT, whatever its arguments. -/
def isInit : Instr → Bool
  | .init _ _ _ _ _ => true
  | _ => false

/-- The event drives RNW high, which no rule does (40_bus_transport.md R402). -/
def raisesRnw : Event → Bool
  | .drv .rnw _ v => v
  | _ => false

/-- A delay amount of the table of 70_reset_and_hazards.md R822. -/
def delayInTable : Event → Bool
  | .dly n => n == 1 || n == 2 || n == 15 || n == 40
  | _ => true

/-- R840: the units one operation requests; INIT's are those of a Done INIT (44_init_status.md R610). The rows of bus words and lone
nibbles are 40_bus_transport.md R432. -/
def unitsOf (mode : BusMode) (i : Instr) : Nat :=
  let word := match mode with | .bus8 => 2 | .bus4 => 4
  match i with
  | .nibPrime3 | .nibPrime2 => 2
  | .home => word + 2
  | .putChar _ => 2 * word
  | .putCharAt _ _ _ => 3 * word
  | .formatted text => (2 * drawnCount text + newlineCount text) * word
  | .formattedAt _ _ text => (1 + 2 * drawnCount text + newlineCount text) * word
  | .defineChar _ _ size => (1 + size.toNat) * word
  | .isBusy => 1
  | .init _ _ _ _ _ => match mode with | .bus8 => 54 | .bus4 => 119
  | _ => word

/-! ### Invariants of a run -/

/-- R106: in READY the cursor is inside the cursor space. -/
def CursorInRange (s : State) : Prop :=
  s.life = .ready → s.cursor.col.toNat < s.width.toNat ∧ s.cursor.row.toNat < 2

/-- R112: in READY, between operations, E and RNW are low; and every used line is configured and driven (44_init_status.md R603). -/
def LinesIdle (s : State) : Prop :=
  s.life = .ready →
    s.lvl.e = some false ∧ s.lvl.rnw = some false ∧
      ∀ role ∈ usedRoles s.mode, roleGet s.lvl role ≠ none ∧ roleGet s.cfg role = .output

/-- R110: the levels and configurations are those the trace's events leave. -/
def LinesFromTrace (s : State) : Prop :=
  s.lvl = levelsAfter State.reset.lvl s.trace ∧ s.cfg = configsAfter State.reset.cfg s.trace

/-- R104, R608: in READY the used lines are distinct and their ports valid, since INIT accepted them. -/
def BusAccepted (s : State) : Prop :=
  s.life = .ready →
    ((usedRoles s.mode).map (roleGet s.bus)).Nodup ∧ ∀ role ∈ usedRoles s.mode, Config.portValid (roleGet s.bus role).port = true

/-- R608, R710: in HALTED the outcome names the role being clocked, whose port is not valid, and its `Clk` is the last event. -/
def HaltRecorded (s : State) : Prop :=
  s.life = .halted →
    ∃ role ∈ usedRoles s.mode, s.outcome = .halted .badPort role ∧ Config.portValid (roleGet s.bus role).port = false ∧
      s.trace.getLast? = some (.clk role (roleGet s.bus role))

/-- R402: no event of the trace drives RNW high. -/
def NeverReads (s : State) : Prop := ∀ ev ∈ s.trace, raisesRnw ev = false

end Sys2Proof.Machine
end

