-- ==== Sys2Proof/Certificates/Slice0/Obligations.lean ====
section
/-! DEFINITION. The statements for the provers. Each says which rules of the spec it formalises. The OPEN parameters of the spec are
opaque, so every statement holds for every value of them. -/

open Sys2Proof Sys2Proof.Machine

/-! ### Encoding -/

/-- Decoding the encoding of any well-formed instruction gives it back (30_encoding.md R310, R315, R303, R330; operand bytes log 3). -/
def Obligations.DecodeOfEncodeIsTheInstruction : Prop :=
  ∀ i : Instr, i.wf = true → decode (encode i) = .ok i

/-- Every request that decodes is the encoding of the one instruction it decodes to, which is well-formed. -/
def Obligations.EveryDecodedRequestIsItsEncoding : Prop :=
  ∀ (q : Request) (i : Instr), decode q = .ok i → i.wf = true ∧ encode i = q

/-- Words written out from 30_encoding.md R310, R315, R303 and R330 decode to the instructions they stand for. The bytes they are laid
out in are the model's choice: a bus word is two bytes, DB7..DB0 first (log 5), and a call is its tag and then its operand bytes
(log 3). -/
def Obligations.WordsWrittenOutFromTheTableDecode : Prop :=
  decode ⟨.bw10, [0x01, 0]⟩ = .ok .cmdClear ∧
  decode ⟨.bw10, [0x06, 0]⟩ = .ok (.cmdEntryMode true false) ∧
  decode ⟨.bw10, [0x0C, 0]⟩ = .ok (.cmdDisplayControl true false false) ∧
  decode ⟨.bw10, [0x14, 0]⟩ = .ok (.cmdShift false true) ∧
  decode ⟨.bw10, [0x28, 0]⟩ = .ok (.cmdFunctionSet false true false) ∧
  decode ⟨.bw10, [0x7F, 0]⟩ = .ok (.cmdSetCgram 0x3F) ∧
  decode ⟨.bw10, [0xC0, 0]⟩ = .ok (.cmdSetDdram 0x40) ∧
  decode ⟨.bw10, [0xA5, 2]⟩ = .ok (.data 0xA5) ∧
  decode ⟨.nib6, [0x03]⟩ = .ok .nibPrime3 ∧
  decode ⟨.hostOp, [0x02]⟩ = .ok .home ∧
  decode ⟨.hostOp, [0x09, 0x41]⟩ = .ok (.putChar 0x41) ∧
  decode ⟨.hostOp, [0x0E]⟩ = .ok .isBusy

/-- R321: a 10-bit word that matches a row's (match, mask) pair decodes to that row with its operand bits. The spec marks this
rule as its own inference (derived). -/
def Obligations.BusWordsDecodeByMatchAndMask : Prop :=
  ∀ w : BitVec 10,
    (w = 0x001 → decode (wordRequest w) = .ok .cmdClear) ∧
    (w = 0x002 → decode (wordRequest w) = .ok .cmdHome) ∧
    (w &&& 0x3FC = 0x004 → decode (wordRequest w) = .ok (.cmdEntryMode (w.getLsbD 1) (w.getLsbD 0))) ∧
    (w &&& 0x3F8 = 0x008 → decode (wordRequest w) = .ok (.cmdDisplayControl (w.getLsbD 2) (w.getLsbD 1) (w.getLsbD 0))) ∧
    (w &&& 0x3F3 = 0x010 → decode (wordRequest w) = .ok (.cmdShift (w.getLsbD 3) (w.getLsbD 2))) ∧
    (w &&& 0x3E3 = 0x020 → decode (wordRequest w) = .ok (.cmdFunctionSet (w.getLsbD 4) (w.getLsbD 3) (w.getLsbD 2))) ∧
    (w &&& 0x3C0 = 0x040 → decode (wordRequest w) = .ok (.cmdSetCgram (w.setWidth 8 &&& 0x3F))) ∧
    (w &&& 0x380 = 0x080 → decode (wordRequest w) = .ok (.cmdSetDdram (w.setWidth 8 &&& 0x7F))) ∧
    (w &&& 0x300 = 0x200 → decode (wordRequest w) = .ok (.data (w.setWidth 8)))

/-- R322: the words the decoder rejects as "not emitted by this engine" are those with RNW = 1 and the RS = 0 words 0x00, 0x03
and 0x11..0x3F with bits 1:0 not 0. The spec marks this rule as its own inference (derived). -/
def Obligations.NeverSentWordsAreRejected : Prop :=
  ∀ w : BitVec 10,
    decode (wordRequest w) = .error .notEmitted ↔
      (w.getLsbD 8 = true ∨
        (w.getLsbD 9 = false ∧
          ((w.setWidth 8).toNat = 0x00 ∨ (w.setWidth 8).toNat = 0x03 ∨
            (0x11 ≤ (w.setWidth 8).toNat ∧ (w.setWidth 8).toNat ≤ 0x3F ∧ (w.setWidth 8).toNat % 4 ≠ 0))))

/-- The command words of R518: what the builders of R500 to R514 give over all operand values, and how many they are. The spec
marks this rule as its own inference (derived). -/
def Obligations.CommandBuildersGiveExactly218Words : Prop :=
  (∀ b : Byte,
    (b = Config.opClear ∨ b = Config.opHome ∨ (∃ increment shift, b = entryModeWord increment shift) ∨
        (∃ displayOn showCursor cursorBlink, b = displayControlWord displayOn showCursor cursorBlink) ∨
        (∃ shiftDisplay shiftRight, b = shiftWord shiftDisplay shiftRight) ∨
        (∃ bus8 lineCount bigFont, b = functionSetWord bus8 (twoLines lineCount) bigFont) ∨
        (∃ addr, b = setCgramWord addr) ∨ (∃ addr : Nat, b = setDdramWord addr)) ↔
      (b = 0x01 ∨ b = 0x02 ∨ (0x04 ≤ b.toNat ∧ b.toNat ≤ 0x0F) ∨
        (0x10 ≤ b.toNat ∧ b.toNat ≤ 0x3C ∧ b.toNat % 4 = 0) ∨ 0x40 ≤ b.toNat)) ∧
  (((List.range 256).filter fun n => n == 0x01 || n == 0x02 || (decide (0x04 ≤ n) && decide (n ≤ 0x0F)) ||
    (decide (0x10 ≤ n) && decide (n ≤ 0x3C) && n % 4 == 0) || decide (0x40 ≤ n)).length = 218)

/-- A bus word's instruction encodes to the request of the word R310 and R315 give it. -/
def Obligations.BusWordEncodingIsTheWordSent : Prop :=
  ∀ (i : Instr) (w : BusWord), i.wf = true → busWordOf i = some w → encode i = requestOfWord w

/-! ### Steps -/

/-- A step runs the instruction its next pending call decodes to, on the state with that call taken, and hands a refusal back to the
caller (60_exceptions.md R722, log 8); a request that is no call is refused by name; with no call pending the engine waits, and in
HALTED it is stuck (logs 1, 2). A tag that names no operation is UnusedTagsAreBadOpcodes. -/
def Obligations.StepRunsTheDecodedCall : Prop :=
  ∀ s : State,
    (∀ q rest i, s.calls = q :: rest → decode q = .ok i → step s = answered { s with calls := rest } (exec i { s with calls := rest })) ∧
    (∀ q rest err, s.calls = q :: rest → decode q = .error err → (∀ tag, err ≠ .badOpcode tag) → step s = .refused (refusalOf err)) ∧
    (s.calls = [] → s.life ≠ .halted → step s = .next s) ∧
    (s.calls = [] → s.life = .halted → step s = .fault .engineHalted)

/-- The very next step after placing a table word runs the instruction the decoder reads from it (log 5), and hands a refusal back to
the caller (60_exceptions.md R722, log 8). -/
def Obligations.PlacedTableWordRunsNext : Prop :=
  ∀ (s : State) (nbits w : Nat) (i : Instr), decodeTableWord nbits w = some i →
    step (s.withFetchWord nbits w) = answered s (exec i s)

/-- R702: the checks of a call, in order: the tag, then HALTED, NOT_INITIALIZED, BAD_WIDTH, LINE_ALIAS, SHORT_PATTERN. A refused call
returns with the state unchanged (R722); that the reason stands in `outcome`, and that nothing returns in HALTED, are logs 8 and 9. -/
def Obligations.ChecksRunInTheOrderOfTheSpec : Prop :=
  ∀ (s : State) (q : Request) (rest : List Request), s.calls = q :: rest →
    (∀ tag args, q = ⟨.hostOp, tag :: args⟩ → (tag = 0x0F ∨ 0x13 ≤ tag.toNat) →
      (s.life ≠ .halted → step s = .next (afterRefusal s rest (.badOpcode tag))) ∧
      (s.life = .halted → step s = .refused (.badOpcode tag))) ∧
    (∀ i, decode q = .ok i → s.life = .halted → step s = .fault .engineHalted) ∧
    (∀ i, decode q = .ok i → isHostOp i = true → isInit i = false → s.life = .uninit →
      step s = .next (afterRefusal s rest .notInitialized)) ∧
    (∀ bus bus8 lineCount bigFont, decode q = .ok (.init bus 0 bus8 lineCount bigFont) → s.life ≠ .halted →
      step s = .next (afterRefusal s rest .badWidth)) ∧
    (∀ bus width bus8 lineCount bigFont, decode q = .ok (.init bus width bus8 lineCount bigFont) → s.life ≠ .halted →
      width ≠ 0 → ¬ ((initRoles bus8).map (roleGet bus)).Nodup → step s = .next (afterRefusal s rest .lineAlias)) ∧
    (∀ addr pattern size, decode q = .ok (.defineChar addr pattern size) → s.life = .ready →
      pattern.length < size.toNat → step s = .next (afterRefusal s rest .shortPattern))

/-- R331: tags 0x0F and 0x13..0xFF, and no other, are refused with BAD_OPCODE, in every state: outside HALTED the call returns with
the state unchanged (60_exceptions.md R722, log 8), in HALTED nothing returns (log 9). -/
def Obligations.UnusedTagsAreBadOpcodes : Prop :=
  ∀ (s : State) (tag : Byte) (args : List Byte) (rest : List Request), s.calls = ⟨.hostOp, tag :: args⟩ :: rest →
    (s.life ≠ .halted → (step s = .next (afterRefusal s rest (.badOpcode tag)) ↔ (tag = 0x0F ∨ 0x13 ≤ tag.toNat))) ∧
    (s.life = .halted → (step s = .refused (.badOpcode tag) ↔ (tag = 0x0F ∨ 0x13 ≤ tag.toNat)))

/-! ### Stops -/

/-- Outside HALTED an instruction is refused for exactly the reasons of R700's table, and in HALTED never. The reasons are the
spec's decisions D3, D6, D7 and D16; that a step hands them back to the caller is RefusedCallsReturnToTheCaller. -/
def Obligations.RefusalsAreExactlyTheTable : Prop :=
  ∀ (i : Instr) (s : State) (r : Refusal),
    exec i s = .refused r ↔
      (isHostOp i = true ∧ isInit i = false ∧ s.life = .uninit ∧ r = .notInitialized) ∨
      (∃ bus width bus8 lineCount bigFont, i = .init bus width bus8 lineCount bigFont ∧ s.life ≠ .halted ∧
        ((width = 0 ∧ r = .badWidth) ∨
          (width ≠ 0 ∧ ¬ ((initRoles bus8).map (roleGet bus)).Nodup ∧ r = .lineAlias))) ∨
      (∃ addr pattern size, i = .defineChar addr pattern size ∧ s.life = .ready ∧ pattern.length < size.toNat ∧
        r = .shortPattern)

/-- R711: in HALTED no instruction has a step; and only HALTED is stuck. That HALTED is entered as a next state is log 9. -/
def Obligations.OnlyHaltedIsStuck : Prop :=
  ∀ (i : Instr) (s : State) (f : Fault), exec i s = .fault f ↔ (s.life = .halted ∧ f = .engineHalted)

/-- 60_exceptions.md R700, R722: outside HALTED a refused call returns to the caller with the state unchanged and no event; a step
that reports a refusal did nothing else; and the reason is one of R700's table. That the outcome stands in State is logs 8 and 10. -/
def Obligations.RefusedCallsReturnToTheCaller : Prop :=
  ∀ (s : State) (q : Request) (rest : List Request), s.calls = q :: rest → s.life ≠ .halted →
    (∀ i r, decode q = .ok i → exec i { s with calls := rest } = .refused r → step s = .next (afterRefusal s rest r)) ∧
    (∀ tag, decode q = .error (.badOpcode tag) → step s = .next (afterRefusal s rest (.badOpcode tag))) ∧
    (∀ t r, step s = .next t → t.outcome = .refused r →
      t = afterRefusal s rest r ∧ (r ∈ [Refusal.notInitialized, .badWidth, .lineAlias, .shortPattern] ∨ ∃ tag, r = .badOpcode tag))

/-! ### The bus-cycle sequencer -/

/-- WRITE (40_bus_transport.md R431, R400): refused before INIT; then the word, nothing else, and the cursor as it was. -/
def Obligations.WriteSendsItsByte : Prop :=
  ∀ (isData : Bool) (byte : Byte),
    RefusedBeforeInit (.write isData byte) ∧
    ∀ s : State, s.life = .ready →
      ∃ t, exec (.write isData byte) s = .next t ∧ Sends s t [⟨isData, byte⟩] ∧ KeepsAllButBus s t .done

/-- The events of a write (40_bus_transport.md R400 to R405, R410): in each setup phase one drive of each line, in some order, and
then the four events of the pulse. -/
def Obligations.WriteDrivesEachLineOnceThenPulses : Prop :=
  ∀ (isData : Bool) (b : Byte) (s : State), s.life = .ready →
    ∃ t, exec (.write isData b) s = .next t ∧
      (s.mode = .bus8 →
        ∃ qs : List (LineRole × Bool),
          qs.Perm [(.rnw, false), (.rs, isData), (.db7, b.getLsbD 7), (.db6, b.getLsbD 6), (.db5, b.getLsbD 5),
            (.db4, b.getLsbD 4), (.db3, b.getLsbD 3), (.db2, b.getLsbD 2), (.db1, b.getLsbD 1), (.db0, b.getLsbD 0)] ∧
          t.trace = s.trace ++ drivesOf s.bus qs ++ strobeEvents s.bus) ∧
      (s.mode = .bus4 →
        ∃ high low : List (LineRole × Bool),
          high.Perm [(.rnw, false), (.rs, isData), (.db7, b.getLsbD 7), (.db6, b.getLsbD 6), (.db5, b.getLsbD 5),
            (.db4, b.getLsbD 4)] ∧
          low.Perm [(.db7, b.getLsbD 3), (.db6, b.getLsbD 2), (.db5, b.getLsbD 1), (.db4, b.getLsbD 0)] ∧
          t.trace = s.trace ++ drivesOf s.bus high ++ strobeEvents s.bus ++ drivesOf s.bus low ++ strobeEvents s.bus)

/-- The nine BW10 rows CMD_CLEAR, CMD_HOME, CMD_ENTRY_MODE, CMD_DISPLAY_CONTROL, CMD_SHIFT, CMD_FUNCTION_SET, CMD_SET_CGRAM,
CMD_SET_DDRAM and DATA (30_encoding.md R302, R310, R315): outside HALTED the word is put on the bus and nothing else changes. That a
word of the sequencer runs on its own, and before INIT too, is the model's reading, log 6. -/
def Obligations.BusWordsArePutOnTheBus : Prop :=
  ∀ (i : Instr) (w : BusWord) (s : State), busWordOf i = some w → s.life ≠ .halted →
    ∃ t, exec i s = .next t ∧ Sends s t [w] ∧ KeepsAllButBus s t .done

/-- NIB_PRIME_3 and NIB_PRIME_2 (40_bus_transport.md R420, 30_encoding.md R303): outside HALTED one pulse with the nibble on
DB7..DB4 and RS and RNW as they were, so with both low the cycle `CYC 0 0 n`; nothing else changes. That a priming nibble runs
on its own is the model's reading, log 6. That RS and RNW are not driven again is the spec's decision D9 (log 20). -/
def Obligations.PrimingNibblesPulseOnce : Prop :=
  ∀ (i : Instr) (n : BitVec 4) (s : State), (i, n) ∈ [(Instr.nibPrime3, (0x3 : BitVec 4)), (Instr.nibPrime2, 0x2)] →
    s.life ≠ .halted →
    ∃ t, exec i s = .next t ∧ KeepsAllButBus s t .done ∧
      t.lvl = { s.lvl with
        e := some false, db7 := some (n.getLsbD 3), db6 := some (n.getLsbD 2), db5 := some (n.getLsbD 1),
        db4 := some (n.getLsbD 0) } ∧
      Emits s t (strobeSeen (sampleCycle s.mode t.lvl)) ∧
      (s.mode = .bus4 → s.lvl.rs = some false → s.lvl.rnw = some false → Emits s t (strobeSeen (nibbleCycle false n)))

/-- R432: events, cycles and requested units of a write and of a lone nibble. The spec marks this rule as its own inference
(derived). -/
def Obligations.EventCountsPerWrite : Prop :=
  ∀ (i : Instr) (s t : State), exec i s = .next t →
    ((∃ isData b, i = .write isData b) ∨ (∃ w, busWordOf i = some w) →
      ∃ evs, t.trace = s.trace ++ evs ∧
        (s.mode = .bus8 → evs.length = 14 ∧ (cyclesSeen (observe s.mode s.lvl evs)).length = 1 ∧ requestedUnits evs = 2) ∧
        (s.mode = .bus4 → evs.length = 18 ∧ (cyclesSeen (observe s.mode s.lvl evs)).length = 2 ∧ requestedUnits evs = 4)) ∧
    ((i = .nibPrime3 ∨ i = .nibPrime2) →
      ∃ evs, t.trace = s.trace ++ evs ∧ evs.length = 8 ∧ (cyclesSeen (observe s.mode s.lvl evs)).length = 1 ∧
        requestedUnits evs = 2)

/-- R406: what is seen of one bus cycle does not depend on the order of its setup phase's drives, and the cycle's value is the levels
those drives leave. -/
def Obligations.SetupOrderCannotBeSeen : Prop :=
  ∀ (mode : BusMode) (bus : BusDescriptor) (lvl : RoleMap (Option Bool)) (ps qs : List (LineRole × Bool)),
    (ps.map Prod.fst).Nodup → LineRole.e ∉ ps.map Prod.fst → qs.Perm ps →
    observe mode lvl (drivesOf bus qs ++ strobeEvents bus) =
      strobeSeen (sampleCycle mode (ps.foldl (fun m p => roleSet m p.1 (some p.2)) lvl))

/-! ### The DDRAM address translator -/

/-- MOVE_TO (41_addressing.md R461, R450, R465): refused before INIT; then the cursor and the one word of the closed form, and nothing
else. -/
def Obligations.MoveToFollowsTheClosedForm : Prop :=
  ∀ col row : Byte,
    RefusedBeforeInit (.moveTo col row) ∧
    ∀ s : State, s.life = .ready →
      ∃ t, exec (.moveTo col row) s = .next t ∧
        Sends s t [cmdWord (movedWord s.width.toNat col.toNat row.toNat)] ∧
        KeepsAllButBusAndCursor s t (cursorAt (movedTo s.width.toNat col.toNat row.toNat))

/-- NEWLINE (41_addressing.md R460): refused before INIT; from row 0 to (0, 1) with 0xC0, from row 1 to (0, 0) with 0x80, in general
`MoveTo(0, row + 1)`; nothing else. -/
def Obligations.NewlineGoesToTheNextRowsStart : Prop :=
  RefusedBeforeInit .newline ∧
  ∀ s : State, s.life = .ready →
    ∃ t, exec .newline s = .next t ∧
      Sends s t [cmdWord (movedWord s.width.toNat 0 (s.cursor.row.toNat + 1))] ∧
      KeepsAllButBusAndCursor s t (cursorAt (movedTo s.width.toNat 0 (s.cursor.row.toNat + 1))) ∧
      (0 < s.width.toNat → s.cursor.row = 0 → t.cursor = ⟨0, 1⟩ ∧ Sends s t [cmdWord 0xC0]) ∧
      (0 < s.width.toNat → s.cursor.row = 1 → t.cursor = ⟨0, 0⟩ ∧ Sends s t [cmdWord 0x80])

/-- R462: after any MoveTo with a width of at least 1, at any naturals, the cursor is inside the cursor space; and so after
MOVE_TO. The spec marks this rule as its own inference (derived). -/
def Obligations.MoveToEstablishesTheCursorInvariant : Prop :=
  (∀ (col row : Nat) (s : State), 1 ≤ s.width.toNat →
    (moveCursor col row s).cursor.col.toNat < (moveCursor col row s).width.toNat ∧
      ((moveCursor col row s).cursor.row.toNat = 0 ∨ (moveCursor col row s).cursor.row.toNat = 1)) ∧
  ∀ (col row : Byte) (s : State), s.life = .ready → 1 ≤ s.width.toNat →
    ∃ t, exec (.moveTo col row) s = .next t ∧ t.cursor.col.toNat < t.width.toNat ∧
      (t.cursor.row.toNat = 0 ∨ t.cursor.row.toNat = 1)

/-- R463: the results are the same when `r + 1` and `c + base` are computed modulo 256; in the cursor space `col + 1` and `row
+ 1` do not overflow, and `c + base` is at most 0x13E. The spec marks this rule as its own inference (derived). -/
def Obligations.ByteArithmeticGivesTheSameMove : Prop :=
  (∀ (col row : Byte) (s : State), s.life = .ready →
    ∃ t, exec (.moveTo col row) s = .next t ∧ t.cursor = movedTo8 s.width col row ∧
      Sends s t [cmdWord (movedWord8 s.width col row)]) ∧
  (∀ s : State, s.life = .ready → CursorInRange s →
    s.cursor.col.toNat + 1 ≤ s.width.toNat ∧ s.width.toNat ≤ 255 ∧ s.cursor.row.toNat + 1 ≤ 2) ∧
  (∀ width col : Byte, col.toNat < width.toNat → col.toNat + 0x40 ≤ 0x13E)

/-- R466: columns at and beyond 0x40 keep their column in the cursor and send the address the mask leaves. The spec marks this
rule as its own inference (derived). -/
def Obligations.WideDisplaysAreNotClamped : Prop :=
  ∀ (col row : Byte) (s : State), s.life = .ready → col.toNat < s.width.toNat → row.toNat < 2 →
    ∃ t, exec (.moveTo col row) s = .next t ∧ t.cursor = ⟨col, row⟩ ∧
      (row = 0 → 0x40 ≤ col.toNat → col.toNat ≤ 0x7F →
        Sends s t [cmdWord (BitVec.ofNat 8 (0x80 + col.toNat))] ∧
        ∀ u : State, u.life = .ready → u.mode = s.mode → u.lvl = s.lvl → col.toNat - 0x40 < u.width.toNat →
          ∃ v, exec (.moveTo (col - 0x40) 1) u = .next v ∧ Sends u v [cmdWord (BitVec.ofNat 8 (0x80 + col.toNat))]) ∧
      (row = 0 → 0x80 ≤ col.toNat → Sends s t [cmdWord (BitVec.ofNat 8 (0x80 + (col.toNat - 0x80)))]) ∧
      (row = 1 → 0x40 ≤ col.toNat → col.toNat < 0xC0 → Sends s t [cmdWord (BitVec.ofNat 8 (0x80 + (col.toNat - 0x40)))] ∧
        (col.toNat < 0x80 → col.toNat - 0x40 ≤ 0x3F)) ∧
      (row = 1 → 0xC0 ≤ col.toNat → Sends s t [cmdWord (BitVec.ofNat 8 (0x80 + (col.toNat - 0xC0)))])

/-! ### The command builder -/

/-- CLEAR (42_commands.md R500): refused before INIT; then the cursor at (0, 0) and the word 0x01, with no settle delay. -/
def Obligations.ClearResetsTheCursorAndSends01 : Prop :=
  RefusedBeforeInit .clear ∧
  ∀ s : State, s.life = .ready →
    ∃ t, exec .clear s = .next t ∧ Sends s t [cmdWord 0x01] ∧ KeepsAllButBusAndCursor s t ⟨0, 0⟩

/-- HOME (42_commands.md R501): refused before INIT; then the cursor at (0, 0), the word 0x02 and a delay of 2 units. That the
engine itself requests this delay is the spec's decision D12 (log 21). -/
def Obligations.HomeResetsTheCursorAndSettles : Prop :=
  RefusedBeforeInit .home ∧
  ∀ s : State, s.life = .ready →
    ∃ t, exec .home s = .next t ∧ SendsThen s t [cmdWord 0x02] [.dly 2] ∧ KeepsAllButBusAndCursor s t ⟨0, 0⟩

/-- ENTRY_MODE_SET, DISPLAY_CONTROL and CURSOR_CONTROL (42_commands.md R502, R503, R504): refused before INIT; then the one word of
the flags, and nothing else. -/
def Obligations.FlagCommandsSendTheirWord : Prop :=
  (∀ increment shift : Bool,
    RefusedBeforeInit (.entryModeSet increment shift) ∧
    ∀ s : State, s.life = .ready →
      ∃ t, exec (.entryModeSet increment shift) s = .next t ∧
        Sends s t [cmdWord (0x04 ||| (if shift then 0x01 else 0) ||| (if increment then 0x02 else 0))] ∧
        KeepsAllButBus s t .done) ∧
  (∀ displayOn showCursor cursorBlink : Bool,
    RefusedBeforeInit (.displayControl displayOn showCursor cursorBlink) ∧
    ∀ s : State, s.life = .ready →
      ∃ t, exec (.displayControl displayOn showCursor cursorBlink) s = .next t ∧
        Sends s t [cmdWord (0x08 ||| (if cursorBlink then 0x01 else 0) ||| (if showCursor then 0x02 else 0) |||
          (if displayOn then 0x04 else 0))] ∧
        KeepsAllButBus s t .done) ∧
  (∀ shiftDisplay shiftRight : Bool,
    RefusedBeforeInit (.cursorControl shiftDisplay shiftRight) ∧
    ∀ s : State, s.life = .ready →
      ∃ t, exec (.cursorControl shiftDisplay shiftRight) s = .next t ∧
        Sends s t [cmdWord (0x10 ||| (if shiftDisplay then 0x08 else 0) ||| (if shiftRight then 0x04 else 0))] ∧
        KeepsAllButBus s t .done)

/-- FUNCTION_SET (42_commands.md R505): refused before INIT; then the one word, with N set exactly for lineCount 2..255; the mode and
everything else as they were. -/
def Obligations.FunctionSetSendsItsWordAndKeepsTheMode : Prop :=
  ∀ (bus8 : Bool) (lineCount : Byte) (bigFont : Bool),
    RefusedBeforeInit (.functionSet bus8 lineCount bigFont) ∧
    ∀ s : State, s.life = .ready →
      ∃ t, exec (.functionSet bus8 lineCount bigFont) s = .next t ∧
        Sends s t [cmdWord (0x20 ||| (if bigFont then 0x04 else 0) ||| (if 1 < lineCount.toNat then 0x08 else 0) |||
          (if bus8 then 0x10 else 0))] ∧
        KeepsAllButBus s t .done

/-- SET_CGRAM_ADDRESS and SET_DDRAM_ADDRESS (42_commands.md R506, R507, R513, R514): refused before INIT; then the one word
with the address masked to 6 and 7 bits; the cursor and everything else as they were. That they leave the cursor is the spec's
decision D17 (log 23). -/
def Obligations.AddressCommandsMaskAndKeepTheCursor : Prop :=
  ∀ addr : Byte,
    (RefusedBeforeInit (.setCgramAddress addr) ∧
      ∀ s : State, s.life = .ready →
        ∃ t, exec (.setCgramAddress addr) s = .next t ∧
          Sends s t [cmdWord (BitVec.ofNat 8 (0x40 + addr.toNat % 64))] ∧ KeepsAllButBus s t .done) ∧
    (RefusedBeforeInit (.setDdramAddress addr) ∧
      ∀ s : State, s.life = .ready →
        ∃ t, exec (.setDdramAddress addr) s = .next t ∧
          Sends s t [cmdWord (BitVec.ofNat 8 (0x80 + addr.toNat % 128))] ∧ KeepsAllButBus s t .done)

/-- R517: the six commands that are no positioning leave the cursor unchanged. This is the spec's decision D17 (log 23). -/
def Obligations.NonPositioningCommandsKeepTheCursor : Prop :=
  ∀ s : State, s.life = .ready →
    (∀ increment shift, ∃ t, exec (.entryModeSet increment shift) s = .next t ∧ t.cursor = s.cursor) ∧
    (∀ displayOn showCursor cursorBlink,
      ∃ t, exec (.displayControl displayOn showCursor cursorBlink) s = .next t ∧ t.cursor = s.cursor) ∧
    (∀ shiftDisplay shiftRight, ∃ t, exec (.cursorControl shiftDisplay shiftRight) s = .next t ∧ t.cursor = s.cursor) ∧
    (∀ bus8 lineCount bigFont, ∃ t, exec (.functionSet bus8 lineCount bigFont) s = .next t ∧ t.cursor = s.cursor) ∧
    (∀ addr, ∃ t, exec (.setCgramAddress addr) s = .next t ∧ t.cursor = s.cursor) ∧
    (∀ addr, ∃ t, exec (.setDdramAddress addr) s = .next t ∧ t.cursor = s.cursor)

/-! ### Characters -/

/-- PUT_CHAR (43_text.md R550): refused before INIT; then the remapped code as data and the word of the next position, and the cursor
there; nothing else. Holds for every remap. -/
def Obligations.PutCharSendsTheCodeAndAdvances : Prop :=
  ∀ code : Byte,
    RefusedBeforeInit (.putChar code) ∧
    ∀ s : State, s.life = .ready →
      ∃ t, exec (.putChar code) s = .next t ∧
        Sends s t [datWord (remapped code),
          cmdWord (movedWord s.width.toNat (s.cursor.col.toNat + 1) s.cursor.row.toNat)] ∧
        KeepsAllButBusAndCursor s t (cursorAt (movedTo s.width.toNat (s.cursor.col.toNat + 1) s.cursor.row.toNat))

/-- PUT_CHAR_AT (43_text.md R551): refused before INIT; then the position's word, the remapped code, the next position's word. For
col < width and row 0 or 1 the cursor is as R551 lists it (row 0's own value is the spec's decision D18, log 23); for row 2 and more it
ends at (1, 0), as R551 says, when the width is over 1. At width 1 R551's corner disagrees with the pseudocode of R551 and R450, which
wraps (1, 0) to (0, 1); the model follows R450 (log 26). -/
def Obligations.PutCharAtMovesDrawsAndAdvances : Prop :=
  ∀ col row code : Byte,
    RefusedBeforeInit (.putCharAt col row code) ∧
    ∀ s : State, s.life = .ready →
      ∃ t, exec (.putCharAt col row code) s = .next t ∧
        (let p := movedTo s.width.toNat col.toNat row.toNat
         Sends s t [cmdWord (movedWord s.width.toNat col.toNat row.toNat), datWord (remapped code),
            cmdWord (movedWord s.width.toNat (p.1 + 1) p.2)] ∧
          KeepsAllButBusAndCursor s t (cursorAt (movedTo s.width.toNat (p.1 + 1) p.2))) ∧
        (col.toNat < s.width.toNat → row.toNat < 2 →
          (col.toNat + 1 < s.width.toNat → t.cursor = ⟨col + 1, row⟩) ∧
          (col.toNat + 1 = s.width.toNat → row = 0 → t.cursor = ⟨0, 1⟩) ∧
          (col.toNat + 1 = s.width.toNat → row = 1 → t.cursor = ⟨0, 0⟩)) ∧
        (2 ≤ row.toNat → 1 < s.width.toNat → t.cursor = ⟨1, 0⟩) ∧
        (2 ≤ row.toNat → s.width.toNat = 1 → t.cursor = ⟨0, 1⟩)

/-- FORMATTED (43_text.md R570): refused before INIT; then, byte by byte of the kept text, a newline's word or a drawn
character's two words, and the cursor where they lead; nothing else. That a text ends at its first 0x00 is the spec's decision
D15 (log 22). -/
def Obligations.FormattedSendsItsTextByteByByte : Prop :=
  ∀ text : List Byte,
    RefusedBeforeInit (.formatted text) ∧
    ∀ s : State, s.life = .ready →
      ∃ t, exec (.formatted text) s = .next t ∧
        (let run := textRun s.width.toNat (s.cursor.col.toNat, s.cursor.row.toNat) (keptText text)
         Sends s t run.1 ∧ KeepsAllButBusAndCursor s t (cursorAt run.2))

/-- FORMATTED_AT (43_text.md R571, R570): refused before INIT; then the position's word, even for an empty text, and the kept text from
there. That a text ends at its first 0x00 and after 80 bytes is the spec's decision D15 (log 22). -/
def Obligations.FormattedAtMovesThenSendsItsText : Prop :=
  ∀ (col row : Byte) (text : List Byte),
    RefusedBeforeInit (.formattedAt col row text) ∧
    ∀ s : State, s.life = .ready →
      ∃ t, exec (.formattedAt col row text) s = .next t ∧
        (let run := textRun s.width.toNat (movedTo s.width.toNat col.toNat row.toNat) (keptText text)
         Sends s t (cmdWord (movedWord s.width.toNat col.toNat row.toNat) :: run.1) ∧
          KeepsAllButBusAndCursor s t (cursorAt run.2))

/-- 43_text.md R570: only the bytes before the first 0x00, and of those the first 80, matter; and an empty text changes
nothing the host or the bus can see. That a text ends at its first 0x00 is the spec's decision D15 (log 22). -/
def Obligations.TextBeyondTheCapIsDropped : Prop :=
  (∀ (text : List Byte) (s : State), exec (.formatted text) s = exec (.formatted (keptText text)) s) ∧
  (∀ (text more : List Byte) (s : State), text.length = 80 → 0x00 ∉ text →
    exec (.formatted (text ++ more)) s = exec (.formatted text) s) ∧
  (∀ (text more : List Byte) (s : State), 0x00 ∉ text →
    exec (.formatted (text ++ 0x00 :: more)) s = exec (.formatted text) s) ∧
  (∀ s : State, s.life = .ready → exec (.formatted []) s = .next { s with outcome := .done })

/-- DEFINE_CHAR (43_text.md R580): refused before INIT, and for a pattern shorter than size; else the CGRAM address word and
the first `size` pattern bytes as data, none remapped; the cursor and everything else as they were. The plain address and the
refusal are the spec's decision D16 (log 22). -/
def Obligations.DefineCharStreamsItsPattern : Prop :=
  ∀ (addr : Byte) (pattern : List Byte) (size : Byte),
    RefusedBeforeInit (.defineChar addr pattern size) ∧
    ∀ s : State, s.life = .ready →
      (pattern.length < size.toNat → exec (.defineChar addr pattern size) s = .refused .shortPattern) ∧
      (size.toNat ≤ pattern.length →
        ∃ t, exec (.defineChar addr pattern size) s = .next t ∧
          Sends s t (cmdWord (BitVec.ofNat 8 (0x40 + addr.toNat % 64)) :: (pattern.take size.toNat).map datWord) ∧
          KeepsAllButBus s t .done)

/-- 30_encoding.md R341: PUT_CHAR_AT, FORMATTED_AT and NEWLINE are their expansions; NEWLINE's row is a byte, so in the cursor space. -/
def Obligations.PseudoOperationsAreTheirExpansions : Prop :=
  (∀ (col row code : Byte) (s : State),
    exec (.putCharAt col row code) s = andThen (exec (.moveTo col row) s) (exec (.putChar code))) ∧
  (∀ (col row : Byte) (text : List Byte) (s : State),
    exec (.formattedAt col row text) s = andThen (exec (.moveTo col row) s) (exec (.formatted text))) ∧
  (∀ s : State, CursorInRange s → exec .newline s = exec (.moveTo 0 (s.cursor.row + 1)) s)

/-! ### INIT and the busy stub -/

/-- INIT once accepted (44_init_status.md R600 to R608, 60_exceptions.md R710). With every used port valid: each line clocked, driven
low and configured in order, then what steps 3 to 5 show, and READY. With a first bad port: the lines before it, its `Clk`, and HALTED.
Which of the two holds is the platform's (PORT_VALID, free; log 14). That the halt is a next state is log 9; the order of lines and
actions and the `Clk` of the bad port are the spec's decisions D19 and D20 (log 23). -/
def Obligations.InitRunsItsStepsOrHalts : Prop :=
  ∀ (bus : BusDescriptor) (width : Byte) (bus8 : Bool) (lineCount : Byte) (bigFont : Bool) (s : State),
    s.life ≠ .halted → width ≠ 0 → ((initRoles bus8).map (roleGet bus)).Nodup →
    ∃ t, exec (.init bus width bus8 lineCount bigFont) s = .next t ∧
      t.mode = modeOf bus8 ∧ t.width = width ∧ t.bus = bus ∧ t.cursor = ⟨0, 0⟩ ∧ t.calls = s.calls ∧
      match firstBadPort bus (initRoles bus8) with
      | none =>
        t.life = .ready ∧ t.outcome = .done ∧
        (∃ rest, t.trace = s.trace ++ (initRoles bus8).flatMap (lineEvents bus) ++ rest ∧
          observe (modeOf bus8) (levelsAfter s.lvl ((initRoles bus8).flatMap (lineEvents bus))) rest = initSeen bus8 lineCount ∧
          t.lvl = levelsAfter s.lvl ((initRoles bus8).flatMap (lineEvents bus) ++ rest)) ∧
        ∀ role, roleGet t.cfg role = if role ∈ initRoles bus8 then .output else roleGet s.cfg role
      | some (before, role) =>
        t.life = .halted ∧ t.outcome = .halted .badPort role ∧
        t.trace = s.trace ++ before.flatMap (lineEvents bus) ++ [.clk role (roleGet bus role)] ∧
        (∀ r, roleGet t.lvl r = if r ∈ before then some false else roleGet s.lvl r) ∧
        ∀ r, roleGet t.cfg r = if r ∈ before then .output else roleGet s.cfg r

/-- R607: after a Done INIT, READY, the cursor at (0, 0), RS, RNW and E low, and the home word's bits on the data lines: 0x02
on DB7..DB0 in BUS8, its low nibble on DB7..DB4 in BUS4. The spec marks this rule as its own inference (derived). -/
def Obligations.InitLeavesTheHomeWordOnTheLines : Prop :=
  ∀ (bus : BusDescriptor) (width : Byte) (bus8 : Bool) (lineCount : Byte) (bigFont : Bool) (s : State),
    s.life ≠ .halted → width ≠ 0 → ((initRoles bus8).map (roleGet bus)).Nodup →
    ∃ t, exec (.init bus width bus8 lineCount bigFont) s = .next t ∧
      (firstBadPort bus (initRoles bus8) = none →
        t.life = .ready ∧ t.cursor = ⟨0, 0⟩ ∧ t.lvl.e = some false ∧ t.lvl.rnw = some false ∧ t.lvl.rs = some false ∧
        (bus8 = true →
          [t.lvl.db7, t.lvl.db6, t.lvl.db5, t.lvl.db4, t.lvl.db3, t.lvl.db2, t.lvl.db1, t.lvl.db0] =
            [some false, some false, some false, some false, some false, some false, some true, some false]) ∧
        (bus8 = false →
          [t.lvl.db7, t.lvl.db6, t.lvl.db5, t.lvl.db4] = [some false, some false, some true, some false]))

/-- R610: events, cycles and requested units of a Done INIT. The spec marks this rule as its own inference (derived). -/
def Obligations.InitTotals : Prop :=
  ∀ (bus : BusDescriptor) (width : Byte) (bus8 : Bool) (lineCount : Byte) (bigFont : Bool) (s : State),
    s.life ≠ .halted → width ≠ 0 → ((initRoles bus8).map (roleGet bus)).Nodup →
    ∃ t, exec (.init bus width bus8 lineCount bigFont) s = .next t ∧
      (firstBadPort bus (initRoles bus8) = none →
        ∃ evs, t.trace = s.trace ++ evs ∧
          (bus8 = true → evs.length = 119 ∧ (cyclesSeen (observe t.mode s.lvl evs)).length = 6 ∧ requestedUnits evs = 54) ∧
          (bus8 = false → evs.length = 166 ∧ (cyclesSeen (observe t.mode s.lvl evs)).length = 16 ∧ requestedUnits evs = 119))

/-- R601, R606: `bigFont` changes nothing, and `lineCount` only through `lineCount > 1`. -/
def Obligations.InitReadsOnlyTwoLinesOfItsFormat : Prop :=
  ∀ (bus : BusDescriptor) (width : Byte) (bus8 : Bool) (lineCount other : Byte) (bigFont bigFont' : Bool) (s : State),
    (1 < lineCount.toNat ↔ 1 < other.toNat) →
    exec (.init bus width bus8 lineCount bigFont) s = exec (.init bus width bus8 other bigFont') s

/-- IS_BUSY (44_init_status.md R650): refused before INIT; then one event `Dly(1)`, the stub's Boolean, and nothing else. Holds for
both values of the Boolean. -/
def Obligations.IsBusyDelaysOnceAndReturnsTheStub : Prop :=
  RefusedBeforeInit .isBusy ∧
  ∀ s : State, s.life = .ready →
    exec .isBusy s = .next { s with trace := s.trace ++ [.dly 1], outcome := .doneBool Config.busyStubResult }

/-! ### Rules about every instruction -/

/-- Only INIT writes the mode, the width, the bus descriptor, the lifecycle and the line configurations (10_state.md R102, R103, R104,
R107, R131); no instruction but a step's own taking of a call changes the pending calls. -/
def Obligations.OnlyInitReconfigures : Prop :=
  ∀ (i : Instr) (s t : State), exec i s = .next t →
    t.calls = s.calls ∧ s.life ≠ .halted ∧
    (isInit i = false → t.life = s.life ∧ t.mode = s.mode ∧ t.width = s.width ∧ t.bus = s.bus ∧ t.cfg = s.cfg)

/-- 10_state.md R105, R131: the cursor is written only by INIT, CLEAR, HOME and the operations that call MoveTo. -/
def Obligations.OnlyPositioningOperationsMoveTheCursor : Prop :=
  ∀ (i : Instr) (s t : State), exec i s = .next t → t.cursor ≠ s.cursor →
    isInit i = true ∨ i = .clear ∨ i = .home ∨ i = .newline ∨ (∃ col row, i = .moveTo col row) ∨ (∃ code, i = .putChar code) ∨
      (∃ col row code, i = .putCharAt col row code) ∨ (∃ text, i = .formatted text) ∨
      (∃ col row text, i = .formattedAt col row text)

/-- 10_state.md R111: every step appends to the trace and removes nothing. -/
def Obligations.TheTraceOnlyGrows : Prop :=
  ∀ s t : State, step s = .next t → ∃ evs, t.trace = s.trace ++ evs

/-- 10_state.md R104: every event an instruction appends addresses the line the bus descriptor gives its role, and names only used
roles. -/
def Obligations.EveryCallAddressesTheBusDescriptor : Prop :=
  ∀ (i : Instr) (s t : State), exec i s = .next t →
    ∃ evs, t.trace = s.trace ++ evs ∧
      ∀ ev ∈ evs, onBus t.bus ev = true ∧ ∀ role, eventRole ev = some role → role ∈ usedRoles t.mode

/-- 70_reset_and_hazards.md R824: nothing is driven while E is high, each rise of E is followed by its fall, and E ends low. -/
def Obligations.NothingIsDrivenWhileEIsHigh : Prop :=
  ∀ (i : Instr) (s t : State), exec i s = .next t →
    ∃ evs, t.trace = s.trace ++ evs ∧ strobesClean false evs = true

/-- 10_state.md R114: in BUS4 the roles DB3..DB0 are never clocked, configured or driven, keep their level and configuration, and are
no part of a cycle's observation. -/
def Obligations.FourBitModeNeverTouchesTheLowLines : Prop :=
  (∀ (i : Instr) (s t : State), exec i s = .next t → t.mode = .bus4 →
    ∃ evs, t.trace = s.trace ++ evs ∧
      ∀ role ∈ [LineRole.db3, .db2, .db1, .db0],
        roleGet t.lvl role = roleGet s.lvl role ∧ roleGet t.cfg role = roleGet s.cfg role ∧
          ∀ ev ∈ evs, eventRole ev ≠ some role) ∧
  (∀ (lvl : RoleMap (Option Bool)) (v3 v2 v1 v0 : Option Bool),
    sampleCycle .bus4 { lvl with db3 := v3, db2 := v2, db1 := v1, db0 := v0 } = sampleCycle .bus4 lvl)

/-- 70_reset_and_hazards.md R822: every delay requested is one of the table's amounts. -/
def Obligations.OnlyTheTablesDelaysAreRequested : Prop :=
  ∀ (i : Instr) (s t : State), exec i s = .next t →
    ∃ evs, t.trace = s.trace ++ evs ∧ ∀ ev ∈ evs, delayInTable ev = true

/-- 70_reset_and_hazards.md R840: the units each operation requests. The spec marks this rule as its own inference (derived). -/
def Obligations.RequestedUnitsFollowTheTable : Prop :=
  ∀ (i : Instr) (s t : State), exec i s = .next t → t.life ≠ .halted →
    ∃ evs, t.trace = s.trace ++ evs ∧ requestedUnits evs = unitsOf t.mode i

/-- 30_encoding.md R322, R323, 42_commands.md R518: what a host operation other than INIT and WRITE sends is a sequence of words, each
one of the table's, and no further bus cycle; and the cycles of an INIT that is Done are the priming nibbles, each a row of the table,
and then those of its six words, each one of the table's. An INIT that halts sends none. WRITE sends any byte, also those R322 lists
(R431, log 18), so it is left out. -/
def Obligations.HostOperationsSendOnlyTableWords : Prop :=
  (∀ (i : Instr) (s t : State), isHostOp i = true → isInit i = false → (∀ isData byte, i ≠ .write isData byte) →
    exec i s = .next t →
    ∃ ws after, SendsThen s t ws after ∧ cyclesSeen after = [] ∧ ∀ w ∈ ws, ∃ j, decode (requestOfWord w) = .ok j) ∧
  (∀ (bus : BusDescriptor) (width : Byte) (bus8 : Bool) (lineCount : Byte) (bigFont : Bool) (s t : State),
    exec (.init bus width bus8 lineCount bigFont) s = .next t →
    (∀ n ∈ initNibbles bus8, ∃ j, decode ⟨.nib6, [n.setWidth 8]⟩ = .ok j) ∧
    (∀ w ∈ initWordList lineCount, ∃ j, decode (requestOfWord w) = .ok j) ∧
    ∃ evs, t.trace = s.trace ++ evs ∧
      cyclesSeen (observe t.mode s.lvl evs) =
        if t.life = .halted then []
        else (initNibbles bus8).map (nibbleCycle false) ++ (initWordList lineCount).flatMap (wordCycles t.mode))

/-! ### Invariants -/

/-- R106: every step keeps the cursor in the cursor space. The spec marks this rule as its own inference (derived). -/
def Obligations.StepsKeepTheCursorInRange : Prop :=
  ∀ s t : State, CursorInRange s → step s = .next t → CursorInRange t

/-- R112: every step leaves E and RNW low in READY, and every used line driven and configured. The spec marks this rule as its
own inference (derived). -/
def Obligations.StepsLeaveTheLinesIdle : Prop :=
  ∀ s t : State, LinesIdle s → step s = .next t → LinesIdle t

/-- R110: after every step the levels and configurations are those the trace's events leave. -/
def Obligations.LevelsAndConfigurationsFollowTheTrace : Prop :=
  ∀ s t : State, LinesFromTrace s → step s = .next t → LinesFromTrace t

/-- 10_state.md R104, 44_init_status.md R608: READY is reached, and left in place, only with distinct used lines of valid ports. -/
def Obligations.ReadyMeansTheBusWasAccepted : Prop :=
  ∀ s t : State, BusAccepted s → step s = .next t → BusAccepted t

/-- 60_exceptions.md R710: HALTED is reached only right after the `Clk` of a line whose port is not valid, and says which. -/
def Obligations.HaltedMeansABadPortWasClocked : Prop :=
  ∀ s t : State, HaltRecorded s → step s = .next t → HaltRecorded t

/-- 40_bus_transport.md R402: no step drives RNW high. -/
def Obligations.StepsNeverEnterReadMode : Prop :=
  ∀ s t : State, NeverReads s → step s = .next t → NeverReads t

/-- Every invariant above holds at power-on. -/
def Obligations.PowerOnMeetsTheInvariants : Prop :=
  CursorInRange State.reset ∧ LinesIdle State.reset ∧ LinesFromTrace State.reset ∧ BusAccepted State.reset ∧
    HaltRecorded State.reset ∧ NeverReads State.reset

/-- 10_state.md R130, what the spec states of the power-on state: UNINIT, every level ⊥, every line UNCONF, no event. -/
def Obligations.PowerOnStateIsUninitialized : Prop :=
  core.reset = State.reset ∧ State.reset.life = .uninit ∧ State.reset.trace = [] ∧
    ∀ role, roleGet State.reset.lvl role = none ∧ roleGet State.reset.cfg role = .unconf
end

