-- ==== Sys2Proof/Laws/Decode.lean ====
section
/-! SUPPORT. Laws of the operand readers: each reads back what the encoder lays down, and what it reads is what the encoder would have
laid down. -/

namespace Sys2Proof

@[simp] theorem takeByte_cons (b : Byte) (rest : List Byte) : takeByte (b :: rest) = .ok (b, rest) := rfl

@[simp] theorem takeBool_boolByte (b : Bool) (rest : List Byte) : takeBool (boolByte b :: rest) = .ok (b, rest) := by
  cases b <;> rfl

@[simp] theorem takeList_listBytes (bs rest : List Byte) : takeList (listBytes bs ++ rest) = .ok (bs, rest) := by
  induction bs with
  | nil => cases rest <;> rfl
  | cons b bs ih => simp [listBytes, takeList, ih]

@[simp] theorem takeList_listBytes_nil (bs : List Byte) : takeList (listBytes bs) = .ok (bs, []) := by
  simpa using takeList_listBytes bs []

@[simp] theorem takeLine_lineBytes (l : GpioLine) (rest : List Byte) : takeLine (lineBytes l ++ rest) = .ok (l, rest) := rfl

@[simp] theorem takeBus_busBytes (m : BusDescriptor) (rest : List Byte) : takeBus (busBytes m ++ rest) = .ok (m, rest) := rfl

theorem takeByte_ok {bytes rest : List Byte} {b : Byte} (h : takeByte bytes = .ok (b, rest)) : bytes = b :: rest := by
  cases bytes with
  | nil => simp [takeByte] at h
  | cons c cs => simp only [takeByte, Except.ok.injEq, Prod.mk.injEq] at h; rw [h.1, h.2]

theorem takeBool_ok {bytes rest : List Byte} {b : Bool} (h : takeBool bytes = .ok (b, rest)) :
    bytes = boolByte b :: rest := by
  cases bytes with
  | nil => simp [takeBool] at h
  | cons c cs =>
    simp only [takeBool] at h
    split at h
    · rename_i zero
      simp only [Except.ok.injEq, Prod.mk.injEq] at h
      rw [← h.1, ← h.2, zero]; rfl
    · split at h
      · rename_i one
        simp only [Except.ok.injEq, Prod.mk.injEq] at h
        rw [← h.1, ← h.2, one]; rfl
      · simp at h

theorem takeList_ok {bytes bs rest : List Byte} (h : takeList bytes = .ok (bs, rest)) : bytes = listBytes bs ++ rest := by
  induction bytes using takeList.induct generalizing bs with
  | case1 => simp [takeList] at h
  | case2 => simp only [takeList, if_true, Except.ok.injEq, Prod.mk.injEq] at h; rw [← h.1, ← h.2]; rfl
  | case3 => simp [takeList] at h
  | case4 m notZero notOne => simp only [takeList, if_neg notZero, if_neg notOne] at h; exact absurd h (by simp)
  | case5 b rest' => simp only [takeList, if_true, Except.ok.injEq, Prod.mk.injEq] at h; rw [← h.1, ← h.2]; rfl
  | case6 b rest' ds left found notZero ih =>
    simp only [takeList, if_neg notZero, if_true, found, Except.ok.injEq, Prod.mk.injEq] at h
    obtain ⟨rfl, rfl⟩ := h
    rw [ih found]
    rfl
  | case7 b rest' err found notZero _ =>
    simp only [takeList, if_neg notZero, if_true, found] at h
    exact absurd h (by simp)
  | case8 m b rest' notZero notOne => simp only [takeList, if_neg notZero, if_neg notOne] at h; exact absurd h (by simp)

theorem takeLine_ok {bytes rest : List Byte} {l : GpioLine} (h : takeLine bytes = .ok (l, rest)) :
    bytes = lineBytes l ++ rest := by
  unfold takeLine at h
  split at h
  · simp only [Except.ok.injEq, Prod.mk.injEq] at h; rw [← h.1, ← h.2]; rfl
  · simp at h

/-- A sequence of two readings: the first, then the rest of the work. -/
theorem Except.bind_ok {ε α β : Type} {x : Except ε α} {f : α → Except ε β} {b : β} (h : (x >>= f) = .ok b) :
    ∃ a, x = .ok a ∧ f a = .ok b := by
  cases x with
  | error e => simp [bind, Except.bind] at h
  | ok a => exact ⟨a, rfl, h⟩

theorem takeBus_ok {bytes rest : List Byte} {m : BusDescriptor} (h : takeBus bytes = .ok (m, rest)) :
    bytes = busBytes m ++ rest := by
  unfold takeBus at h
  obtain ⟨⟨l1, r1⟩, h1, h⟩ := Except.bind_ok h
  obtain ⟨⟨l2, r2⟩, h2, h⟩ := Except.bind_ok h
  obtain ⟨⟨l3, r3⟩, h3, h⟩ := Except.bind_ok h
  obtain ⟨⟨l4, r4⟩, h4, h⟩ := Except.bind_ok h
  obtain ⟨⟨l5, r5⟩, h5, h⟩ := Except.bind_ok h
  obtain ⟨⟨l6, r6⟩, h6, h⟩ := Except.bind_ok h
  obtain ⟨⟨l7, r7⟩, h7, h⟩ := Except.bind_ok h
  obtain ⟨⟨l8, r8⟩, h8, h⟩ := Except.bind_ok h
  obtain ⟨⟨l9, r9⟩, h9, h⟩ := Except.bind_ok h
  obtain ⟨⟨l10, r10⟩, h10, h⟩ := Except.bind_ok h
  obtain ⟨⟨l11, r11⟩, h11, h⟩ := Except.bind_ok h
  simp only [Except.ok.injEq, Prod.mk.injEq] at h
  obtain ⟨rfl, rfl⟩ := h
  rw [takeLine_ok h1, takeLine_ok h2, takeLine_ok h3, takeLine_ok h4, takeLine_ok h5, takeLine_ok h6, takeLine_ok h7,
    takeLine_ok h8, takeLine_ok h9, takeLine_ok h10, takeLine_ok h11]
  rfl

end Sys2Proof
end

