-- ==== Sys2Proof/Laws/Lines.lean ====
section
/-! SUPPORT. Laws of the role maps: a read after a write, and writes to different roles. -/

namespace Sys2Proof.Machine

variable {α : Type}

@[simp] theorem roleGet_roleSet_self (m : RoleMap α) (r : LineRole) (v : α) : roleGet (roleSet m r v) r = v := by
  cases r <;> rfl

@[simp] theorem roleGet_roleSet_ne (m : RoleMap α) {r q : LineRole} (v : α) (h : q ≠ r) :
    roleGet (roleSet m r v) q = roleGet m q := by
  cases r <;> cases q <;> first | rfl | exact absurd rfl h

theorem roleGet_roleSet (m : RoleMap α) (r q : LineRole) (v : α) :
    roleGet (roleSet m r v) q = if q = r then v else roleGet m q := by
  by_cases h : q = r
  · subst h; simp
  · simp [h]

/-- Two maps that agree on every role are equal. -/
theorem roleMap_ext {m n : RoleMap α} (h : ∀ r, roleGet m r = roleGet n r) : m = n := by
  cases m; cases n
  have h1 := h .rs; have h2 := h .rnw; have h3 := h .e
  have h4 := h .db7; have h5 := h .db6; have h6 := h .db5; have h7 := h .db4
  have h8 := h .db3; have h9 := h .db2; have h10 := h .db1; have h11 := h .db0
  simp only [roleGet] at h1 h2 h3 h4 h5 h6 h7 h8 h9 h10 h11
  subst h1 h2 h3 h4 h5 h6 h7 h8 h9 h10 h11
  rfl

/-- Writes to different roles commute. -/
theorem roleSet_comm (m : RoleMap α) {r q : LineRole} (v w : α) (h : r ≠ q) :
    roleSet (roleSet m r v) q w = roleSet (roleSet m q w) r v := by
  apply roleMap_ext
  intro x
  simp only [roleGet_roleSet]
  by_cases hq : x = q
  · subst hq; simp [Ne.symm h]
  · by_cases hr : x = r <;> simp [hq, hr, h]

theorem mem_usedRoles_bus8 (r : LineRole) : r ∈ usedRoles .bus8 := by cases r <;> decide

theorem lineAliased_eq_false (bus : BusDescriptor) (mode : BusMode) :
    lineAliased bus mode = false ↔ ((usedRoles mode).map (roleGet bus)).Nodup := by
  simp [lineAliased]

end Sys2Proof.Machine
end

