-- ==== Sys2Proof/Laws/State.lean ====
section
/-! SUPPORT. The field lemmas of the state's updates: for each operation over the state, what it leaves every field at. -/

namespace Sys2Proof.Machine

variable (s : State)

/-! ### Trace primitives -/

section
variable (r : LineRole) (v : Bool) (n : Nat)

@[simp] theorem clk_life : (clk r s).life = s.life := rfl
@[simp] theorem clk_mode : (clk r s).mode = s.mode := rfl
@[simp] theorem clk_width : (clk r s).width = s.width := rfl
@[simp] theorem clk_bus : (clk r s).bus = s.bus := rfl
@[simp] theorem clk_cursor : (clk r s).cursor = s.cursor := rfl
@[simp] theorem clk_lvl : (clk r s).lvl = s.lvl := rfl
@[simp] theorem clk_cfg : (clk r s).cfg = s.cfg := rfl
@[simp] theorem clk_outcome : (clk r s).outcome = s.outcome := rfl
@[simp] theorem clk_calls : (clk r s).calls = s.calls := rfl
@[simp] theorem clk_trace : (clk r s).trace = s.trace ++ [.clk r (roleGet s.bus r)] := rfl

@[simp] theorem drv_life : (drv r v s).life = s.life := rfl
@[simp] theorem drv_mode : (drv r v s).mode = s.mode := rfl
@[simp] theorem drv_width : (drv r v s).width = s.width := rfl
@[simp] theorem drv_bus : (drv r v s).bus = s.bus := rfl
@[simp] theorem drv_cursor : (drv r v s).cursor = s.cursor := rfl
@[simp] theorem drv_lvl : (drv r v s).lvl = roleSet s.lvl r (some v) := rfl
@[simp] theorem drv_cfg : (drv r v s).cfg = s.cfg := rfl
@[simp] theorem drv_outcome : (drv r v s).outcome = s.outcome := rfl
@[simp] theorem drv_calls : (drv r v s).calls = s.calls := rfl
@[simp] theorem drv_trace : (drv r v s).trace = s.trace ++ [.drv r (roleGet s.bus r) v] := rfl

@[simp] theorem out_life : (out r s).life = s.life := rfl
@[simp] theorem out_mode : (out r s).mode = s.mode := rfl
@[simp] theorem out_width : (out r s).width = s.width := rfl
@[simp] theorem out_bus : (out r s).bus = s.bus := rfl
@[simp] theorem out_cursor : (out r s).cursor = s.cursor := rfl
@[simp] theorem out_lvl : (out r s).lvl = s.lvl := rfl
@[simp] theorem out_cfg : (out r s).cfg = roleSet s.cfg r .output := rfl
@[simp] theorem out_outcome : (out r s).outcome = s.outcome := rfl
@[simp] theorem out_calls : (out r s).calls = s.calls := rfl
@[simp] theorem out_trace : (out r s).trace = s.trace ++ [.out r (roleGet s.bus r)] := rfl

@[simp] theorem dly_life : (dly n s).life = s.life := rfl
@[simp] theorem dly_mode : (dly n s).mode = s.mode := rfl
@[simp] theorem dly_width : (dly n s).width = s.width := rfl
@[simp] theorem dly_bus : (dly n s).bus = s.bus := rfl
@[simp] theorem dly_cursor : (dly n s).cursor = s.cursor := rfl
@[simp] theorem dly_lvl : (dly n s).lvl = s.lvl := rfl
@[simp] theorem dly_cfg : (dly n s).cfg = s.cfg := rfl
@[simp] theorem dly_outcome : (dly n s).outcome = s.outcome := rfl
@[simp] theorem dly_calls : (dly n s).calls = s.calls := rfl
@[simp] theorem dly_trace : (dly n s).trace = s.trace ++ [.dly n] := rfl

end

/-! ### Setup phase and pulse -/

section
variable (ph : SetupPhase) (ps : List (LineRole × Bool))

@[simp] theorem setup_life : (setup ph ps s).life = s.life := rfl
@[simp] theorem setup_mode : (setup ph ps s).mode = s.mode := rfl
@[simp] theorem setup_width : (setup ph ps s).width = s.width := rfl
@[simp] theorem setup_bus : (setup ph ps s).bus = s.bus := rfl
@[simp] theorem setup_cursor : (setup ph ps s).cursor = s.cursor := rfl
@[simp] theorem setup_lvl : (setup ph ps s).lvl = drivenLevels ps s.lvl := rfl
@[simp] theorem setup_cfg : (setup ph ps s).cfg = s.cfg := rfl
@[simp] theorem setup_outcome : (setup ph ps s).outcome = s.outcome := rfl
@[simp] theorem setup_calls : (setup ph ps s).calls = s.calls := rfl
@[simp] theorem setup_trace : (setup ph ps s).trace =
    s.trace ++ (setupOrder ph ps).map (fun p => .drv p.1 (roleGet s.bus p.1) p.2) := rfl

@[simp] theorem pulse_life : (pulse s).life = s.life := rfl
@[simp] theorem pulse_mode : (pulse s).mode = s.mode := rfl
@[simp] theorem pulse_width : (pulse s).width = s.width := rfl
@[simp] theorem pulse_bus : (pulse s).bus = s.bus := rfl
@[simp] theorem pulse_cursor : (pulse s).cursor = s.cursor := rfl
@[simp] theorem pulse_lvl : (pulse s).lvl = roleSet s.lvl .e (some false) := rfl
@[simp] theorem pulse_cfg : (pulse s).cfg = s.cfg := rfl
@[simp] theorem pulse_outcome : (pulse s).outcome = s.outcome := rfl
@[simp] theorem pulse_calls : (pulse s).calls = s.calls := rfl
@[simp] theorem pulse_trace : (pulse s).trace =
    s.trace ++ [.drv .e s.bus.e true, .dly Config.tEh, .drv .e s.bus.e false, .dly Config.tEl] := by
  simp [pulse, roleGet]

end

/-! ### Cursor -/

@[simp] theorem setCursor_life (c r : Nat) : (setCursor c r s).life = s.life := rfl
@[simp] theorem setCursor_mode (c r : Nat) : (setCursor c r s).mode = s.mode := rfl
@[simp] theorem setCursor_width (c r : Nat) : (setCursor c r s).width = s.width := rfl
@[simp] theorem setCursor_bus (c r : Nat) : (setCursor c r s).bus = s.bus := rfl
@[simp] theorem setCursor_cursor (c r : Nat) :
    (setCursor c r s).cursor = ⟨BitVec.ofNat 8 c, BitVec.ofNat 8 r⟩ := rfl
@[simp] theorem setCursor_lvl (c r : Nat) : (setCursor c r s).lvl = s.lvl := rfl
@[simp] theorem setCursor_cfg (c r : Nat) : (setCursor c r s).cfg = s.cfg := rfl
@[simp] theorem setCursor_trace (c r : Nat) : (setCursor c r s).trace = s.trace := rfl
@[simp] theorem setCursor_outcome (c r : Nat) : (setCursor c r s).outcome = s.outcome := rfl
@[simp] theorem setCursor_calls (c r : Nat) : (setCursor c r s).calls = s.calls := rfl

/-! ### INIT's records -/

section
variable (b : BusDescriptor) (w : Byte) (m : Bool)

@[simp] theorem initRecord_life : (initRecord b w m s).life = s.life := rfl
@[simp] theorem initRecord_mode : (initRecord b w m s).mode = modeOf m := rfl
@[simp] theorem initRecord_width : (initRecord b w m s).width = w := rfl
@[simp] theorem initRecord_bus : (initRecord b w m s).bus = b := rfl
@[simp] theorem initRecord_cursor : (initRecord b w m s).cursor = ⟨0, 0⟩ := rfl
@[simp] theorem initRecord_lvl : (initRecord b w m s).lvl = s.lvl := rfl
@[simp] theorem initRecord_cfg : (initRecord b w m s).cfg = s.cfg := rfl
@[simp] theorem initRecord_trace : (initRecord b w m s).trace = s.trace := rfl
@[simp] theorem initRecord_outcome : (initRecord b w m s).outcome = s.outcome := rfl
@[simp] theorem initRecord_calls : (initRecord b w m s).calls = s.calls := rfl

end

@[simp] theorem initReady_life : (initReady s).life = .ready := rfl
@[simp] theorem initReady_mode : (initReady s).mode = s.mode := rfl
@[simp] theorem initReady_width : (initReady s).width = s.width := rfl
@[simp] theorem initReady_bus : (initReady s).bus = s.bus := rfl
@[simp] theorem initReady_cursor : (initReady s).cursor = s.cursor := rfl
@[simp] theorem initReady_lvl : (initReady s).lvl = s.lvl := rfl
@[simp] theorem initReady_cfg : (initReady s).cfg = s.cfg := rfl
@[simp] theorem initReady_trace : (initReady s).trace = s.trace := rfl
@[simp] theorem initReady_calls : (initReady s).calls = s.calls := rfl

end Sys2Proof.Machine
end

