-- ==== Sys2Proof/Laws/Observe.lean ====
section
/-! SUPPORT. Laws of the observation: over appended events, over a setup phase in any order, over a pulse. -/

namespace Sys2Proof.Machine

/-! ### Appending -/

theorem levelsAfter_append (lvl : RoleMap (Option Bool)) (a b : List Event) :
    levelsAfter lvl (a ++ b) = levelsAfter (levelsAfter lvl a) b := by
  induction a generalizing lvl with
  | nil => rfl
  | cons ev a ih => cases ev <;> simp [levelsAfter, ih]

theorem configsAfter_append (cfg : RoleMap LineConfig) (a b : List Event) :
    configsAfter cfg (a ++ b) = configsAfter (configsAfter cfg a) b := by
  induction a generalizing cfg with
  | nil => rfl
  | cons ev a ih => cases ev <;> simp [configsAfter, ih]

theorem observe_append (mode : BusMode) (lvl : RoleMap (Option Bool)) (a b : List Event) :
    observe mode lvl (a ++ b) = observe mode lvl a ++ observe mode (levelsAfter lvl a) b := by
  induction a generalizing lvl with
  | nil => rfl
  | cons ev a ih => cases ev <;> simp [observe, levelsAfter, ih]

theorem requestedUnits_append (a b : List Event) : requestedUnits (a ++ b) = requestedUnits a + requestedUnits b := by
  induction a with
  | nil => simp [requestedUnits]
  | cons ev a ih => cases ev <;> simp [requestedUnits, ih, Nat.add_assoc]

theorem cyclesSeen_append (a b : List Observed) : cyclesSeen (a ++ b) = cyclesSeen a ++ cyclesSeen b := by
  induction a with
  | nil => rfl
  | cons o a ih => cases o <;> simp [cyclesSeen, ih]

/-! ### Setup phases (40_bus_transport.md R405) -/

/-- The ordered pairs are the pairs, each once. -/
theorem setupOrder_perm (ph : SetupPhase) (ps : List (LineRole × Bool)) : (setupOrder ph ps).Perm ps :=
  List.perm_insertionSort _ _

@[simp] theorem setupOrder_length (ph : SetupPhase) (ps : List (LineRole × Bool)) :
    (setupOrder ph ps).length = ps.length := (setupOrder_perm ph ps).length_eq

theorem mem_setupOrder (ph : SetupPhase) (ps : List (LineRole × Bool)) (p : LineRole × Bool) :
    p ∈ setupOrder ph ps ↔ p ∈ ps := (setupOrder_perm ph ps).mem_iff

/-- Driving pairs with no role twice leaves the same levels in every order. -/
theorem drivenLevels_perm {ps qs : List (LineRole × Bool)} (h : qs.Perm ps) (nodup : (ps.map Prod.fst).Nodup)
    (lvl : RoleMap (Option Bool)) : drivenLevels qs lvl = drivenLevels ps lvl := by
  have nodupQs : (qs.map Prod.fst).Nodup := (h.map Prod.fst).nodup_iff.mpr nodup
  apply List.Perm.foldl_eq' h
  intro p hp q hq m
  by_cases same : p.1 = q.1
  · have : p = q := List.inj_on_of_nodup_map nodupQs hp hq same
    subst this; rfl
  · exact roleSet_comm m _ _ same

/-- The drive events of some pairs. -/
def driveEvents (bus : BusDescriptor) (ps : List (LineRole × Bool)) : List Event :=
  ps.map fun p => .drv p.1 (roleGet bus p.1) p.2

theorem levelsAfter_driveEvents (bus : BusDescriptor) (ps : List (LineRole × Bool)) (lvl : RoleMap (Option Bool)) :
    levelsAfter lvl (driveEvents bus ps) = drivenLevels ps lvl := by
  induction ps generalizing lvl with
  | nil => rfl
  | cons p ps ih => simp only [driveEvents, List.map_cons, levelsAfter, drivenLevels, List.foldl_cons]; exact ih _

theorem configsAfter_driveEvents (bus : BusDescriptor) (ps : List (LineRole × Bool)) (cfg : RoleMap LineConfig) :
    configsAfter cfg (driveEvents bus ps) = cfg := by
  induction ps with
  | nil => rfl
  | cons p ps ih => simpa only [driveEvents, List.map_cons, configsAfter] using ih

/-- Drives of roles other than E are not seen. -/
theorem observe_driveEvents (mode : BusMode) (bus : BusDescriptor) (ps : List (LineRole × Bool))
    (noE : LineRole.e ∉ ps.map Prod.fst) (lvl : RoleMap (Option Bool)) : observe mode lvl (driveEvents bus ps) = [] := by
  induction ps generalizing lvl with
  | nil => rfl
  | cons p ps ih =>
    simp only [List.map_cons, List.mem_cons, not_or] at noE
    simp only [driveEvents, List.map_cons, observe, observeDrive, if_neg (Ne.symm noE.1), List.nil_append]
    exact ih noE.2 _

theorem requestedUnits_driveEvents (bus : BusDescriptor) (ps : List (LineRole × Bool)) :
    requestedUnits (driveEvents bus ps) = 0 := by
  induction ps with
  | nil => rfl
  | cons p ps ih => simpa only [driveEvents, List.map_cons, requestedUnits] using ih

/-! ### Pulses (40_bus_transport.md R410) -/

/-- The four events of a pulse. -/
def pulseEvents (bus : BusDescriptor) : List Event :=
  [.drv .e bus.e true, .dly Config.tEh, .drv .e bus.e false, .dly Config.tEl]

theorem sampleCycle_roleSet_e (mode : BusMode) (lvl : RoleMap (Option Bool)) (v : Option Bool) :
    sampleCycle mode (roleSet lvl .e v) = sampleCycle mode lvl := by cases mode <;> rfl

theorem observe_pulseEvents (mode : BusMode) (bus : BusDescriptor) (lvl : RoleMap (Option Bool)) :
    observe mode lvl (pulseEvents bus) = strobeSeen (sampleCycle mode lvl) := rfl

theorem levelsAfter_pulseEvents (bus : BusDescriptor) (lvl : RoleMap (Option Bool)) :
    levelsAfter lvl (pulseEvents bus) = roleSet lvl .e (some false) := rfl

/-! ### What a state transformer emits -/

theorem Emits.refl (s : State) : Emits s s [] := ⟨[], by simp, rfl, rfl⟩

theorem Emits.trans {s t u : State} {a b : List Observed} (h : Emits s t a) (k : Emits t u b) (mode : t.mode = s.mode) :
    Emits s u (a ++ b) := by
  obtain ⟨e1, t1, o1, l1⟩ := h
  obtain ⟨e2, t2, o2, l2⟩ := k
  refine ⟨e1 ++ e2, by simp [t2, t1], ?_, by simp [l2, l1, levelsAfter_append]⟩
  rw [observe_append, o1, ← l1, ← mode, o2]

theorem wordsSeen_append (mode : BusMode) (a b : List BusWord) : wordsSeen mode (a ++ b) = wordsSeen mode a ++ wordsSeen mode b := by
  simp [wordsSeen]

theorem levelsAfterWords_append (mode : BusMode) (a b : List BusWord) (lvl : RoleMap (Option Bool)) :
    levelsAfterWords mode (a ++ b) lvl = levelsAfterWords mode b (levelsAfterWords mode a lvl) := by
  simp [levelsAfterWords]

theorem Sends.refl (s : State) : Sends s s [] := ⟨Emits.refl s, rfl⟩

theorem Sends.thenSends {s t u : State} {a b : List BusWord} {after : List Observed} (h : Sends s t a)
    (k : SendsThen t u b after) (mode : t.mode = s.mode) : SendsThen s u (a ++ b) after := by
  obtain ⟨e1, l1⟩ := h
  obtain ⟨e2, l2⟩ := k
  rw [mode] at e2 l2
  refine ⟨?_, by rw [l2, l1, levelsAfterWords_append]⟩
  have := e1.trans e2 mode
  simpa [wordsSeen_append] using this

theorem Sends.trans {s t u : State} {a b : List BusWord} (h : Sends s t a) (k : Sends t u b) (mode : t.mode = s.mode) :
    Sends s u (a ++ b) := h.thenSends k mode

/-- Only the bus side of the states matters to what is sent. -/
theorem sendsThen_congr {s t s' t' : State} {ws : List BusWord} {after : List Observed} (h : SendsThen s t ws after)
    (m : s'.mode = s.mode) (l : s'.lvl = s.lvl) (tr : s'.trace = s.trace) (l' : t'.lvl = t.lvl) (tr' : t'.trace = t.trace) :
    SendsThen s' t' ws after := by
  simpa only [SendsThen, Emits, m, l, tr, l', tr'] using h

theorem sends_congr {s t s' t' : State} {ws : List BusWord} (h : Sends s t ws)
    (m : s'.mode = s.mode) (l : s'.lvl = s.lvl) (tr : s'.trace = s.trace) (l' : t'.lvl = t.lvl) (tr' : t'.trace = t.trace) :
    Sends s' t' ws := sendsThen_congr h m l tr l' tr'

end Sys2Proof.Machine
end

