-- ==== Sys2Proof/Laws/Ops.lean ====
section
/-! SUPPORT. One lemma for each shared operation, that says all it does: what it sends, and that it changes nothing else. -/

namespace Sys2Proof.Machine

/-- The fields no bus operation writes. -/
structure SameButBus (s t : State) : Prop where
  life    : t.life = s.life
  mode    : t.mode = s.mode
  width   : t.width = s.width
  bus     : t.bus = s.bus
  cursor  : t.cursor = s.cursor
  cfg     : t.cfg = s.cfg
  outcome : t.outcome = s.outcome
  calls   : t.calls = s.calls

theorem SameButBus.refl (s : State) : SameButBus s s := ⟨rfl, rfl, rfl, rfl, rfl, rfl, rfl, rfl⟩

theorem SameButBus.trans {s t u : State} (h : SameButBus s t) (k : SameButBus t u) : SameButBus s u :=
  ⟨k.life.trans h.life, k.mode.trans h.mode, k.width.trans h.width, k.bus.trans h.bus, k.cursor.trans h.cursor,
    k.cfg.trans h.cfg, k.outcome.trans h.outcome, k.calls.trans h.calls⟩

theorem SameButBus.eq {s t : State} (h : SameButBus s t) : t = { s with trace := t.trace, lvl := t.lvl } := by
  obtain ⟨h1, h2, h3, h4, h5, h6, h7, h8⟩ := h
  cases s; cases t
  simp only at h1 h2 h3 h4 h5 h6 h7 h8
  subst h1 h2 h3 h4 h5 h6 h7 h8
  rfl

theorem setup_sameButBus (ph : SetupPhase) (ps : List (LineRole × Bool)) (s : State) : SameButBus s (setup ph ps s) :=
  ⟨rfl, rfl, rfl, rfl, rfl, rfl, rfl, rfl⟩

theorem pulse_sameButBus (s : State) : SameButBus s (pulse s) := ⟨rfl, rfl, rfl, rfl, rfl, rfl, rfl, rfl⟩

theorem dly_sameButBus (n : Nat) (s : State) : SameButBus s (dly n s) := ⟨rfl, rfl, rfl, rfl, rfl, rfl, rfl, rfl⟩

/-- Pairs as a setup phase may hold them: no role twice, and E in none (R405). -/
def GoodPairs (ps : List (LineRole × Bool)) : Prop := (ps.map Prod.fst).Nodup ∧ LineRole.e ∉ ps.map Prod.fst

/-- A setup phase is the drives of its pairs, one after another, in some order (R405). -/
theorem setup_eq_drives (ph : SetupPhase) (ps : List (LineRole × Bool)) (nodup : (ps.map Prod.fst).Nodup) (s : State) :
    setup ph ps s = (setupOrder ph ps).foldl (fun s p => drv p.1 p.2 s) s := by
  have fold : ∀ (qs : List (LineRole × Bool)) (s : State), qs.foldl (fun s p => drv p.1 p.2 s) s =
      { s with trace := s.trace ++ driveEvents s.bus qs, lvl := drivenLevels qs s.lvl } := by
    intro qs
    induction qs with
    | nil => intro s; simp [driveEvents, drivenLevels]
    | cons q qs ih => intro s; rw [List.foldl_cons, ih]; simp [driveEvents, drivenLevels]
  rw [fold, drivenLevels_perm (setupOrder_perm ph ps) nodup]
  rfl

/-- The events of one setup phase and its pulse. -/
def cycleEvents (ph : SetupPhase) (ps : List (LineRole × Bool)) (bus : BusDescriptor) : List Event :=
  driveEvents bus (setupOrder ph ps) ++ pulseEvents bus

@[simp] theorem cycle_trace (ph : SetupPhase) (ps : List (LineRole × Bool)) (s : State) :
    (pulse (setup ph ps s)).trace = s.trace ++ cycleEvents ph ps s.bus := by
  simp [cycleEvents, driveEvents, pulseEvents]

theorem levelsAfter_cycleEvents (ph : SetupPhase) (ps : List (LineRole × Bool)) (bus : BusDescriptor)
    (nodup : (ps.map Prod.fst).Nodup) (lvl : RoleMap (Option Bool)) :
    levelsAfter lvl (cycleEvents ph ps bus) = roleSet (drivenLevels ps lvl) .e (some false) := by
  rw [cycleEvents, levelsAfter_append, levelsAfter_driveEvents, drivenLevels_perm (setupOrder_perm ph ps) nodup]
  rfl

/-- One bus cycle (R406): what is seen does not depend on the order of the drives. -/
theorem cycle_emits (ph : SetupPhase) (ps : List (LineRole × Bool)) (h : GoodPairs ps) (s : State) :
    Emits s (pulse (setup ph ps s)) (strobeSeen (sampleCycle s.mode (drivenLevels ps s.lvl))) := by
  refine ⟨cycleEvents ph ps s.bus, cycle_trace ph ps s, ?_, (levelsAfter_cycleEvents ph ps s.bus h.1 s.lvl).symm⟩
  have noE : LineRole.e ∉ (setupOrder ph ps).map Prod.fst := by
    rw [((setupOrder_perm ph ps).map Prod.fst).mem_iff]; exact h.2
  rw [cycleEvents, observe_append, observe_driveEvents _ _ _ noE, levelsAfter_driveEvents,
    drivenLevels_perm (setupOrder_perm ph ps) h.1]
  rfl

theorem goodPairs_byte (d : Bool) (b : Byte) : GoodPairs (selectPairs d ++ bytePairs b) := by
  constructor <;> simp [selectPairs, bytePairs]

theorem goodPairs_select_nibble (d : Bool) (n : BitVec 4) : GoodPairs (selectPairs d ++ nibblePairs n) := by
  constructor <;> simp [selectPairs, nibblePairs]

theorem goodPairs_nibble (n : BitVec 4) : GoodPairs (nibblePairs n) := by
  constructor <;> simp [nibblePairs]

theorem dly_emits (n : Nat) (s : State) : Emits s (dly n s) [.dly n] := ⟨[.dly n], rfl, rfl, rfl⟩

/-- The lone nibble (R420): one cycle whose RS and RNW are the levels they had. -/
theorem nibble_emits (n : BitVec 4) (s : State) :
    Emits s (nibble n s) (strobeSeen (sampleCycle s.mode (drivenLevels (nibblePairs n) s.lvl))) :=
  cycle_emits .loneNibble _ (goodPairs_nibble n) s

theorem nibble_sameButBus (n : BitVec 4) (s : State) : SameButBus s (nibble n s) :=
  (setup_sameButBus _ _ s).trans (pulse_sameButBus _)

theorem writeByte_sameButBus (d : Bool) (b : Byte) (s : State) : SameButBus s (writeByte d b s) := by
  unfold writeByte
  split
  · exact (setup_sameButBus _ _ s).trans (pulse_sameButBus _)
  · exact ((setup_sameButBus _ _ s).trans (pulse_sameButBus _)).trans ((setup_sameButBus _ _ _).trans (pulse_sameButBus _))

/-- `Write` (R400): the word, and nothing else. -/
theorem writeByte_sends (d : Bool) (b : Byte) (s : State) : Sends s (writeByte d b s) [⟨d, b⟩] := by
  unfold writeByte Sends SendsThen
  split
  · rename_i mode
    have h := cycle_emits .write8 _ (goodPairs_byte d b) s
    rw [mode] at h ⊢
    exact ⟨h, rfl⟩
  · rename_i mode
    have h := cycle_emits .write4High _ (goodPairs_select_nibble d (highNibble b)) s
    have k := cycle_emits .write4Low _ (goodPairs_nibble (lowNibble b))
      (pulse (setup .write4High (selectPairs d ++ nibblePairs (highNibble b)) s))
    have hk := h.trans k rfl
    simp only [pulse_mode, setup_mode] at hk
    rw [mode] at hk ⊢
    refine ⟨hk, ?_⟩
    simp [levelsAfterWords, levelsAfterWord, drivenLevels, selectPairs, nibblePairs, lowNibble, roleSet]

theorem sendCommand_sends (w : Byte) (s : State) : Sends s (sendCommand w s) [cmdWord w] := writeByte_sends false w s

theorem sendCommand_sameButBus (w : Byte) (s : State) : SameButBus s (sendCommand w s) := writeByte_sameButBus false w s

/-! ### The cursor -/

theorem locate_fst (w c r : Nat) : (locate w c r).1 = movedTo w c r := by
  simp only [locate, mapRow, movedTo, Config.nRows]
  have e : wrapColumn w c r = wrapped w c r := rfl
  rw [e]
  by_cases h : (wrapped w c r).2 < 2
  · simp [h, Nat.le_of_lt_succ h]
  · have : ¬ (wrapped w c r).2 ≤ 1 := by omega
    simp [h, this]

theorem setDdramWord_locate (w c r : Nat) : setDdramWord (locate w c r).2 = movedWord w c r := by
  have masked : ∀ n : Nat, setDdramWord n = 0x80 ||| BitVec.ofNat 8 (n % 128) := by
    intro n
    have low : BitVec.ofNat 8 n &&& Config.ddramMask = BitVec.ofNat 8 (n % 128) := by
      apply BitVec.eq_of_toNat_eq
      rw [BitVec.toNat_and, BitVec.toNat_ofNat, BitVec.toNat_ofNat]
      change n % 2 ^ 8 &&& 2 ^ 7 - 1 = n % 128 % 2 ^ 8
      rw [Nat.and_two_pow_sub_one_eq_mod]
      omega
    rw [setDdramWord, low]
    have lt : n % 128 < 128 := Nat.mod_lt _ (by decide)
    generalize n % 128 = m at lt
    interval_cases m <;> rfl
  have e : wrapColumn w c r = wrapped w c r := rfl
  simp only [locate, mapRow, movedWord, e]
  rcases Nat.lt_or_ge (wrapped w c r).2 2 with h | h
  · have : (wrapped w c r).2 = 0 ∨ (wrapped w c r).2 = 1 := by omega
    rcases this with h0 | h1
    · simp [h0, Config.nRows, Config.rowBase, masked]
    · simp [h1, Config.nRows, Config.rowBase, masked]
  · have h0 : (wrapped w c r).2 ≠ 0 := by omega
    have h1 : (wrapped w c r).2 ≠ 1 := by omega
    simp only [h0, h1, Config.nRows, if_neg (Nat.not_lt.mpr h), if_false, Config.rowBase]
    decide

/-- `MoveTo` (41_addressing.md R450, R465): the cursor and the one word, in closed form. -/
theorem moveCursor_spec (c r : Nat) (s : State) :
    Sends s (moveCursor c r s) [cmdWord (movedWord s.width.toNat c r)] ∧
      SameButBus { s with cursor := cursorAt (movedTo s.width.toNat c r) } (moveCursor c r s) := by
  have word : setDdramWord (locate s.width.toNat c r).2 = movedWord s.width.toNat c r := setDdramWord_locate _ _ _
  have place : setCursor (locate s.width.toNat c r).1.1 (locate s.width.toNat c r).1.2 s =
      { s with cursor := cursorAt (movedTo s.width.toNat c r) } := by rw [locate_fst]; rfl
  have e : moveCursor c r s = sendCommand (movedWord s.width.toNat c r)
      { s with cursor := cursorAt (movedTo s.width.toNat c r) } := by
    simp only [moveCursor, sendDdramAddress, word, place]
  rw [e]
  have sent := sendCommand_sends (movedWord s.width.toNat c r) { s with cursor := cursorAt (movedTo s.width.toNat c r) }
  exact ⟨sends_congr sent rfl rfl rfl rfl rfl, sendCommand_sameButBus _ _⟩

/-- The closed form lands in the cursor space of a width of at least 1 (41_addressing.md R462). -/
theorem movedTo_inRange {w : Nat} (c r : Nat) (h : 0 < w) : (movedTo w c r).1 < w ∧ (movedTo w c r).2 < 2 := by
  unfold movedTo wrapped
  split <;> split <;> simp_all

theorem movedTo_lt (w c r : Nat) (h : w < 256) : (movedTo w c r).1 < 256 ∧ (movedTo w c r).2 < 2 := by
  unfold movedTo wrapped
  split <;> split <;> simp_all
  omega

@[simp] theorem cursorAt_movedTo_col (w : Byte) (c r : Nat) :
    (cursorAt (movedTo w.toNat c r)).col.toNat = (movedTo w.toNat c r).1 := by
  have := (movedTo_lt w.toNat c r w.isLt).1
  simp only [cursorAt, BitVec.toNat_ofNat]
  omega

@[simp] theorem cursorAt_movedTo_row (w : Byte) (c r : Nat) :
    (cursorAt (movedTo w.toNat c r)).row.toNat = (movedTo w.toNat c r).2 := by
  have := (movedTo_lt w.toNat c r w.isLt).2
  simp only [cursorAt, BitVec.toNat_ofNat]
  omega

/-! ### Characters and text -/

/-- Going from `s` to `t` sent these words, left this cursor, and changed nothing else. -/
def MovesAndSends (s t : State) (ws : List BusWord) (cursor : Cursor) : Prop :=
  Sends s t ws ∧ SameButBus { s with cursor := cursor } t

theorem MovesAndSends.trans {s t u : State} {a b : List BusWord} {x y : Cursor} (h : MovesAndSends s t a x)
    (k : MovesAndSends t u b y) : MovesAndSends s u (a ++ b) y := by
  refine ⟨h.1.trans k.1 h.2.mode, ?_⟩
  have h2 := h.2
  have k2 := k.2
  exact ⟨k2.life.trans h2.life, k2.mode.trans h2.mode, k2.width.trans h2.width, k2.bus.trans h2.bus, k2.cursor,
    k2.cfg.trans h2.cfg, k2.outcome.trans h2.outcome, k2.calls.trans h2.calls⟩

theorem moveCursor_movesAndSends (c r : Nat) (s : State) :
    MovesAndSends s (moveCursor c r s) [cmdWord (movedWord s.width.toNat c r)] (cursorAt (movedTo s.width.toNat c r)) :=
  moveCursor_spec c r s

theorem sendCommand_movesAndSends (w : Byte) (s : State) : MovesAndSends s (sendCommand w s) [cmdWord w] s.cursor :=
  ⟨sendCommand_sends w s, sendCommand_sameButBus w s⟩

theorem writeByte_movesAndSends (d : Bool) (b : Byte) (s : State) : MovesAndSends s (writeByte d b s) [⟨d, b⟩] s.cursor :=
  ⟨writeByte_sends d b s, writeByte_sameButBus d b s⟩

theorem lineFeed_movesAndSends (s : State) :
    MovesAndSends s (lineFeed s) [cmdWord (movedWord s.width.toNat 0 (s.cursor.row.toNat + 1))]
      (cursorAt (movedTo s.width.toNat 0 (s.cursor.row.toNat + 1))) :=
  moveCursor_spec _ _ s

/-- `PutChar` (43_text.md R550). -/
theorem emitChar_movesAndSends (code : Byte) (s : State) :
    MovesAndSends s (emitChar code s)
      [datWord (remapped code), cmdWord (movedWord s.width.toNat (s.cursor.col.toNat + 1) s.cursor.row.toNat)]
      (cursorAt (movedTo s.width.toNat (s.cursor.col.toNat + 1) s.cursor.row.toNat)) := by
  have h := writeByte_movesAndSends true (remapCode code) s
  have kept := writeByte_sameButBus true (remapCode code) s
  have e : emitChar code s = moveCursor (s.cursor.col.toNat + 1) s.cursor.row.toNat (writeByte true (remapCode code) s) := by
    simp only [emitChar, kept.cursor]
  have k := moveCursor_movesAndSends (s.cursor.col.toNat + 1) s.cursor.row.toNat (writeByte true (remapCode code) s)
  rw [kept.width] at k
  rw [e]
  exact h.trans k

/-- The text loop (43_text.md R570), from a cursor whose position is `p`. -/
theorem emitBytes_movesAndSends (text : List Byte) (s : State) :
    MovesAndSends s (text.foldl emitTextByte s)
      (textRun s.width.toNat (s.cursor.col.toNat, s.cursor.row.toNat) text).1
      (cursorAt (textRun s.width.toNat (s.cursor.col.toNat, s.cursor.row.toNat) text).2) := by
  induction text generalizing s with
  | nil =>
    refine ⟨Sends.refl s, ?_⟩
    have e : cursorAt (s.cursor.col.toNat, s.cursor.row.toNat) = s.cursor := by simp [cursorAt]
    simp only [textRun, List.foldl_nil, e]
    exact SameButBus.refl s
  | cons c rest ih =>
    simp only [List.foldl_cons, textRun, emitTextByte, Config.newlineByte]
    by_cases h : c = 0x0A
    · simp only [h, if_true]
      have hk := (lineFeed_movesAndSends s).trans (ih (lineFeed s))
      have f := (lineFeed_movesAndSends s).2
      simpa [f.width, f.cursor] using hk
    · simp only [h, if_false]
      have hk := (emitChar_movesAndSends c s).trans (ih (emitChar c s))
      have f := (emitChar_movesAndSends c s).2
      simpa [f.width, f.cursor] using hk

theorem emittedText_eq_keptText (text : List Byte) : emittedText text = keptText text := rfl

theorem emitText_movesAndSends (text : List Byte) (s : State) :
    MovesAndSends s (emitText text s)
      (textRun s.width.toNat (s.cursor.col.toNat, s.cursor.row.toNat) (keptText text)).1
      (cursorAt (textRun s.width.toNat (s.cursor.col.toNat, s.cursor.row.toNat) (keptText text)).2) :=
  emitBytes_movesAndSends (keptText text) s

/-- Streamed data bytes (43_text.md R580). -/
theorem streamData_movesAndSends (bytes : List Byte) (s : State) :
    MovesAndSends s (streamData bytes s) (bytes.map datWord) s.cursor := by
  induction bytes generalizing s with
  | nil => exact ⟨Sends.refl s, SameButBus.refl s⟩
  | cons b rest ih =>
    have hk := (writeByte_movesAndSends true b s).trans (ih (writeByte true b s))
    rw [(writeByte_sameButBus true b s).cursor] at hk
    exact hk

/-! ### How an operation ends -/

theorem hostOp_ready {effect : State → State} {s : State} (h : s.life = .ready) :
    hostOp effect s = .next { effect s with outcome := .done } := by simp [hostOp, whenReady, h, finish]

theorem hostOp_next {effect : State → State} {s t : State} :
    hostOp effect s = .next t ↔ s.life = .ready ∧ t = { effect s with outcome := .done } := by
  cases h : s.life <;> simp [hostOp, whenReady, h, finish, eq_comm]

theorem busOp_next {effect : State → State} {s t : State} :
    busOp effect s = .next t ↔ s.life ≠ .halted ∧ t = { effect s with outcome := .done } := by
  cases h : s.life <;> simp [busOp, unlessHalted, h, finish, eq_comm]

theorem hostOp_refused {effect : State → State} {s : State} {r : Refusal} :
    hostOp effect s = .refused r ↔ s.life = .uninit ∧ r = .notInitialized := by
  cases h : s.life <;> simp [hostOp, whenReady, h, finish, eq_comm]

theorem busOp_refused {effect : State → State} {s : State} {r : Refusal} : busOp effect s ≠ .refused r := by
  cases h : s.life <;> simp [busOp, unlessHalted, h, finish]

/-- From a `MovesAndSends` to the frame of the whole step. -/
theorem MovesAndSends.keeps {s t : State} {ws : List BusWord} {cursor : Cursor} (h : MovesAndSends s t ws cursor) :
    Sends s { t with outcome := .done } ws ∧ KeepsAllButBusAndCursor s { t with outcome := .done } cursor := by
  refine ⟨sends_congr h.1 rfl rfl rfl rfl rfl, ?_⟩
  have e := h.2.eq
  simp only [KeepsAllButBusAndCursor]
  rw [e]

end Sys2Proof.Machine
end

