-- ==== Sys2Proof/Laws/Init.lean ====
section
/-! SUPPORT. One lemma for each step of INIT (44_init_status.md R602 to R606). -/

namespace Sys2Proof.Machine

/-! ### Step 2: configuring the lines (R603, R608) -/

/-- One line clocked, driven low and configured. -/
def configureLine (s : State) (role : LineRole) : State := out role (drv role false (clk role s))

theorem configureLine_sameButLines (s : State) (role : LineRole) :
    configureLine s role = { s with
      trace := s.trace ++ lineEvents s.bus role, lvl := roleSet s.lvl role (some false),
      cfg := roleSet s.cfg role .output } := by
  simp [configureLine, clk, drv, out, lineEvents]

/-- Configuring roles one after another. -/
theorem configureAll_eq (roles : List LineRole) (s : State) :
    roles.foldl configureLine s = { s with
      trace := s.trace ++ roles.flatMap (lineEvents s.bus)
      lvl := roles.foldl (fun m r => roleSet m r (some false)) s.lvl
      cfg := roles.foldl (fun m r => roleSet m r .output) s.cfg } := by
  induction roles generalizing s with
  | nil => simp
  | cons r rest ih => rw [List.foldl_cons, ih, configureLine_sameButLines]; simp

/-- Every port valid: all lines configured, none bad. -/
theorem configureLines_good (roles : List LineRole) (s : State) (h : firstBadPort s.bus roles = none) :
    configureLines roles s = (roles.foldl configureLine s, none) := by
  induction roles generalizing s with
  | nil => rfl
  | cons r rest ih =>
    unfold firstBadPort at h
    split at h
    · rename_i valid
      simp only [Option.map_eq_none_iff] at h
      simp only [configureLines, clk_bus, valid, if_true, List.foldl_cons]
      exact ih _ h
    · simp at h

/-- The first bad port: the lines before it configured, its own clocked. -/
theorem configureLines_bad (roles before : List LineRole) (role : LineRole) (s : State)
    (h : firstBadPort s.bus roles = some (before, role)) :
    configureLines roles s = (clk role (before.foldl configureLine s), some role) := by
  induction roles generalizing s before with
  | nil => simp [firstBadPort] at h
  | cons r rest ih =>
    unfold firstBadPort at h
    split at h
    · rename_i valid
      simp only [Option.map_eq_some_iff] at h
      obtain ⟨⟨b, q⟩, found, e⟩ := h
      simp only [Prod.mk.injEq] at e
      obtain ⟨rfl, rfl⟩ := e
      simp only [configureLines, clk_bus, valid, if_true, List.foldl_cons]
      exact ih _ _ found
    · rename_i invalid
      simp only [Option.some.injEq, Prod.mk.injEq] at h
      obtain ⟨rfl, rfl⟩ := h
      simp [configureLines, invalid]

theorem firstBadPort_eq_none (bus : BusDescriptor) (roles : List LineRole) :
    firstBadPort bus roles = none ↔ ∀ r ∈ roles, Config.portValid (roleGet bus r).port = true := by
  induction roles with
  | nil => simp [firstBadPort]
  | cons r rest ih =>
    unfold firstBadPort
    split
    · rename_i valid; simp [valid, ih]
    · rename_i invalid; simp [invalid]

theorem firstBadPort_eq_some (bus : BusDescriptor) (roles before : List LineRole) (role : LineRole)
    (h : firstBadPort bus roles = some (before, role)) :
    (∃ after, roles = before ++ role :: after) ∧ Config.portValid (roleGet bus role).port = false ∧
      ∀ r ∈ before, Config.portValid (roleGet bus r).port = true := by
  induction roles generalizing before with
  | nil => simp [firstBadPort] at h
  | cons r rest ih =>
    unfold firstBadPort at h
    split at h
    · rename_i valid
      simp only [Option.map_eq_some_iff] at h
      obtain ⟨⟨b, q⟩, found, e⟩ := h
      simp only [Prod.mk.injEq] at e
      obtain ⟨rfl, rfl⟩ := e
      obtain ⟨⟨after, split⟩, bad, good⟩ := ih b found
      exact ⟨⟨after, by rw [split]; rfl⟩, bad, by simpa [valid] using good⟩
    · rename_i invalid
      simp only [Option.some.injEq, Prod.mk.injEq] at h
      obtain ⟨rfl, rfl⟩ := h
      exact ⟨⟨rest, rfl⟩, by simpa using invalid, by simp⟩

theorem usedRoles_modeOf (bus8 : Bool) : usedRoles (modeOf bus8) = initRoles bus8 := by cases bus8 <;> rfl

theorem levelsAfter_lineEvents (bus : BusDescriptor) (roles : List LineRole) (lvl : RoleMap (Option Bool)) :
    levelsAfter lvl (roles.flatMap (lineEvents bus)) = roles.foldl (fun m r => roleSet m r (some false)) lvl := by
  induction roles generalizing lvl with
  | nil => rfl
  | cons r rest ih =>
    rw [List.flatMap_cons, levelsAfter_append, ih]
    rfl

theorem configsAfter_lineEvents (bus : BusDescriptor) (roles : List LineRole) (cfg : RoleMap LineConfig) :
    configsAfter cfg (roles.flatMap (lineEvents bus)) = roles.foldl (fun m r => roleSet m r .output) cfg := by
  induction roles generalizing cfg with
  | nil => rfl
  | cons r rest ih =>
    rw [List.flatMap_cons, configsAfter_append, ih]
    rfl

/-- Setting several roles to one value. -/
theorem roleGet_foldl_roleSet {α : Type} (roles : List LineRole) (v : α) (m : RoleMap α) (q : LineRole) :
    roleGet (roles.foldl (fun m r => roleSet m r v) m) q = if q ∈ roles then v else roleGet m q := by
  induction roles generalizing m with
  | nil => simp
  | cons r rest ih =>
    rw [List.foldl_cons, ih, roleGet_roleSet]
    by_cases h : q ∈ rest <;> by_cases k : q = r <;> simp [h, k]

/-! ### Steps 3 and 4: the settle delay and the priming (R604, R605) -/

/-- With RS and RNW low, as step 2 leaves them, a lone nibble is `CYC 0 0 n` (40_bus_transport.md R420). -/
theorem nibble_emits_low (n : BitVec 4) (s : State) (mode : s.mode = .bus4) (rs : s.lvl.rs = some false)
    (rnw : s.lvl.rnw = some false) : Emits s (nibble n s) (strobeSeen (nibbleCycle false n)) := by
  have h := nibble_emits n s
  rw [mode] at h
  simpa [sampleCycle, drivenLevels, nibblePairs, roleSet, rs, rnw, nibbleCycle] using h

/-- A state in which the priming nibbles are sent: BUS4, RS and RNW low. -/
structure PrimeReady (s : State) : Prop where
  mode : s.mode = .bus4
  rs   : s.lvl.rs = some false
  rnw  : s.lvl.rnw = some false

theorem PrimeReady.dly {s : State} (h : PrimeReady s) (n : Nat) : PrimeReady (dly n s) := ⟨h.mode, h.rs, h.rnw⟩

theorem PrimeReady.nibble {s : State} (h : PrimeReady s) (n : BitVec 4) : PrimeReady (nibble n s) :=
  ⟨(nibble_sameButBus n s).mode.trans h.mode,
    by rw [← h.rs]; simp [Machine.nibble, drivenLevels, nibblePairs, roleSet],
    by rw [← h.rnw]; simp [Machine.nibble, drivenLevels, nibblePairs, roleSet]⟩

/-- One priming nibble 0x3 and its delay. -/
theorem primeOne_emits {s : State} (h : PrimeReady s) :
    Emits s (dly Config.tPrime (nibble Config.primeNibble s)) (strobeSeen (nibbleCycle false 0x3) ++ [.dly 15]) :=
  (nibble_emits_low _ s h.mode h.rs h.rnw).trans (dly_emits _ _) (nibble_sameButBus _ s).mode

theorem primeRepeat_ready {s : State} (h : PrimeReady s) (n : Nat) : PrimeReady (primeRepeat n s) := by
  induction n generalizing s with
  | zero => exact h
  | succ n ih => exact ih ((h.nibble _).dly _)

theorem primeRepeat_sameButBus (n : Nat) (s : State) : SameButBus s (primeRepeat n s) := by
  induction n generalizing s with
  | zero => exact SameButBus.refl s
  | succ n ih => exact ((nibble_sameButBus _ s).trans (dly_sameButBus _ _)).trans (ih _)

theorem primeRepeat_emits {s : State} (h : PrimeReady s) (n : Nat) :
    Emits s (primeRepeat n s) (List.replicate n (strobeSeen (nibbleCycle false 0x3) ++ [.dly 15])).flatten := by
  induction n generalizing s with
  | zero => exact Emits.refl s
  | succ n ih =>
    rw [List.replicate_succ, List.flatten_cons]
    exact (primeOne_emits h).trans (ih ((h.nibble _).dly _)) ((nibble_sameButBus _ s).trans (dly_sameButBus _ _)).mode

theorem initPrime_sameButBus (s : State) : SameButBus s (initPrime s) := by
  unfold initPrime
  simp only [dly_mode]
  split
  · exact dly_sameButBus _ s
  · exact ((dly_sameButBus _ s).trans (primeRepeat_sameButBus _ _)).trans (nibble_sameButBus _ _)

/-- What steps 3 and 4 show, from lines that step 2 drove low. -/
theorem initPrime_emits (bus8 : Bool) (s : State) (mode : s.mode = modeOf bus8) (rs : s.lvl.rs = some false)
    (rnw : s.lvl.rnw = some false) :
    Emits s (initPrime s) (.dly 40 ::
      (if bus8 then []
       else
         strobeSeen (nibbleCycle false 0x3) ++ [.dly 15] ++ strobeSeen (nibbleCycle false 0x3) ++ [.dly 15] ++
         strobeSeen (nibbleCycle false 0x3) ++ [.dly 15] ++ strobeSeen (nibbleCycle false 0x2))) := by
  have settle := dly_emits Config.tPowerup s
  cases bus8
  · have start : PrimeReady (Machine.dly Config.tPowerup s) := ⟨mode, rs, rnw⟩
    have e : initPrime s = nibble Config.fourBitNibble (primeRepeat Config.nPrime (Machine.dly Config.tPowerup s)) := by
      simp only [initPrime, dly_mode, mode, modeOf, Bool.false_eq_true, if_false]
    have after := primeRepeat_ready start Config.nPrime
    have p1 := settle.trans (primeRepeat_emits start Config.nPrime) rfl
    have p2 := p1.trans (nibble_emits_low Config.fourBitNibble _ after.mode after.rs after.rnw)
      (after.mode.trans mode.symm)
    rw [e]
    simpa [Config.nPrime, Config.tPowerup, Config.fourBitNibble, List.replicate] using p2
  · have e : initPrime s = Machine.dly Config.tPowerup s := by
      simp only [initPrime, dly_mode, mode, modeOf, if_true]
    rw [e]
    exact settle

/-! ### Step 5: the six words (R606) -/

theorem functionSetWord_init (lineCount : Byte) :
    functionSetWord false (twoLines lineCount) false = if 1 < lineCount.toNat then 0x28 else 0x20 := by
  unfold twoLines
  by_cases h : 1 < lineCount.toNat <;> simp [h] <;> decide

theorem clearDisplay_movesAndSends (s : State) : MovesAndSends s (clearDisplay s) [cmdWord 0x01] ⟨0, 0⟩ :=
  ⟨sends_congr (sendCommand_sends 0x01 (setCursor 0 0 s)) rfl rfl rfl rfl rfl, sendCommand_sameButBus 0x01 (setCursor 0 0 s)⟩

/-- `home()` (42_commands.md R501): the word and then its settle delay. -/
theorem returnHome_spec (s : State) :
    SendsThen s (returnHome s) [cmdWord 0x02] [.dly 2] ∧ SameButBus { s with cursor := ⟨0, 0⟩ } (returnHome s) := by
  have sent := sendCommand_sends 0x02 (setCursor 0 0 s)
  have kept := sendCommand_sameButBus 0x02 (setCursor 0 0 s)
  have seen := sent.1.trans (dly_emits 2 (sendCommand 0x02 (setCursor 0 0 s))) kept.mode
  rw [List.append_nil] at seen
  have both : SendsThen (setCursor 0 0 s) (returnHome s) [cmdWord 0x02] [.dly 2] := ⟨seen, sent.2⟩
  exact ⟨sendsThen_congr both rfl rfl rfl rfl rfl, kept.trans (dly_sameButBus _ _)⟩

theorem initWords_spec (lineCount : Byte) (s : State) :
    SendsThen s (initWords lineCount s) (initWordList lineCount) [.dly 2] ∧
      SameButBus { s with cursor := ⟨0, 0⟩ } (initWords lineCount s) := by
  have w1 := sendCommand_movesAndSends (functionSetWord false (twoLines lineCount) false) s
  rw [functionSetWord_init] at w1
  have w2 := w1.trans (sendCommand_movesAndSends (displayControlWord true false false) _)
  have w3 := w2.trans (sendCommand_movesAndSends (entryModeWord true false) _)
  have w4 := w3.trans (sendCommand_movesAndSends (shiftWord false false) _)
  have w5 := w4.trans (clearDisplay_movesAndSends _)
  have w6 := returnHome_spec (clearDisplay (sendCommand (shiftWord false false) (sendCommand (entryModeWord true false)
    (sendCommand (displayControlWord true false false)
      (sendCommand (if 1 < lineCount.toNat then 0x28 else 0x20) s)))))
  have e : initWords lineCount s = returnHome (clearDisplay (sendCommand (shiftWord false false)
      (sendCommand (entryModeWord true false) (sendCommand (displayControlWord true false false)
        (sendCommand (if 1 < lineCount.toNat then 0x28 else 0x20) s))))) := by
    simp only [initWords, functionSetWord_init]
  rw [e]
  refine ⟨w5.1.thenSends w6.1 w5.2.mode, ?_⟩
  have f := w5.2
  have g := w6.2
  exact ⟨g.life.trans f.life, g.mode.trans f.mode, g.width.trans f.width, g.bus.trans f.bus, g.cursor,
    g.cfg.trans f.cfg, g.outcome.trans f.outcome, g.calls.trans f.calls⟩

/-! ### INIT as a whole -/

/-- INIT outside HALTED: its two checks, then its steps. -/
theorem execInit_alive (bus : BusDescriptor) (width : Byte) (bus8 : Bool) (lineCount : Byte) (bigFont : Bool) (s : State)
    (alive : s.life ≠ .halted) :
    execInit bus width bus8 lineCount bigFont s =
      if width = 0 then .refused .badWidth
      else if lineAliased bus (modeOf bus8) then .refused .lineAlias
      else
        match configureLines (usedRoles (modeOf bus8)) (initRecord bus width bus8 s) with
        | (s1, some role) => raiseHalt .badPort role s1
        | (s1, none) => finish .done (initReady (initWords lineCount (initPrime s1))) := by
  cases life : s.life
  · simp only [execInit, unlessHalted, life] <;> rfl
  · simp only [execInit, unlessHalted, life] <;> rfl
  · exact absurd life alive

/-- How INIT ends once it is accepted. -/
theorem execInit_accepted (bus : BusDescriptor) (width : Byte) (bus8 : Bool) (lineCount : Byte) (bigFont : Bool) (s : State)
    (alive : s.life ≠ .halted) (widthOk : width ≠ 0) (distinct : ((initRoles bus8).map (roleGet bus)).Nodup) :
    execInit bus width bus8 lineCount bigFont s =
      match firstBadPort bus (initRoles bus8) with
      | some (before, role) =>
        raiseHalt .badPort role (clk role (before.foldl configureLine (initRecord bus width bus8 s)))
      | none =>
        finish .done (initReady (initWords lineCount (initPrime ((initRoles bus8).foldl configureLine
          (initRecord bus width bus8 s))))) := by
  have noAlias : lineAliased bus (modeOf bus8) = false := by
    rw [lineAliased_eq_false, usedRoles_modeOf]; exact distinct
  rw [execInit_alive _ _ _ _ _ _ alive, if_neg widthOk, noAlias, if_neg (by decide), usedRoles_modeOf]
  cases found : firstBadPort bus (initRoles bus8) with
  | none => rw [configureLines_good _ _ (by simpa using found)]
  | some p =>
    obtain ⟨before, role⟩ := p
    rw [configureLines_bad _ before role _ (by simpa using found)]

end Sys2Proof.Machine
end

