-- ==== Sys2Proof/Laws/Step.lean ====
section
/-! SUPPORT. When the operations that are no plain `hostOp` or `busOp` answer a next state, and what `step` does with a pending call. -/

namespace Sys2Proof.Machine

theorem execDefineChar_next {addr : Byte} {pattern : List Byte} {size : Byte} {s t : State} :
    execDefineChar addr pattern size s = .next t ↔ s.life = .ready ∧ size.toNat ≤ pattern.length ∧
      t = { streamData (pattern.take size.toNat) (sendCgramAddress addr s) with outcome := .done } := by
  by_cases short : pattern.length < size.toNat
  · cases h : s.life <;> simp [execDefineChar, whenReady, h, short, Nat.not_le.mpr short]
  · cases h : s.life <;> simp [execDefineChar, whenReady, h, short, Nat.not_lt.mp short, finish, eq_comm]

theorem execIsBusy_next {s t : State} :
    execIsBusy s = .next t ↔ s.life = .ready ∧ t = { dly Config.tBusy s with outcome := .doneBool Config.busyStubResult } := by
  cases h : s.life <;> simp [execIsBusy, whenReady, h, finish, eq_comm]

/-- INIT answers a next state only when it is accepted (44_init_status.md R600). -/
theorem execInit_next_accepted {bus : BusDescriptor} {width : Byte} {bus8 : Bool} {lineCount : Byte} {bigFont : Bool}
    {s t : State} (h : execInit bus width bus8 lineCount bigFont s = .next t) :
    s.life ≠ .halted ∧ width ≠ 0 ∧ ((initRoles bus8).map (roleGet bus)).Nodup := by
  have alive : s.life ≠ .halted := by
    intro halted
    simp [execInit, unlessHalted, halted] at h
  rw [execInit_alive _ _ _ _ _ _ alive] at h
  by_cases widthZero : width = 0
  · rw [if_pos widthZero] at h
    exact absurd h (by simp)
  · rw [if_neg widthZero] at h
    by_cases aliased : lineAliased bus (modeOf bus8) = true
    · rw [if_pos aliased] at h
      exact absurd h (by simp)
    · refine ⟨alive, widthZero, ?_⟩
      rw [← usedRoles_modeOf, ← lineAliased_eq_false]
      simpa using aliased

theorem step_of_calls {s : State} {q : Request} {rest : List Request} (h : s.calls = q :: rest) :
    step s = backToCaller { s with calls := rest }
      (match decode q with
      | .ok i => exec i { s with calls := rest }
      | .error err => .refused (refusalOf err)) := by
  simp only [step, nextCall, h] <;> rfl

@[simp] theorem backToCaller_of_next (s t : State) : backToCaller s (.next t) = .next t := rfl

@[simp] theorem backToCaller_of_fault (s : State) (f : Fault) : backToCaller s (.fault f) = .fault f := rfl

theorem backToCaller_of_refused {s : State} {r : Refusal} (returns : returnsToCaller r = true) (alive : s.life ≠ .halted) :
    backToCaller s (.refused r) = .next { s with outcome := .refused r } := if_pos ⟨returns, alive⟩

theorem backToCaller_of_halted {s : State} (a : Answer) (halted : s.life = .halted) : backToCaller s a = a := by
  cases a with
  | next _ => rfl
  | fault _ => rfl
  | refused _ => exact if_neg fun k => k.2 halted

theorem backToCaller_next {s t : State} {a : Answer} :
    backToCaller s a = .next t ↔
      a = .next t ∨ ∃ r, a = .refused r ∧ returnsToCaller r = true ∧ s.life ≠ .halted ∧ t = { s with outcome := .refused r } := by
  cases a with
  | next _ => simp
  | fault _ => simp
  | refused r =>
    by_cases k : returnsToCaller r = true ∧ s.life ≠ .halted
    · simp [backToCaller_of_refused k.1 k.2, k.1, k.2, @eq_comm _ t]
    · have stays : backToCaller s (.refused r) = .refused r := if_neg k
      simp only [stays, reduceCtorEq, Host.Outcome.refused.injEq, false_or, false_iff, not_exists, not_and]
      rintro _ rfl returns alive
      exact absurd ⟨returns, alive⟩ k

theorem step_of_no_calls {s : State} (h : s.calls = []) : step s = idle s := by simp [step, nextCall, h]

/-- A step that answers a next state waited with no call pending, or ran the instruction of its next call, or handed a refusal back. -/
theorem step_cases {s t : State} (h : step s = .next t) :
    (s.calls = [] ∧ s.life ≠ .halted ∧ t = s) ∨
      (∃ q rest i, s.calls = q :: rest ∧ decode q = .ok i ∧ exec i { s with calls := rest } = .next t) ∨
      ∃ q rest r, s.calls = q :: rest ∧ s.life ≠ .halted ∧ returnsToCaller r = true ∧
        t = { s with calls := rest, outcome := .refused r } := by
  cases pending : s.calls with
  | nil =>
    rw [step_of_no_calls pending] at h
    cases life : s.life <;> simp [idle, unlessHalted, life] at h <;> exact .inl ⟨rfl, by simp, h.symm⟩
  | cons q rest =>
    rw [step_of_calls pending, backToCaller_next] at h
    rcases h with ran | ⟨r, -, returns, alive, rfl⟩
    · split at ran
      · exact .inr (.inl ⟨q, rest, _, rfl, by assumption, ran⟩)
      · simp at ran
    · exact .inr (.inr ⟨q, rest, r, rfl, alive, returns, rfl⟩)

end Sys2Proof.Machine
end

