-- ==== Sys2Proof/Laws/Effect.lean ====
section
/-! SUPPORT. What each host operation but INIT sends and where it leaves the cursor, said once for all of them; that the other
instructions change nothing but the bus; and how a call ends for its caller. -/

namespace Sys2Proof.Machine

/-- What a host operation that is Done did: its words, the delays after them, the cursor and the outcome it leaves. -/
structure Effect where
  words   : List BusWord
  after   : List Observed
  cursor  : Cursor
  outcome : OpOutcome
  deriving DecidableEq, Repr

/-- The effect of each host operation but INIT, from the width and the cursor; none for the other instructions. -/
def effectFrom (width : Nat) (at' : Nat × Nat) (cursor : Cursor) : Instr → Option Effect
  | .entryModeSet increment shift => some ⟨[cmdWord (entryModeWord increment shift)], [], cursor, .done⟩
  | .displayControl displayOn showCursor cursorBlink =>
    some ⟨[cmdWord (displayControlWord displayOn showCursor cursorBlink)], [], cursor, .done⟩
  | .cursorControl shiftDisplay shiftRight => some ⟨[cmdWord (shiftWord shiftDisplay shiftRight)], [], cursor, .done⟩
  | .functionSet bus8 lineCount bigFont =>
    some ⟨[cmdWord (functionSetWord bus8 (twoLines lineCount) bigFont)], [], cursor, .done⟩
  | .setCgramAddress addr => some ⟨[cmdWord (setCgramWord addr)], [], cursor, .done⟩
  | .setDdramAddress addr => some ⟨[cmdWord (setDdramWord addr.toNat)], [], cursor, .done⟩
  | .clear => some ⟨[cmdWord 0x01], [], ⟨0, 0⟩, .done⟩
  | .home => some ⟨[cmdWord 0x02], [.dly 2], ⟨0, 0⟩, .done⟩
  | .putChar code =>
    some ⟨[datWord (remapped code), cmdWord (movedWord width (at'.1 + 1) at'.2)], [],
      cursorAt (movedTo width (at'.1 + 1) at'.2), .done⟩
  | .putCharAt col row code =>
    some ⟨[cmdWord (movedWord width col.toNat row.toNat), datWord (remapped code),
        cmdWord (movedWord width ((movedTo width col.toNat row.toNat).1 + 1) (movedTo width col.toNat row.toNat).2)], [],
      cursorAt (movedTo width ((movedTo width col.toNat row.toNat).1 + 1) (movedTo width col.toNat row.toNat).2), .done⟩
  | .formatted text =>
    some ⟨(textRun width at' (keptText text)).1, [], cursorAt (textRun width at' (keptText text)).2, .done⟩
  | .formattedAt col row text =>
    some ⟨cmdWord (movedWord width col.toNat row.toNat) ::
        (textRun width (movedTo width col.toNat row.toNat) (keptText text)).1, [],
      cursorAt (textRun width (movedTo width col.toNat row.toNat) (keptText text)).2, .done⟩
  | .defineChar addr pattern size =>
    some ⟨cmdWord (setCgramWord addr) :: (pattern.take size.toNat).map datWord, [], cursor, .done⟩
  | .isBusy => some ⟨[], [.dly 1], cursor, .doneBool Config.busyStubResult⟩
  | .moveTo col row =>
    some ⟨[cmdWord (movedWord width col.toNat row.toNat)], [], cursorAt (movedTo width col.toNat row.toNat), .done⟩
  | .newline => some ⟨[cmdWord (movedWord width 0 (at'.2 + 1))], [], cursorAt (movedTo width 0 (at'.2 + 1)), .done⟩
  | .write isData byte => some ⟨[⟨isData, byte⟩], [], cursor, .done⟩
  | .cmdClear | .cmdHome | .cmdEntryMode _ _ | .cmdDisplayControl _ _ _ | .cmdShift _ _ | .cmdFunctionSet _ _ _
  | .cmdSetCgram _ | .cmdSetDdram _ | .data _ | .nibPrime3 | .nibPrime2 | .init _ _ _ _ _ => none

/-- The effect of a host operation in a state. -/
def effectOf (i : Instr) (s : State) : Option Effect :=
  effectFrom s.width.toNat (s.cursor.col.toNat, s.cursor.row.toNat) s.cursor i

/-- Every instruction is INIT, has an effect in every state, or is a word or nibble of the sequencer's table. -/
theorem effect_cases (i : Instr) :
    isInit i = true ∨ (isInit i = false ∧ ∀ s, ∃ e, effectOf i s = some e) ∨ (isInit i = false ∧ ∀ s, effectOf i s = none) := by
  cases i <;> first
    | exact .inl rfl
    | exact .inr (.inl ⟨rfl, fun _ => ⟨_, rfl⟩⟩)
    | exact .inr (.inr ⟨rfl, fun _ => rfl⟩)

theorem MovesAndSends.done {s t : State} {ws : List BusWord} {cursor : Cursor} (h : MovesAndSends s t ws cursor) :
    SendsThen s { t with outcome := .done } ws [] ∧
      SameButBus { s with cursor := cursor, outcome := .done } { t with outcome := .done } :=
  ⟨sends_congr h.1 rfl rfl rfl rfl rfl, h.2.life, h.2.mode, h.2.width, h.2.bus, h.2.cursor, h.2.cfg, rfl, h.2.calls⟩

theorem hostOp_effect {effect : State → State} {s t : State} {ws : List BusWord} {cursor : Cursor}
    (h : hostOp effect s = .next t) (k : MovesAndSends s (effect s) ws cursor) :
    s.life = .ready ∧ SendsThen s t ws [] ∧ SameButBus { s with cursor := cursor, outcome := .done } t := by
  obtain ⟨ready, rfl⟩ := hostOp_next.mp h
  exact ⟨ready, k.done⟩

/-- A host operation but INIT that answers a next state was READY, and did its effect and nothing else. -/
theorem exec_effect {i : Instr} {s t : State} {e : Effect} (he : effectOf i s = some e) (h : exec i s = .next t) :
    s.life = .ready ∧ SendsThen s t e.words e.after ∧
      SameButBus { s with cursor := e.cursor, outcome := e.outcome } t := by
  cases i <;> simp only [effectOf, effectFrom, Option.some.injEq, reduceCtorEq] at he <;> subst he
  case clear => exact hostOp_effect h (clearDisplay_movesAndSends s)
  case home =>
    obtain ⟨ready, rfl⟩ := hostOp_next.mp h
    have k := returnHome_spec s
    exact ⟨ready, sendsThen_congr k.1 rfl rfl rfl rfl rfl,
      k.2.life, k.2.mode, k.2.width, k.2.bus, k.2.cursor, k.2.cfg, rfl, k.2.calls⟩
  case entryModeSet => exact hostOp_effect h (sendCommand_movesAndSends _ s)
  case displayControl => exact hostOp_effect h (sendCommand_movesAndSends _ s)
  case cursorControl => exact hostOp_effect h (sendCommand_movesAndSends _ s)
  case functionSet => exact hostOp_effect h (sendCommand_movesAndSends _ s)
  case setCgramAddress => exact hostOp_effect h (sendCommand_movesAndSends _ s)
  case setDdramAddress => exact hostOp_effect h (sendCommand_movesAndSends _ s)
  case putChar => exact hostOp_effect h (emitChar_movesAndSends _ s)
  case putCharAt col row code =>
    have m := moveCursor_movesAndSends col.toNat row.toNat s
    have k := m.trans (emitChar_movesAndSends code (moveCursor col.toNat row.toNat s))
    rw [m.2.cursor, m.2.width] at k
    simp only [cursorAt_movedTo_col, cursorAt_movedTo_row] at k
    exact hostOp_effect (effect := fun s => emitChar code (moveCursor col.toNat row.toNat s)) h k
  case formatted => exact hostOp_effect h (emitText_movesAndSends _ s)
  case formattedAt col row text =>
    have m := moveCursor_movesAndSends col.toNat row.toNat s
    have k := m.trans (emitText_movesAndSends text (moveCursor col.toNat row.toNat s))
    rw [m.2.cursor, m.2.width] at k
    simp only [cursorAt_movedTo_col, cursorAt_movedTo_row] at k
    exact hostOp_effect (effect := fun s => emitText text (moveCursor col.toNat row.toNat s)) h k
  case defineChar addr pattern size =>
    obtain ⟨ready, -, rfl⟩ := execDefineChar_next.mp h
    have m := sendCommand_movesAndSends (setCgramWord addr) s
    have k := m.trans (streamData_movesAndSends (pattern.take size.toNat) (sendCommand (setCgramWord addr) s))
    rw [m.2.cursor] at k
    exact ⟨ready, k.done⟩
  case isBusy =>
    obtain ⟨ready, rfl⟩ := execIsBusy_next.mp h
    exact ⟨ready, ⟨⟨[.dly 1], rfl, rfl, rfl⟩, rfl⟩, rfl, rfl, rfl, rfl, rfl, rfl, rfl, rfl⟩
  case moveTo => exact hostOp_effect h (moveCursor_movesAndSends _ _ s)
  case newline => exact hostOp_effect h (lineFeed_movesAndSends s)
  case write => exact hostOp_effect h (writeByte_movesAndSends _ _ s)

theorem busOp_sameButBus {effect : State → State} {s t : State} (h : busOp effect s = .next t) (k : SameButBus s (effect s)) :
    s.life ≠ .halted ∧ SameButBus { s with outcome := .done } t := by
  obtain ⟨alive, rfl⟩ := busOp_next.mp h
  exact ⟨alive, k.life, k.mode, k.width, k.bus, k.cursor, k.cfg, rfl, k.calls⟩

/-- A word or nibble of the sequencer's table that answers a next state changes nothing but the bus. -/
theorem exec_tableWord {i : Instr} {s t : State} (he : effectOf i s = none) (notInit : isInit i = false)
    (h : exec i s = .next t) : s.life ≠ .halted ∧ SameButBus { s with outcome := .done } t := by
  cases i <;> simp only [effectOf, effectFrom, reduceCtorEq] at he <;> simp only [isInit, reduceCtorEq] at notInit
  case nibPrime3 => exact busOp_sameButBus h (nibble_sameButBus _ s)
  case nibPrime2 => exact busOp_sameButBus h (nibble_sameButBus _ s)
  all_goals exact busOp_sameButBus h (writeByte_sameButBus _ _ s)

/-! ### How a call ends for its caller -/

/-- An instruction is refused outside HALTED only, and for a reason of the spec's table (60_exceptions.md R700). -/
theorem exec_refused {i : Instr} {s : State} {r : Refusal} (h : exec i s = .refused r) :
    s.life ≠ .halted ∧ returnsToCaller r = true ∧ r ∈ [Refusal.notInitialized, .badWidth, .lineAlias, .shortPattern] := by
  cases i with
  | init bus width bus8 lineCount bigFont =>
    have alive : s.life ≠ .halted := by
      intro halted
      simp [exec, execInit, unlessHalted, halted] at h
    simp only [exec] at h
    rw [execInit_alive _ _ _ _ _ _ alive] at h
    split at h
    · cases h; simp [alive, returnsToCaller]
    · split at h
      · cases h; simp [alive, returnsToCaller]
      · split at h <;> simp [raiseHalt, finish] at h
  | defineChar addr pattern size =>
    cases life : s.life <;> simp only [exec, execDefineChar, whenReady, life] at h
    · cases h; simp [returnsToCaller]
    · split at h
      · cases h; simp [returnsToCaller]
      · simp [finish] at h
    · simp at h
  | isBusy =>
    cases life : s.life <;> simp [exec, execIsBusy, whenReady, finish, life] at h
    subst h; simp [returnsToCaller]
  | cmdClear | cmdHome | cmdEntryMode | cmdDisplayControl | cmdShift | cmdFunctionSet | cmdSetCgram | cmdSetDdram | data | nibPrime3
  | nibPrime2 =>
    cases life : s.life <;>
      simp [exec, execCmdClear, execCmdHome, execCmdEntryMode, execCmdDisplayControl, execCmdShift, execCmdFunctionSet, execCmdSetCgram,
        execCmdSetDdram, execData, execNibPrime3, execNibPrime2, busOp, unlessHalted, finish, life] at h
  | _ =>
    cases life : s.life <;>
      simp [exec, execClear, execHome, execEntryModeSet, execDisplayControl, execCursorControl, execFunctionSet, execSetCgramAddress,
        execSetDdramAddress, execPutChar, execPutCharAt, execFormatted, execFormattedAt, execMoveTo, execNewline, execWrite, hostOp,
        whenReady, finish, life] at h
    subst h; simp [returnsToCaller]

/-- Every refusal of an instruction returns to the caller (60_exceptions.md R722). -/
theorem backToCaller_exec (i : Instr) (s : State) : backToCaller s (exec i s) = answered s (exec i s) := by
  cases h : exec i s with
  | next _ => rfl
  | fault _ => rfl
  | refused r => exact backToCaller_of_refused (exec_refused h).2.1 (exec_refused h).1

/-- An instruction that completes reports no refusal. -/
theorem exec_next_outcome {i : Instr} {s t : State} (h : exec i s = .next t) (r : Refusal) : t.outcome ≠ .refused r := by
  rcases effect_cases i with isInit | ⟨-, hasEffect⟩ | ⟨notInit, noEffect⟩
  · cases i with
    | init bus width bus8 lineCount bigFont =>
      obtain ⟨alive, widthNotZero, distinct⟩ := execInit_next_accepted (bigFont := bigFont) h
      rw [show exec (.init bus width bus8 lineCount bigFont) s = _ from
        execInit_accepted bus width bus8 lineCount bigFont s alive widthNotZero distinct] at h
      split at h
      · simp only [raiseHalt, Host.Outcome.next.injEq] at h; rw [← h]; simp
      · simp only [finish, Host.Outcome.next.injEq] at h; rw [← h]; simp
    | _ => simp [Machine.isInit] at isInit
  · obtain ⟨e, he⟩ := hasEffect s
    rw [(exec_effect he h).2.2.outcome]
    cases i <;> simp only [effectOf, effectFrom, Option.some.injEq, reduceCtorEq] at he <;> subst he <;> simp
  · rw [(exec_tableWord (noEffect s) notInit h).2.outcome]; simp

/-! ### The outcome is not read -/

theorem writeByte_outcome (isData : Bool) (b : Byte) (o : OpOutcome) (s : State) :
    writeByte isData b { s with outcome := o } = { writeByte isData b s with outcome := o } := by
  obtain ⟨_, mode, _, _, _, _, _, _, _, _⟩ := s
  cases mode <;> rfl

theorem moveCursor_outcome (c r : Nat) (o : OpOutcome) (s : State) :
    moveCursor c r { s with outcome := o } = { moveCursor c r s with outcome := o } :=
  writeByte_outcome false _ o (setCursor (locate s.width.toNat c r).1.1 (locate s.width.toNat c r).1.2 s)

theorem emitChar_outcome (code : Byte) (o : OpOutcome) (s : State) :
    emitChar code { s with outcome := o } = { emitChar code s with outcome := o } := by
  simp only [emitChar, writeByte_outcome, moveCursor_outcome]

theorem emitText_outcome (text : List Byte) (o : OpOutcome) (s : State) :
    emitText text { s with outcome := o } = { emitText text s with outcome := o } := by
  unfold emitText
  generalize emittedText text = bytes
  induction bytes generalizing s with
  | nil => rfl
  | cons c rest ih =>
    have one : emitTextByte { s with outcome := o } c = { emitTextByte s c with outcome := o } := by
      unfold emitTextByte
      split
      · exact moveCursor_outcome _ _ _ _
      · exact emitChar_outcome _ _ _
    simp only [List.foldl_cons, one, ih]

end Sys2Proof.Machine
end

