-- ==== Sys2Proof/Laws/PerInstr.lean ====
section
/-! SUPPORT. Statements made per instruction. Family TableRow: the encoding of a well-formed instruction carries the format, and matches
the (match, mask) pair, of its row of spec/opcode_table.json. -/

namespace Sys2Proof.Laws.TableRow

/-- A row of spec/opcode_table.json: its format, match and mask. -/
structure Row where
  format  : Format
  pattern : Nat
  mask    : Nat
  deriving DecidableEq, Repr

/-- Each instruction's row, written out from the table. -/
def row : Instr → Row
  | .cmdClear => ⟨.bw10, 0x001, 0x3FF⟩
  | .cmdHome => ⟨.bw10, 0x002, 0x3FF⟩
  | .cmdEntryMode _ _ => ⟨.bw10, 0x004, 0x3FC⟩
  | .cmdDisplayControl _ _ _ => ⟨.bw10, 0x008, 0x3F8⟩
  | .cmdShift _ _ => ⟨.bw10, 0x010, 0x3F3⟩
  | .cmdFunctionSet _ _ _ => ⟨.bw10, 0x020, 0x3E3⟩
  | .cmdSetCgram _ => ⟨.bw10, 0x040, 0x3C0⟩
  | .cmdSetDdram _ => ⟨.bw10, 0x080, 0x380⟩
  | .data _ => ⟨.bw10, 0x200, 0x300⟩
  | .nibPrime3 => ⟨.nib6, 0x03, 0x3F⟩
  | .nibPrime2 => ⟨.nib6, 0x02, 0x3F⟩
  | .init _ _ _ _ _ => ⟨.hostOp, 0x00, 0xFF⟩
  | .clear => ⟨.hostOp, 0x01, 0xFF⟩
  | .home => ⟨.hostOp, 0x02, 0xFF⟩
  | .entryModeSet _ _ => ⟨.hostOp, 0x03, 0xFF⟩
  | .displayControl _ _ _ => ⟨.hostOp, 0x04, 0xFF⟩
  | .cursorControl _ _ => ⟨.hostOp, 0x05, 0xFF⟩
  | .functionSet _ _ _ => ⟨.hostOp, 0x06, 0xFF⟩
  | .setCgramAddress _ => ⟨.hostOp, 0x07, 0xFF⟩
  | .setDdramAddress _ => ⟨.hostOp, 0x08, 0xFF⟩
  | .putChar _ => ⟨.hostOp, 0x09, 0xFF⟩
  | .putCharAt _ _ _ => ⟨.hostOp, 0x0A, 0xFF⟩
  | .formatted _ => ⟨.hostOp, 0x0B, 0xFF⟩
  | .formattedAt _ _ _ => ⟨.hostOp, 0x0C, 0xFF⟩
  | .defineChar _ _ _ => ⟨.hostOp, 0x0D, 0xFF⟩
  | .isBusy => ⟨.hostOp, 0x0E, 0xFF⟩
  | .moveTo _ _ => ⟨.hostOp, 0x10, 0xFF⟩
  | .newline => ⟨.hostOp, 0x11, 0xFF⟩
  | .write _ _ => ⟨.hostOp, 0x12, 0xFF⟩

/-- A request's bits as the table numbers them: a host call's tag, a bus word's 10 bits, a nibble cycle's 6. -/
def tableBits (q : Request) : Nat :=
  match q.format, q.bytes with
  | .bw10, low :: high :: _ => low.toNat + 256 * high.toNat
  | _, b :: _ => b.toNat
  | _, [] => 0

/-- The encoding matches the instruction's row. -/
def Statement (i : Instr) : Prop :=
  i.wf = true → (encode i).format = (row i).format ∧ tableBits (encode i) &&& (row i).mask = (row i).pattern

theorem cmdClear : Statement .cmdClear := fun _ => by decide
theorem cmdHome : Statement .cmdHome := fun _ => by decide
theorem cmdEntryMode (a b : Bool) : Statement (.cmdEntryMode a b) := fun _ => by cases a <;> cases b <;> decide
theorem cmdDisplayControl (a b c : Bool) : Statement (.cmdDisplayControl a b c) := fun _ => by
  cases a <;> cases b <;> cases c <;> decide
theorem cmdShift (a b : Bool) : Statement (.cmdShift a b) := fun _ => by cases a <;> cases b <;> decide
theorem cmdFunctionSet (a b c : Bool) : Statement (.cmdFunctionSet a b c) := fun _ => by
  cases a <;> cases b <;> cases c <;> decide

/-- The statement of a bus word with a byte operand, one byte at a time. -/
theorem bytes_of_forall (f : Byte → Instr)
    (h : ∀ n : Fin 256, ((encode (f (BitVec.ofFin n))).format = (row (f (BitVec.ofFin n))).format ∧
      tableBits (encode (f (BitVec.ofFin n))) &&& (row (f (BitVec.ofFin n))).mask = (row (f (BitVec.ofFin n))).pattern))
    (a : Byte) : Statement (f a) := fun _ => h a.toFin

theorem cmdSetCgram (addr : Byte) : Statement (.cmdSetCgram addr) := bytes_of_forall .cmdSetCgram (by decide +kernel) addr
theorem cmdSetDdram (addr : Byte) : Statement (.cmdSetDdram addr) := bytes_of_forall .cmdSetDdram (by decide +kernel) addr
theorem data (byte : Byte) : Statement (.data byte) := bytes_of_forall .data (by decide +kernel) byte
theorem nibPrime3 : Statement .nibPrime3 := fun _ => by decide
theorem nibPrime2 : Statement .nibPrime2 := fun _ => by decide
theorem init (bus : BusDescriptor) (width : Byte) (bus8 : Bool) (lineCount : Byte) (bigFont : Bool) :
    Statement (.init bus width bus8 lineCount bigFont) := fun _ => ⟨rfl, by simp [tableBits, encode, row]⟩
theorem clear : Statement .clear := fun _ => ⟨rfl, by simp [tableBits, encode, row]⟩
theorem home : Statement .home := fun _ => ⟨rfl, by simp [tableBits, encode, row]⟩
theorem entryModeSet (a b : Bool) : Statement (.entryModeSet a b) := fun _ => ⟨rfl, by simp [tableBits, encode, row]⟩
theorem displayControl (a b c : Bool) : Statement (.displayControl a b c) := fun _ => ⟨rfl, by simp [tableBits, encode, row]⟩
theorem cursorControl (a b : Bool) : Statement (.cursorControl a b) := fun _ => ⟨rfl, by simp [tableBits, encode, row]⟩
theorem functionSet (a : Bool) (b : Byte) (c : Bool) : Statement (.functionSet a b c) := fun _ => ⟨rfl, by simp [tableBits, encode, row]⟩
theorem setCgramAddress (a : Byte) : Statement (.setCgramAddress a) := fun _ => ⟨rfl, by simp [tableBits, encode, row]⟩
theorem setDdramAddress (a : Byte) : Statement (.setDdramAddress a) := fun _ => ⟨rfl, by simp [tableBits, encode, row]⟩
theorem putChar (a : Byte) : Statement (.putChar a) := fun _ => ⟨rfl, by simp [tableBits, encode, row]⟩
theorem putCharAt (a b c : Byte) : Statement (.putCharAt a b c) := fun _ => ⟨rfl, by simp [tableBits, encode, row]⟩
theorem formatted (t : List Byte) : Statement (.formatted t) := fun _ => ⟨rfl, by simp [tableBits, encode, row]⟩
theorem formattedAt (a b : Byte) (t : List Byte) : Statement (.formattedAt a b t) := fun _ => ⟨rfl, by simp [tableBits, encode, row]⟩
theorem defineChar (a : Byte) (p : List Byte) (n : Byte) : Statement (.defineChar a p n) := fun _ => ⟨rfl, by simp [tableBits, encode, row]⟩
theorem isBusy : Statement .isBusy := fun _ => ⟨rfl, by simp [tableBits, encode, row]⟩
theorem moveTo (a b : Byte) : Statement (.moveTo a b) := fun _ => ⟨rfl, by simp [tableBits, encode, row]⟩
theorem newline : Statement .newline := fun _ => ⟨rfl, by simp [tableBits, encode, row]⟩
theorem write (a : Bool) (b : Byte) : Statement (.write a b) := fun _ => ⟨rfl, by simp [tableBits, encode, row]⟩

end Sys2Proof.Laws.TableRow
end

