-- ==== Sys2Proof/Laws/Script.lean ====
section
/-! SUPPORT. What a step can do, said once: any next state is reached by a script of seven kinds of action. An invariant of every
step is then an invariant of every action. -/

namespace Sys2Proof.Machine

/-- The actions every operation is made of. -/
inductive Act where
  | clk (role : LineRole)
  | low (role : LineRole)
  | out (role : LineRole)
  | cycle (phase : SetupPhase) (pairs : List (LineRole × Bool))
  | delay (units : Nat)
  | place (col row : Nat)
  deriving DecidableEq, Repr

/-- What an action does. -/
def Act.run : Act → State → State
  | .clk role, s => Machine.clk role s
  | .low role, s => drv role false s
  | .out role, s => Machine.out role s
  | .cycle phase pairs, s => pulse (setup phase pairs s)
  | .delay units, s => dly units s
  | .place col row, s => setCursor col row s

/-- The events an action appends. -/
def Act.events (bus : BusDescriptor) : Act → List Event
  | .clk role => [.clk role (roleGet bus role)]
  | .low role => [.drv role (roleGet bus role) false]
  | .out role => [.out role (roleGet bus role)]
  | .cycle phase pairs => cycleEvents phase pairs bus
  | .delay units => [.dly units]
  | .place _ _ => []

/-- The actions an operation in this mode may have: only used roles, RNW never high, E in no setup phase, delays of the table. -/
def Act.Ok (mode : BusMode) : Act → Prop
  | .clk role => role ∈ usedRoles mode
  | .low role => role ∈ usedRoles mode
  | .out role => role ∈ usedRoles mode
  | .cycle _ pairs => GoodPairs pairs ∧ ∀ p ∈ pairs, p.1 ∈ usedRoles mode ∧ (p.1 = .rnw → p.2 = false)
  | .delay units => units = 1 ∨ units = 2 ∨ units = 15 ∨ units = 40
  | .place _ _ => True

/-- A script run from a state. -/
def runActs (acts : List Act) (s : State) : State := acts.foldl (fun s a => a.run s) s

/-- `t` is reached from `s` by a script of actions allowed in `mode`. -/
def Scripted (mode : BusMode) (s t : State) : Prop := ∃ acts : List Act, (∀ a ∈ acts, a.Ok mode) ∧ t = runActs acts s

theorem Scripted.refl (mode : BusMode) (s : State) : Scripted mode s s := ⟨[], by simp, rfl⟩

theorem Scripted.trans {mode : BusMode} {s t u : State} (h : Scripted mode s t) (k : Scripted mode t u) : Scripted mode s u := by
  obtain ⟨a, okA, rfl⟩ := h
  obtain ⟨b, okB, rfl⟩ := k
  refine ⟨a ++ b, ?_, by simp [runActs]⟩
  intro x hx
  rcases List.mem_append.mp hx with hx | hx
  · exact okA x hx
  · exact okB x hx

theorem Scripted.act {mode : BusMode} (a : Act) (ok : a.Ok mode) (s : State) : Scripted mode s (a.run s) :=
  ⟨[a], by simpa using ok, rfl⟩

/-! ### What an action changes -/

theorem Act.run_life (a : Act) (s : State) : (a.run s).life = s.life := by cases a <;> simp [Act.run]
theorem Act.run_mode (a : Act) (s : State) : (a.run s).mode = s.mode := by cases a <;> simp [Act.run]
theorem Act.run_width (a : Act) (s : State) : (a.run s).width = s.width := by cases a <;> simp [Act.run]
theorem Act.run_bus (a : Act) (s : State) : (a.run s).bus = s.bus := by cases a <;> simp [Act.run]
theorem Act.run_outcome (a : Act) (s : State) : (a.run s).outcome = s.outcome := by cases a <;> simp [Act.run]
theorem Act.run_calls (a : Act) (s : State) : (a.run s).calls = s.calls := by cases a <;> simp [Act.run]
theorem Act.run_trace (a : Act) (s : State) : (a.run s).trace = s.trace ++ a.events s.bus := by
  cases a <;> simp [Act.run, Act.events, cycleEvents, driveEvents, pulseEvents]

theorem Act.run_lvl (mode : BusMode) (a : Act) (ok : a.Ok mode) (s : State) :
    (a.run s).lvl = levelsAfter s.lvl (a.events s.bus) := by
  cases a with
  | cycle ph ps => rw [Act.events, levelsAfter_cycleEvents ph ps s.bus ok.1.1]; rfl
  | _ => rfl

theorem Act.run_cfg (a : Act) (s : State) : (a.run s).cfg = configsAfter s.cfg (a.events s.bus) := by
  cases a with
  | cycle ph ps =>
    rw [Act.events, cycleEvents, configsAfter_append, configsAfter_driveEvents]; rfl
  | _ => rfl

/-- A property that every allowed action keeps is kept by every script. -/
theorem runActs_induction {mode : BusMode} (P : State → Prop) (keeps : ∀ a : Act, a.Ok mode → ∀ s, P s → P (a.run s))
    (acts : List Act) (ok : ∀ a ∈ acts, a.Ok mode) (s : State) (h : P s) : P (runActs acts s) := by
  induction acts generalizing s with
  | nil => exact h
  | cons a rest ih =>
    exact ih (fun x hx => ok x (List.mem_cons_of_mem a hx)) _ (keeps a (ok a (List.mem_cons_self ..)) s h)

/-- The events a whole script appends. -/
def actsEvents (bus : BusDescriptor) (acts : List Act) : List Event := acts.flatMap (Act.events bus)

theorem runActs_fields (mode : BusMode) (acts : List Act) (ok : ∀ a ∈ acts, a.Ok mode) (s : State) :
    runActs acts s = { s with
      cursor := (runActs acts s).cursor
      trace := s.trace ++ actsEvents s.bus acts
      lvl := levelsAfter s.lvl (actsEvents s.bus acts)
      cfg := configsAfter s.cfg (actsEvents s.bus acts) } := by
  induction acts generalizing s with
  | nil => simp [runActs, actsEvents, levelsAfter, configsAfter]
  | cons a rest ih =>
    have okRest : ∀ x ∈ rest, x.Ok mode := fun x hx => ok x (List.mem_cons_of_mem a hx)
    have step : runActs (a :: rest) s = runActs rest (a.run s) := rfl
    rw [step, ih okRest]
    simp only [Act.run_life, Act.run_mode, Act.run_width, Act.run_bus, Act.run_outcome, Act.run_calls, Act.run_trace,
      Act.run_lvl mode a (ok a (List.mem_cons_self ..)), Act.run_cfg, actsEvents, List.flatMap_cons, List.append_assoc,
      levelsAfter_append, configsAfter_append]

/-! ### Every shared operation is a script -/

theorem select_ok (mode : BusMode) (d : Bool) : ∀ p ∈ selectPairs d, p.1 ∈ usedRoles mode ∧ (p.1 = .rnw → p.2 = false) := by
  cases mode <;> simp [selectPairs, usedRoles]

theorem nibblePairs_ok (mode : BusMode) (n : BitVec 4) :
    ∀ p ∈ nibblePairs n, p.1 ∈ usedRoles mode ∧ (p.1 = .rnw → p.2 = false) := by
  cases mode <;> simp [nibblePairs, usedRoles]

theorem bytePairs_ok (b : Byte) : ∀ p ∈ bytePairs b, p.1 ∈ usedRoles .bus8 ∧ (p.1 = .rnw → p.2 = false) := by
  simp [bytePairs, usedRoles]

theorem nibble_scripted (mode : BusMode) (n : BitVec 4) (s : State) : Scripted mode s (nibble n s) :=
  Scripted.act (.cycle .loneNibble (nibblePairs n)) ⟨goodPairs_nibble n, nibblePairs_ok mode n⟩ s

theorem dly_scripted (mode : BusMode) (n : Nat) (h : n = 1 ∨ n = 2 ∨ n = 15 ∨ n = 40) (s : State) : Scripted mode s (dly n s) :=
  Scripted.act (.delay n) h s

theorem setCursor_scripted (mode : BusMode) (c r : Nat) (s : State) : Scripted mode s (setCursor c r s) :=
  Scripted.act (.place c r) trivial s

theorem writeByte_scripted (d : Bool) (b : Byte) (s : State) : Scripted s.mode s (writeByte d b s) := by
  unfold writeByte
  split
  · rename_i mode
    rw [mode]
    refine Scripted.act (.cycle .write8 (selectPairs d ++ bytePairs b)) ⟨goodPairs_byte d b, ?_⟩ s
    intro p hp
    rcases List.mem_append.mp hp with hp | hp
    · exact select_ok .bus8 d p hp
    · exact bytePairs_ok b p hp
  · rename_i mode
    rw [mode]
    refine (Scripted.act (.cycle .write4High (selectPairs d ++ nibblePairs (highNibble b)))
      ⟨goodPairs_select_nibble d _, ?_⟩ s).trans
      (Scripted.act (.cycle .write4Low (nibblePairs (lowNibble b))) ⟨goodPairs_nibble _, nibblePairs_ok .bus4 _⟩ _)
    intro p hp
    rcases List.mem_append.mp hp with hp | hp
    · exact select_ok .bus4 d p hp
    · exact nibblePairs_ok .bus4 _ p hp

theorem sendCommand_scripted (w : Byte) (s : State) : Scripted s.mode s (sendCommand w s) := writeByte_scripted false w s

theorem moveCursor_scripted (c r : Nat) (s : State) : Scripted s.mode s (moveCursor c r s) :=
  (setCursor_scripted s.mode _ _ s).trans (sendCommand_scripted _ (setCursor _ _ s))

theorem lineFeed_scripted (s : State) : Scripted s.mode s (lineFeed s) := moveCursor_scripted _ _ s

theorem clearDisplay_scripted (s : State) : Scripted s.mode s (clearDisplay s) :=
  (setCursor_scripted s.mode 0 0 s).trans (sendCommand_scripted _ (setCursor 0 0 s))

theorem returnHome_scripted (s : State) : Scripted s.mode s (returnHome s) :=
  ((setCursor_scripted s.mode 0 0 s).trans (sendCommand_scripted _ (setCursor 0 0 s))).trans
    (dly_scripted s.mode Config.tHome (by decide) _)

theorem emitChar_scripted (code : Byte) (s : State) : Scripted s.mode s (emitChar code s) := by
  have h := writeByte_scripted true (remapCode code) s
  have k := moveCursor_scripted ((writeByte true (remapCode code) s).cursor.col.toNat + 1)
    (writeByte true (remapCode code) s).cursor.row.toNat (writeByte true (remapCode code) s)
  rw [(writeByte_sameButBus true (remapCode code) s).mode] at k
  exact h.trans k

theorem emitTextByte_scripted (s : State) (c : Byte) : Scripted s.mode s (emitTextByte s c) := by
  unfold emitTextByte
  split
  · exact lineFeed_scripted s
  · exact emitChar_scripted c s

/-- A loop of scripts that keep the mode is a script. -/
theorem foldl_scripted {α : Type} (f : State → α → State) (step : ∀ s a, Scripted s.mode s (f s a))
    (mode : ∀ s a, (f s a).mode = s.mode) (l : List α) (s : State) : Scripted s.mode s (l.foldl f s) := by
  induction l generalizing s with
  | nil => exact Scripted.refl _ s
  | cons a rest ih =>
    have k := ih (f s a)
    rw [mode] at k
    exact (step s a).trans k

theorem emitTextByte_mode (s : State) (c : Byte) : (emitTextByte s c).mode = s.mode := by
  unfold emitTextByte
  split
  · exact (lineFeed_movesAndSends s).2.mode
  · exact (emitChar_movesAndSends c s).2.mode

theorem emitText_scripted (text : List Byte) (s : State) : Scripted s.mode s (emitText text s) :=
  foldl_scripted emitTextByte emitTextByte_scripted emitTextByte_mode _ s

theorem streamData_scripted (bytes : List Byte) (s : State) : Scripted s.mode s (streamData bytes s) :=
  foldl_scripted _ (fun s b => writeByte_scripted true b s) (fun s b => (writeByte_sameButBus true b s).mode) bytes s

/-! ### INIT is a script after its record -/

theorem configureAll_scripted (mode : BusMode) (roles : List LineRole) (used : ∀ r ∈ roles, r ∈ usedRoles mode) (s : State) :
    Scripted mode s (roles.foldl configureLine s) := by
  induction roles generalizing s with
  | nil => exact Scripted.refl mode s
  | cons r rest ih =>
    have u := used r (List.mem_cons_self ..)
    have one : Scripted mode s (configureLine s r) :=
      ((Scripted.act (.clk r) u s).trans (Scripted.act (.low r) u _)).trans (Scripted.act (.out r) u _)
    exact one.trans (ih (fun x hx => used x (List.mem_cons_of_mem r hx)) _)

theorem primeRepeat_scripted (mode : BusMode) (n : Nat) (s : State) : Scripted mode s (primeRepeat n s) := by
  induction n generalizing s with
  | zero => exact Scripted.refl mode s
  | succ n ih =>
    exact ((nibble_scripted mode _ s).trans (dly_scripted mode Config.tPrime (by decide) _)).trans (ih _)

theorem initPrime_scripted (mode : BusMode) (s : State) : Scripted mode s (initPrime s) := by
  unfold initPrime
  have settle := dly_scripted mode Config.tPowerup (by decide) s
  simp only [dly_mode]
  split
  · exact settle
  · exact (settle.trans (primeRepeat_scripted mode _ _)).trans (nibble_scripted mode _ _)

theorem Scripted.thenOp {s t u : State} (h : Scripted s.mode s t) (mode : t.mode = s.mode) (k : Scripted t.mode t u) :
    Scripted s.mode s u := by rw [mode] at k; exact h.trans k

theorem initWords_scripted (lineCount : Byte) (s : State) : Scripted s.mode s (initWords lineCount s) := by
  unfold initWords
  have c := fun w s => (sendCommand_sameButBus w s).mode
  refine Scripted.thenOp (Scripted.thenOp (Scripted.thenOp (Scripted.thenOp (Scripted.thenOp
    (sendCommand_scripted _ s) (c _ s) (sendCommand_scripted _ _)) ?_ (sendCommand_scripted _ _)) ?_
    (sendCommand_scripted _ _)) ?_ (clearDisplay_scripted _)) ?_ (returnHome_scripted _)
  · simp only [c]
  · simp only [c]
  · simp only [c]
  · rw [(clearDisplay_movesAndSends _).2.mode]; simp only [c]

/-! ### Every next state of every instruction -/

/-- How a next state is reached from a state: a script, and for INIT its record before it. -/
structure Reached (i : Instr) (s t : State) (base : State) : Prop where
  alive    : s.life ≠ .halted
  mode     : base.mode = t.mode
  script   : ∃ acts : List Act, (∀ a ∈ acts, a.Ok t.mode) ∧
    t = { runActs acts base with life := t.life, outcome := t.outcome }
  origin   : (∃ bus width bus8 lineCount bigFont, i = .init bus width bus8 lineCount bigFont ∧ width ≠ 0 ∧
      base = initRecord bus width bus8 s) ∨
    ((∀ bus width bus8 lineCount bigFont, i ≠ .init bus width bus8 lineCount bigFont) ∧ base = s ∧ t.life = s.life)

theorem Reached.ofScripted {i : Instr} {s u : State} {outcome : OpOutcome} (h : Scripted s.mode s u)
    (alive : s.life ≠ .halted) (notInit : ∀ bus width bus8 lineCount bigFont, i ≠ .init bus width bus8 lineCount bigFont) :
    Reached i s { u with outcome := outcome } s := by
  obtain ⟨acts, ok, rfl⟩ := h
  have f := runActs_fields s.mode acts ok s
  have mode : (runActs acts s).mode = s.mode := by rw [f]
  have life : (runActs acts s).life = s.life := by rw [f]
  exact ⟨alive, mode.symm, ⟨acts, by simpa only [mode] using ok, rfl⟩, .inr ⟨notInit, rfl, life⟩⟩

theorem Reached.ofHostOp {i : Instr} {effect : State → State} {s t : State} (h : hostOp effect s = .next t)
    (script : Scripted s.mode s (effect s))
    (notInit : ∀ bus width bus8 lineCount bigFont, i ≠ .init bus width bus8 lineCount bigFont) : Reached i s t s := by
  obtain ⟨ready, rfl⟩ := hostOp_next.mp h
  exact Reached.ofScripted script (by rw [ready]; decide) notInit

theorem Reached.ofBusOp {i : Instr} {effect : State → State} {s t : State} (h : busOp effect s = .next t)
    (script : Scripted s.mode s (effect s))
    (notInit : ∀ bus width bus8 lineCount bigFont, i ≠ .init bus width bus8 lineCount bigFont) : Reached i s t s := by
  obtain ⟨alive, rfl⟩ := busOp_next.mp h
  exact Reached.ofScripted script alive notInit

theorem init_reached {bus : BusDescriptor} {width : Byte} {bus8 : Bool} {lineCount : Byte} {bigFont : Bool} {s t : State}
    (h : execInit bus width bus8 lineCount bigFont s = .next t) :
    Reached (.init bus width bus8 lineCount bigFont) s t (initRecord bus width bus8 s) := by
  obtain ⟨alive, widthOk, distinct⟩ := execInit_next_accepted h
  rw [execInit_accepted bus width bus8 lineCount bigFont s alive widthOk distinct] at h
  have roles : ∀ r ∈ initRoles bus8, r ∈ usedRoles (modeOf bus8) := by rw [usedRoles_modeOf]; exact fun r hr => hr
  split at h
  · rename_i before role found
    simp only [raiseHalt, Host.Outcome.next.injEq] at h
    obtain ⟨⟨after, split⟩, -, -⟩ := firstBadPort_eq_some bus _ before role found
    have usedRole : role ∈ usedRoles (modeOf bus8) := roles role (by rw [split]; simp)
    have s1 := configureAll_scripted (modeOf bus8) before (fun r hr => roles r (by rw [split]; simp [hr]))
      (initRecord bus width bus8 s)
    obtain ⟨acts, ok, e⟩ := s1.trans (Scripted.act (.clk role) usedRole _)
    have mode : t.mode = modeOf bus8 := by
      rw [← h, configureAll_eq]
      rfl
    refine ⟨alive, mode.symm, ⟨acts, by rw [mode]; exact ok, ?_⟩, .inl ⟨bus, width, bus8, lineCount, bigFont, rfl, widthOk, rfl⟩⟩
    rw [← e, ← h]
    rfl
  · simp only [finish, Host.Outcome.next.injEq] at h
    have s1 := configureAll_scripted (modeOf bus8) (initRoles bus8) roles (initRecord bus width bus8 s)
    have m1 : ((initRoles bus8).foldl configureLine (initRecord bus width bus8 s)).mode = modeOf bus8 := by
      rw [configureAll_eq]; rfl
    have s2 := s1.trans (initPrime_scripted (modeOf bus8) _)
    have m2 := (initPrime_sameButBus ((initRoles bus8).foldl configureLine (initRecord bus width bus8 s))).mode.trans m1
    have s3 := initWords_scripted lineCount (initPrime ((initRoles bus8).foldl configureLine (initRecord bus width bus8 s)))
    rw [m2] at s3
    obtain ⟨acts, ok, e⟩ := s2.trans s3
    have m3 := (initWords_spec lineCount (initPrime ((initRoles bus8).foldl configureLine (initRecord bus width bus8 s)))).2.mode
    have mode : t.mode = modeOf bus8 := by
      rw [← h]
      exact m3.trans m2
    refine ⟨alive, mode.symm, ⟨acts, by rw [mode]; exact ok, ?_⟩, .inl ⟨bus, width, bus8, lineCount, bigFont, rfl, widthOk, rfl⟩⟩
    rw [← e, ← h]
    rfl

/-- What a next state can be, for every instruction. -/
theorem exec_reached {i : Instr} {s t : State} (h : exec i s = .next t) : ∃ base, Reached i s t base := by
  cases i with
  | init bus width bus8 lineCount bigFont => exact ⟨_, init_reached h⟩
  | cmdClear => exact ⟨s, .ofBusOp h (sendCommand_scripted _ s) (by simp)⟩
  | cmdHome => exact ⟨s, .ofBusOp h (sendCommand_scripted _ s) (by simp)⟩
  | cmdEntryMode _ _ => exact ⟨s, .ofBusOp h (sendCommand_scripted _ s) (by simp)⟩
  | cmdDisplayControl _ _ _ => exact ⟨s, .ofBusOp h (sendCommand_scripted _ s) (by simp)⟩
  | cmdShift _ _ => exact ⟨s, .ofBusOp h (sendCommand_scripted _ s) (by simp)⟩
  | cmdFunctionSet _ _ _ => exact ⟨s, .ofBusOp h (sendCommand_scripted _ s) (by simp)⟩
  | cmdSetCgram _ => exact ⟨s, .ofBusOp h (sendCommand_scripted _ s) (by simp)⟩
  | cmdSetDdram _ => exact ⟨s, .ofBusOp h (sendCommand_scripted _ s) (by simp)⟩
  | data byte => exact ⟨s, .ofBusOp h (writeByte_scripted _ _ s) (by simp)⟩
  | nibPrime3 => exact ⟨s, .ofBusOp h (nibble_scripted _ _ s) (by simp)⟩
  | nibPrime2 => exact ⟨s, .ofBusOp h (nibble_scripted _ _ s) (by simp)⟩
  | clear => exact ⟨s, .ofHostOp h (clearDisplay_scripted s) (by simp)⟩
  | home => exact ⟨s, .ofHostOp h (returnHome_scripted s) (by simp)⟩
  | entryModeSet _ _ => exact ⟨s, .ofHostOp h (sendCommand_scripted _ s) (by simp)⟩
  | displayControl _ _ _ => exact ⟨s, .ofHostOp h (sendCommand_scripted _ s) (by simp)⟩
  | cursorControl _ _ => exact ⟨s, .ofHostOp h (sendCommand_scripted _ s) (by simp)⟩
  | functionSet _ _ _ => exact ⟨s, .ofHostOp h (sendCommand_scripted _ s) (by simp)⟩
  | setCgramAddress _ => exact ⟨s, .ofHostOp h (sendCommand_scripted _ s) (by simp)⟩
  | setDdramAddress _ => exact ⟨s, .ofHostOp h (sendCommand_scripted _ s) (by simp)⟩
  | putChar code => exact ⟨s, .ofHostOp h (emitChar_scripted code s) (by simp)⟩
  | putCharAt col row code =>
    exact ⟨s, .ofHostOp (effect := fun s => emitChar code (moveCursor col.toNat row.toNat s)) h
      (Scripted.thenOp (moveCursor_scripted _ _ s) (moveCursor_movesAndSends _ _ s).2.mode (emitChar_scripted code _)) (by simp)⟩
  | formatted text => exact ⟨s, .ofHostOp h (emitText_scripted text s) (by simp)⟩
  | formattedAt col row text =>
    exact ⟨s, .ofHostOp (effect := fun s => emitText text (moveCursor col.toNat row.toNat s)) h
      (Scripted.thenOp (moveCursor_scripted _ _ s) (moveCursor_movesAndSends _ _ s).2.mode (emitText_scripted text _)) (by simp)⟩
  | defineChar addr pattern size =>
    obtain ⟨ready, -, rfl⟩ := execDefineChar_next.mp h
    exact ⟨s, .ofScripted (Scripted.thenOp (sendCommand_scripted _ s) (sendCommand_sameButBus _ s).mode
      (streamData_scripted _ _)) (by rw [ready]; decide) (by simp)⟩
  | isBusy =>
    obtain ⟨ready, rfl⟩ := execIsBusy_next.mp h
    exact ⟨s, .ofScripted (dly_scripted s.mode Config.tBusy (by decide) s) (by rw [ready]; decide) (by simp)⟩
  | moveTo col row => exact ⟨s, .ofHostOp h (moveCursor_scripted _ _ s) (by simp)⟩
  | newline => exact ⟨s, .ofHostOp h (lineFeed_scripted s) (by simp)⟩
  | write isData byte => exact ⟨s, .ofHostOp h (writeByte_scripted _ _ s) (by simp)⟩

/-- A next state by its fields: what a script of allowed actions appended to the trace decides the levels and configurations. -/
theorem exec_fields {i : Instr} {s t : State} (h : exec i s = .next t) :
    ∃ base acts, Reached i s t base ∧ (∀ a ∈ acts, a.Ok t.mode) ∧ t.bus = base.bus ∧ t.width = base.width ∧ t.calls = s.calls ∧
      t.trace = s.trace ++ actsEvents t.bus acts ∧ t.lvl = levelsAfter s.lvl (actsEvents t.bus acts) ∧
      t.cfg = configsAfter s.cfg (actsEvents t.bus acts) ∧ t.cursor = (runActs acts base).cursor := by
  obtain ⟨base, r⟩ := exec_reached h
  obtain ⟨acts, ok, e⟩ := r.script
  have f := runActs_fields t.mode acts ok base
  have same : base.trace = s.trace ∧ base.lvl = s.lvl ∧ base.cfg = s.cfg ∧ base.calls = s.calls := by
    rcases r.origin with ⟨_, _, _, _, _, _, _, rfl⟩ | ⟨_, rfl, _⟩ <;> exact ⟨rfl, rfl, rfl, rfl⟩
  have bus : t.bus = base.bus := by rw [e, f]
  refine ⟨base, acts, r, ok, bus, by rw [e, f], by rw [e, f]; exact same.2.2.2, ?_, ?_, ?_, by rw [e]⟩
  · rw [e, f, same.1]
  · rw [e, f, same.2.1]
  · rw [e, f, same.2.2.1]

end Sys2Proof.Machine
end

