-- ==== Sys2Proof/Tests/Slice0.lean ====
section
/-! SUPPORT. The model's own tests. Expected results are written out from 30_encoding.md, 10_state.md and 95_test_vectors.md; the witnesses
at the end meet the hypotheses of the statements in Certificates/Slice0/Obligations.lean. -/

namespace Sys2Proof.Tests

open Sys2Proof Sys2Proof.Machine

/-! ### WellFormed refuses what cannot be written down (30_encoding.md R310) -/

theorem test_wf_cgram_7_bits_refused : (Instr.cmdSetCgram 0x40).wf = false := by decide
theorem test_wf_ddram_8_bits_refused : (Instr.cmdSetDdram 0x80).wf = false := by decide
theorem test_wf_largest_addresses : (Instr.cmdSetCgram 0x3F).wf = true ∧ (Instr.cmdSetDdram 0x7F).wf = true := by decide

/-! ### Decoding: a word written out from the spec's encoding, for every row of the table -/

-- 30_encoding.md R310: pattern 00000001, and 00000010
theorem test_decode_cmdClear : decodeWord 0b0000000001 = .ok .cmdClear := by decide
theorem test_decode_cmdHome : decodeWord 0b0000000010 = .ok .cmdHome := by decide
-- 000001IS with I = 1, S = 0, and with I = 0, S = 1
theorem test_decode_cmdEntryMode : decodeWord 0b0000000110 = .ok (.cmdEntryMode true false) ∧
    decodeWord 0b0000000101 = .ok (.cmdEntryMode false true) := by decide
-- 00001DCB with D, C, B alone
theorem test_decode_cmdDisplayControl : decodeWord 0b0000001100 = .ok (.cmdDisplayControl true false false) ∧
    decodeWord 0b0000001010 = .ok (.cmdDisplayControl false true false) ∧
    decodeWord 0b0000001001 = .ok (.cmdDisplayControl false false true) := by decide
-- 0001PR00 with P alone, R alone
theorem test_decode_cmdShift : decodeWord 0b0000011000 = .ok (.cmdShift true false) ∧
    decodeWord 0b0000010100 = .ok (.cmdShift false true) := by decide
-- 001LNF00 with L, N, F alone
theorem test_decode_cmdFunctionSet : decodeWord 0b0000110000 = .ok (.cmdFunctionSet true false false) ∧
    decodeWord 0b0000101000 = .ok (.cmdFunctionSet false true false) ∧
    decodeWord 0b0000100100 = .ok (.cmdFunctionSet false false true) := by decide
-- 01AAAAAA with A = 101010, and 1AAAAAAA with A = 1000101
theorem test_decode_cmdSetCgram : decodeWord 0b0001101010 = .ok (.cmdSetCgram 0b101010) := by decide
theorem test_decode_cmdSetDdram : decodeWord 0b0011000101 = .ok (.cmdSetDdram 0b1000101) := by decide
-- R315: {1, 0, b}
theorem test_decode_data : decodeWord 0b1010100101 = .ok (.data 0xA5) := by decide
-- R303: {0, 0, 0x3} and {0, 0, 0x2}; R322: with RS = 1 no nibble of the table
theorem test_decode_nibPrime3 : decodeNibble 0b000011 = .ok .nibPrime3 := by decide
theorem test_decode_nibPrime2 : decodeNibble 0b000010 = .ok .nibPrime2 := by decide
theorem test_decode_nibble_rs_refused : decodeNibble 0b100011 = .error .notEmitted := by decide
-- R322
theorem test_decode_never_sent : decodeWord 0b0100000001 = .error .notEmitted ∧ decodeWord 0b0000000011 = .error .notEmitted ∧
    decodeWord 0b0000010001 = .error .notEmitted ∧ decodeWord 0b0000111111 = .error .notEmitted := by decide

/-- A host call's bytes: its tag and then its operands (log 3). -/
def call (bytes : List Byte) : Except DecodeError Instr := decode ⟨.hostOp, bytes⟩

-- 30_encoding.md R330: tags 0x00 to 0x12
theorem test_decode_init : call ([0x00] ++ [1, 10, 1, 11, 1, 12, 2, 7, 2, 6, 2, 5, 2, 4, 2, 3, 2, 2, 2, 1, 2, 0] ++ [16, 0, 2, 1]) =
    .ok (.init ⟨⟨1, 10⟩, ⟨1, 11⟩, ⟨1, 12⟩, ⟨2, 7⟩, ⟨2, 6⟩, ⟨2, 5⟩, ⟨2, 4⟩, ⟨2, 3⟩, ⟨2, 2⟩, ⟨2, 1⟩, ⟨2, 0⟩⟩ 16 false 2 true) := by decide
theorem test_decode_clear : call [0x01] = .ok .clear := by decide
theorem test_decode_home : call [0x02] = .ok .home := by decide
theorem test_decode_entryModeSet : call [0x03, 1, 0] = .ok (.entryModeSet true false) := by decide
theorem test_decode_displayControl : call [0x04, 1, 0, 0] = .ok (.displayControl true false false) := by decide
theorem test_decode_cursorControl : call [0x05, 0, 1] = .ok (.cursorControl false true) := by decide
theorem test_decode_functionSet : call [0x06, 0, 2, 1] = .ok (.functionSet false 2 true) := by decide
theorem test_decode_setCgramAddress : call [0x07, 8] = .ok (.setCgramAddress 8) := by decide
theorem test_decode_setDdramAddress : call [0x08, 0x40] = .ok (.setDdramAddress 0x40) := by decide
theorem test_decode_putChar : call [0x09, 0x41] = .ok (.putChar 0x41) := by decide
theorem test_decode_putCharAt : call [0x0A, 15, 0, 0x58] = .ok (.putCharAt 15 0 0x58) := by decide
theorem test_decode_formatted : call [0x0B, 1, 0x48, 1, 0x69, 0] = .ok (.formatted [0x48, 0x69]) := by decide
theorem test_decode_formattedAt : call [0x0C, 3, 1, 0] = .ok (.formattedAt 3 1 []) := by decide
theorem test_decode_defineChar : call [0x0D, 8, 1, 0x1F, 1, 0x11, 0, 2] = .ok (.defineChar 8 [0x1F, 0x11] 2) := by decide
theorem test_decode_isBusy : call [0x0E] = .ok .isBusy := by decide
theorem test_decode_moveTo : call [0x10, 19, 1] = .ok (.moveTo 19 1) := by decide
theorem test_decode_newline : call [0x11] = .ok .newline := by decide
theorem test_decode_write : call [0x12, 1, 0xA5] = .ok (.write true 0xA5) := by decide
-- R331: tags 0x0F and 0x13; malformed calls (log 3)
theorem test_decode_bad_tags : call [0x0F] = .error (.badOpcode 0x0F) ∧ call [0x13] = .error (.badOpcode 0x13) := by decide
theorem test_decode_malformed : call [0x09] = .error .truncated ∧ call [0x03, 2, 0] = .error .badOperand ∧
    call [0x01, 0] = .error .trailingBytes := by decide
-- the table's numbering (log 5): a BW10 row in two bytes, a host tag with zero operands
theorem test_tableWord : decodeTableWord 16 0x2A5 = some (.data 0xA5) ∧ decodeTableWord 10 0x001 = some .cmdClear ∧
    decodeTableWord 8 0x12 = some (.write false 0) ∧ decodeTableWord 6 0x03 = some .nibPrime3 := by decide

/-! ### Steps -/

/-- A bus descriptor with 11 distinct lines. -/
def wires : BusDescriptor :=
  ⟨⟨1, 10⟩, ⟨1, 11⟩, ⟨1, 12⟩, ⟨2, 7⟩, ⟨2, 6⟩, ⟨2, 5⟩, ⟨2, 4⟩, ⟨2, 3⟩, ⟨2, 2⟩, ⟨2, 1⟩, ⟨2, 0⟩⟩

/-- A READY state as INIT leaves it (44_init_status.md R607), with this width and cursor. -/
def ready (mode : BusMode) (width col row : Byte) : State :=
  let l := some false
  let o := LineConfig.output
  { State.reset with
    life := .ready, mode := mode, width := width, bus := wires, cursor := ⟨col, row⟩
    lvl := ⟨l, l, l, l, l, l, l, l, l, l, l⟩
    cfg := ⟨o, o, o, o, o, o, o, o, o, o, o⟩ }

/-- A READY state with a pending call. -/
def readyWith (mode : BusMode) (bytes : List Byte) : State := { ready mode 16 0 0 with calls := [⟨.hostOp, bytes⟩] }

/-- The power-on state with the lone nibble 0x3 pending. -/
def resetWithNibble : State := { State.reset with calls := [⟨.nib6, [0x03]⟩] }

/-- A halted state. -/
def haltedState : State := { State.reset with life := .halted }

/-- What a step's next state shows. -/
def shown {α : Type} (a : Answer) (f : State → α) : Option α :=
  match a with
  | .next t => some (f t)
  | .fault _ => none
  | .refused _ => none

/-- The cursor and the lines after a BUS8 word: cursor, RS, RNW and DB7..DB0. -/
def cursorAndLines (t : State) : Cursor × BusCycle := (t.cursor, sampleCycle .bus8 t.lvl)

-- 95_test_vectors.md V4.1, V4.2, V4.3: PUT_CHAR's cursor and last word
theorem test_putChar : shown (exec (.putChar 0x41) (ready .bus8 16 0 0)) cursorAndLines = some (⟨1, 0⟩, byteCycle false 0x81) := by decide
theorem test_putChar_wraps_to_origin : shown (exec (.putChar 0x41) (ready .bus8 16 15 1)) cursorAndLines =
    some (⟨0, 0⟩, byteCycle false 0x80) := by decide
-- W8
theorem test_putCharAt : shown (exec (.putCharAt 15 0 0x61) (ready .bus8 16 9 1)) cursorAndLines =
    some (⟨0, 1⟩, byteCycle false 0xC0) := by decide
theorem test_putCharAt_row_2 : shown (exec (.putCharAt 7 2 0x61) (ready .bus8 16 9 1)) cursorAndLines =
    some (⟨1, 0⟩, byteCycle false 0x81) := by decide
-- W4, V2.7, V2.12, V2.17
theorem test_moveTo_wraps : shown (exec (.moveTo 16 0) (ready .bus8 16 3 0)) cursorAndLines =
    some (⟨0, 1⟩, byteCycle false 0xC0) := by decide
theorem test_moveTo_row_255_wraps : shown (exec (.moveTo 255 255) (ready .bus8 16 3 0)) cursorAndLines =
    some (⟨0, 0⟩, byteCycle false 0x80) := by decide
theorem test_moveTo_wide : shown (exec (.moveTo 70 1) (ready .bus8 80 3 0)) cursorAndLines =
    some (⟨70, 1⟩, byteCycle false 0x86) := by decide
theorem test_moveTo_widest : shown (exec (.moveTo 254 1) (ready .bus8 255 3 0)) cursorAndLines =
    some (⟨254, 1⟩, byteCycle false 0xBE) := by decide
-- V2.21, V2.22
theorem test_newline : shown (exec .newline (ready .bus8 16 5 0)) cursorAndLines = some (⟨0, 1⟩, byteCycle false 0xC0) := by decide
theorem test_newline_last_row : shown (exec .newline (ready .bus8 16 5 1)) cursorAndLines =
    some (⟨0, 0⟩, byteCycle false 0x80) := by decide
-- W6, V3.2
theorem test_clear : shown (exec .clear (ready .bus8 16 7 1)) cursorAndLines = some (⟨0, 0⟩, byteCycle false 0x01) := by decide
theorem test_home : shown (exec .home (ready .bus8 16 7 1)) cursorAndLines = some (⟨0, 0⟩, byteCycle false 0x02) := by decide
-- V3.5, V3.11, V3.16, V3.24, V3.33, V3.37
theorem test_entryModeSet : shown (exec (.entryModeSet true false) (ready .bus8 16 2 0)) cursorAndLines =
    some (⟨2, 0⟩, byteCycle false 0x06) := by decide
theorem test_displayControl : shown (exec (.displayControl true false false) (ready .bus8 16 2 0)) cursorAndLines =
    some (⟨2, 0⟩, byteCycle false 0x0C) := by decide
theorem test_cursorControl : shown (exec (.cursorControl false true) (ready .bus8 16 2 0)) cursorAndLines =
    some (⟨2, 0⟩, byteCycle false 0x14) := by decide
theorem test_functionSet : shown (exec (.functionSet false 2 true) (ready .bus8 16 2 0)) cursorAndLines =
    some (⟨2, 0⟩, byteCycle false 0x2C) := by decide
theorem test_functionSet_keeps_mode : shown (exec (.functionSet true 2 false) (ready .bus4 16 2 0)) (·.mode) = some .bus4 := by decide
theorem test_setCgramAddress : shown (exec (.setCgramAddress 0xFF) (ready .bus8 16 2 0)) cursorAndLines =
    some (⟨2, 0⟩, byteCycle false 0x7F) := by decide
theorem test_setDdramAddress : shown (exec (.setDdramAddress 0x80) (ready .bus8 16 2 0)) cursorAndLines =
    some (⟨2, 0⟩, byteCycle false 0x80) := by decide
-- V4.6, V4.7, V4.8, V4.11, V4.12
theorem test_formatted_stops_at_zero : shown (exec (.formatted [0x41, 0x42, 0x00, 0x43]) (ready .bus8 16 0 0)) cursorAndLines =
    some (⟨2, 0⟩, byteCycle false 0x82) := by decide
theorem test_formatted_newlines : shown (exec (.formatted [0x0A, 0x0A]) (ready .bus8 16 0 0)) cursorAndLines =
    some (⟨0, 0⟩, byteCycle false 0x80) := by decide
theorem test_formattedAt_empty : shown (exec (.formattedAt 3 1 []) (ready .bus8 16 9 1)) cursorAndLines =
    some (⟨3, 1⟩, byteCycle false 0xC3) := by decide
theorem test_formattedAt : shown (exec (.formattedAt 15 0 [0x61, 0x62]) (ready .bus8 16 0 0)) cursorAndLines =
    some (⟨1, 1⟩, byteCycle false 0xC1) := by decide
-- V4.13, V4.15
theorem test_defineChar_empty : shown (exec (.defineChar 0x47 [] 0) (ready .bus8 16 6 1)) cursorAndLines =
    some (⟨6, 1⟩, byteCycle false 0x47) := by decide
theorem test_defineChar : shown (exec (.defineChar 0x48 [1, 2, 3] 2) (ready .bus8 16 0 0)) cursorAndLines =
    some (⟨0, 0⟩, byteCycle true 0x02) := by decide
-- V6.1
theorem test_isBusy : shown (exec .isBusy (ready .bus8 16 0 0)) (·.trace) = some [.dly 1] := by decide
-- V1.9: after V1.5, BUS4 DB7..DB4 hold the low nibble and RS is 1
theorem test_write : shown (exec (.write true 0xF0) (ready .bus4 16 2 0)) (fun t => (t.cursor, sampleCycle .bus4 t.lvl)) =
    some (⟨2, 0⟩, nibbleCycle true 0x0) := by decide
-- R310, R315, R303: the words of the table put on the bus, before INIT too (log 6)
theorem test_cmdClear : shown (exec .cmdClear (ready .bus8 16 7 1)) cursorAndLines = some (⟨7, 1⟩, byteCycle false 0x01) := by decide
theorem test_cmdHome : shown (exec .cmdHome (ready .bus8 16 7 1)) cursorAndLines = some (⟨7, 1⟩, byteCycle false 0x02) := by decide
theorem test_cmdEntryMode : shown (exec (.cmdEntryMode false true) (ready .bus8 16 7 1)) cursorAndLines =
    some (⟨7, 1⟩, byteCycle false 0x05) := by decide
theorem test_cmdDisplayControl : shown (exec (.cmdDisplayControl true false true) (ready .bus8 16 7 1)) cursorAndLines =
    some (⟨7, 1⟩, byteCycle false 0x0D) := by decide
theorem test_cmdShift : shown (exec (.cmdShift true false) (ready .bus8 16 7 1)) cursorAndLines =
    some (⟨7, 1⟩, byteCycle false 0x18) := by decide
theorem test_cmdFunctionSet : shown (exec (.cmdFunctionSet true true false) (ready .bus8 16 7 1)) cursorAndLines =
    some (⟨7, 1⟩, byteCycle false 0x38) := by decide
theorem test_cmdSetCgram : shown (exec (.cmdSetCgram 0x08) (ready .bus8 16 7 1)) cursorAndLines =
    some (⟨7, 1⟩, byteCycle false 0x48) := by decide
theorem test_cmdSetDdram : shown (exec (.cmdSetDdram 0x40) (ready .bus8 16 7 1)) cursorAndLines =
    some (⟨7, 1⟩, byteCycle false 0xC0) := by decide
theorem test_data : shown (exec (.data 0xA5) (ready .bus8 16 7 1)) cursorAndLines = some (⟨7, 1⟩, byteCycle true 0xA5) := by decide
theorem test_nibPrime3 : shown (exec .nibPrime3 State.reset) (fun t => [t.lvl.db7, t.lvl.db6, t.lvl.db5, t.lvl.db4, t.lvl.rs]) =
    some [some false, some false, some true, some true, none] := by decide
theorem test_nibPrime2 : shown (exec .nibPrime2 State.reset) (fun t => [t.lvl.db7, t.lvl.db6, t.lvl.db5, t.lvl.db4, t.lvl.e]) =
    some [some false, some false, some true, some false, some false] := by decide
-- V6.3 to V6.12
theorem test_refused_before_init : exec .clear State.reset = .refused .notInitialized := by rfl
theorem test_refused_short_pattern : exec (.defineChar 0 [1, 2] 3) (ready .bus8 16 0 0) = .refused .shortPattern := by rfl
theorem test_refused_bad_width_first : exec (.init State.reset.bus 0 true 2 false) State.reset = .refused .badWidth := by rfl
theorem test_refused_line_alias : exec (.init { wires with db0 := wires.db4 } 16 true 2 false) State.reset = .refused .lineAlias := by rfl
theorem test_bad_opcode_before_halt : step { haltedState with calls := [⟨.hostOp, [0x0F]⟩] } = .refused (.badOpcode 0x0F) := by rfl
-- R722: the refused call is over, nothing else changed, and the next call is the INIT after it
theorem test_refusal_returns : shown (step { State.reset with calls := [⟨.hostOp, [0x01]⟩, encode (.init wires 16 true 2 false)] })
    (fun t => (t.calls, t.outcome, t.life, t.trace)) =
    some ([encode (.init wires 16 true 2 false)], .refused .notInitialized, .uninit, []) := by decide
theorem test_halted_has_no_step : step { haltedState with calls := [⟨.hostOp, [0x01]⟩] } = .fault .engineHalted := by rfl

-- W1: 0xA5 in BUS4 is nibble 0xA and then nibble 0x5, RS 1 in both; 4 units of delay
theorem test_write_cycles : ∃ t, exec (.write true 0xA5) (ready .bus4 16 0 0) = .next t ∧
    Emits (ready .bus4 16 0 0) t
      [.cycle (nibbleCycle true 0xA), .dly 1, .strobeLow, .dly 1, .cycle (nibbleCycle true 0x5), .dly 1, .strobeLow, .dly 1] :=
  ⟨_, hostOp_ready (effect := writeByte true 0xA5) (s := ready .bus4 16 0 0) rfl, (writeByte_sends true 0xA5 (ready .bus4 16 0 0)).1⟩
-- W7: the 21 words and the last cursor; the remap is open
theorem test_formatted_words : textRun 16 (0, 0) [0x4C, 0x69, 0x6E, 0x65, 0x31, 0x0A, 0x4C, 0x69, 0x6E, 0x65, 0x32] =
    ([datWord (remapped 0x4C), cmdWord 0x81, datWord (remapped 0x69), cmdWord 0x82, datWord (remapped 0x6E), cmdWord 0x83,
      datWord (remapped 0x65), cmdWord 0x84, datWord (remapped 0x31), cmdWord 0x85, cmdWord 0xC0,
      datWord (remapped 0x4C), cmdWord 0xC1, datWord (remapped 0x69), cmdWord 0xC2, datWord (remapped 0x6E), cmdWord 0xC3,
      datWord (remapped 0x65), cmdWord 0xC4, datWord (remapped 0x32), cmdWord 0xC5], (5, 1)) := rfl
-- W9: the cycles of BUS4 INIT, as nibbles
theorem test_init_words : cyclesSeen (initSeen false 2) =
    [0x3, 0x3, 0x3, 0x2, 0x2, 0x8, 0x0, 0xC, 0x0, 0x6, 0x1, 0x0, 0x0, 0x1, 0x0, 0x2].map (nibbleCycle false) := by decide

/-! ### Witnesses: for each statement with hypotheses, a state and operands that meet them all -/

theorem witness_DecodeOfEncodeIsTheInstruction : (Instr.cmdSetDdram 0x7F).wf = true := by decide
theorem witness_EveryDecodedRequestIsItsEncoding : decode ⟨.hostOp, [0x0B, 1, 0x48, 1, 0x69, 0]⟩ = .ok (.formatted [0x48, 0x69]) := by
  decide
/-- Both ends of each (match, mask) pair. -/
theorem witness_BusWordsDecodeByMatchAndMask :
    (0x004 : BitVec 10) &&& 0x3FC = 0x004 ∧ (0x007 : BitVec 10) &&& 0x3FC = 0x004 ∧
    (0x008 : BitVec 10) &&& 0x3F8 = 0x008 ∧ (0x00F : BitVec 10) &&& 0x3F8 = 0x008 ∧
    (0x010 : BitVec 10) &&& 0x3F3 = 0x010 ∧ (0x01C : BitVec 10) &&& 0x3F3 = 0x010 ∧
    (0x020 : BitVec 10) &&& 0x3E3 = 0x020 ∧ (0x03C : BitVec 10) &&& 0x3E3 = 0x020 ∧
    (0x040 : BitVec 10) &&& 0x3C0 = 0x040 ∧ (0x07F : BitVec 10) &&& 0x3C0 = 0x040 ∧
    (0x080 : BitVec 10) &&& 0x380 = 0x080 ∧ (0x0FF : BitVec 10) &&& 0x380 = 0x080 ∧
    (0x200 : BitVec 10) &&& 0x300 = 0x200 ∧ (0x2FF : BitVec 10) &&& 0x300 = 0x200 := by decide
theorem witness_BusWordEncodingIsTheWordSent : (Instr.cmdSetCgram 0x3F).wf = true ∧
    busWordOf (.cmdSetCgram 0x3F) = some (cmdWord 0x7F) := by decide

theorem witness_StepRunsTheDecodedCall :
    decode ⟨.hostOp, [0x01]⟩ = .ok .clear ∧ decode ⟨.hostOp, [0x09]⟩ = .error .truncated ∧ (∀ tag, DecodeError.truncated ≠ .badOpcode tag) ∧
    (readyWith .bus8 [0x01]).calls = [⟨.hostOp, [0x01]⟩] ∧
    State.reset.calls = [] ∧ State.reset.life ≠ .halted ∧ haltedState.calls = [] ∧ haltedState.life = .halted := by decide
theorem witness_PlacedTableWordRunsNext : decodeTableWord 16 0x2FF = some (.data 0xFF) ∧ decodeTableWord 8 0x11 = some .newline := by
  decide
theorem witness_ChecksRunInTheOrderOfTheSpec :
    ((0x0F : Byte) = 0x0F ∧ 0x13 ≤ (0x13 : Byte).toNat ∧ 0x13 ≤ (0xFF : Byte).toNat) ∧
    (decode ⟨.hostOp, [0x01]⟩ = .ok .clear ∧ haltedState.life = .halted ∧ isHostOp .clear = true ∧ isInit .clear = false ∧
      State.reset.life = .uninit) ∧
    decode (encode (.init wires 0 true 2 false)) = .ok (.init wires 0 true 2 false) ∧
    (decode (encode (.init { wires with db0 := wires.db4 } 16 true 2 false)) = .ok (.init { wires with db0 := wires.db4 } 16 true 2 false) ∧
      (16 : Byte) ≠ 0 ∧ ¬ ((initRoles true).map (roleGet { wires with db0 := wires.db4 })).Nodup) ∧
    (decode (encode (.defineChar 0 [1, 2] 3)) = .ok (.defineChar 0 [1, 2] 3) ∧ (ready .bus8 16 0 0).life = .ready ∧
      [(1 : Byte), 2].length < (3 : Byte).toNat) := by decide
theorem witness_UnusedTagsAreBadOpcodes : (readyWith .bus8 [0x13]).calls = [⟨.hostOp, 0x13 :: []⟩] ∧ 0x13 ≤ (0x13 : Byte).toNat ∧
    ¬ ((0x12 : Byte) = 0x0F ∨ 0x13 ≤ (0x12 : Byte).toNat) ∧
    (readyWith .bus8 [0x13]).life ≠ .halted ∧ haltedState.life = .halted := by decide
/-- One refusal of each reason. -/
theorem witness_RefusalsAreExactlyTheTable : exec .newline State.reset = .refused .notInitialized ∧
    exec (.init wires 0 false 2 false) State.reset = .refused .badWidth ∧
    exec (.init { wires with e := wires.rs } 16 false 2 false) State.reset = .refused .lineAlias ∧
    exec (.defineChar 0 [] 1) (ready .bus4 16 0 0) = .refused .shortPattern := ⟨rfl, rfl, rfl, rfl⟩
/-- A refused call and one with a tag that names no operation, each with a call behind it; and a next state that reports a refusal. -/
theorem witness_RefusedCallsReturnToTheCaller :
    State.reset.life ≠ .halted ∧ decode ⟨.hostOp, [0x11]⟩ = .ok .newline ∧ decode ⟨.hostOp, [0xFF]⟩ = .error (.badOpcode 0xFF) ∧
    exec .newline { State.reset with calls := [⟨.hostOp, [0x01]⟩] } = .refused .notInitialized ∧
    ∃ t, step { State.reset with calls := [⟨.hostOp, [0x11]⟩, ⟨.hostOp, [0x01]⟩] } = .next t ∧ t.outcome = .refused .notInitialized :=
  ⟨by decide, by decide, by decide, rfl, _, rfl, rfl⟩
theorem witness_OnlyHaltedIsStuck : exec .isBusy haltedState = .fault .engineHalted := rfl

/-- READY in both modes: the hypothesis of the host operations' statements (WriteSendsItsByte, MoveToFollowsTheClosedForm,
ClearResetsTheCursorAndSends01, HomeResetsTheCursorAndSettles, FlagCommandsSendTheirWord, FunctionSetSendsItsWordAndKeepsTheMode,
AddressCommandsMaskAndKeepTheCursor, NonPositioningCommandsKeepTheCursor, PutCharSendsTheCodeAndAdvances,
FormattedSendsItsTextByteByByte, FormattedAtMovesThenSendsItsText, IsBusyDelaysOnceAndReturnsTheStub). -/
theorem witness_ready : (ready .bus8 16 0 0).life = .ready ∧ (ready .bus8 16 0 0).mode = .bus8 ∧
    (ready .bus4 16 0 0).life = .ready ∧ (ready .bus4 16 0 0).mode = .bus4 := by decide
/-- UNINIT: the hypothesis of `RefusedBeforeInit`. -/
theorem witness_uninit : State.reset.life = .uninit := by decide
theorem witness_WriteSendsItsByte : ∃ t, exec (.write false 0x28) (ready .bus4 16 0 0) = .next t := ⟨_, rfl⟩
theorem witness_WriteDrivesEachLineOnceThenPulses : ∃ t, exec (.write false 0x28) (ready .bus8 16 0 0) = .next t := ⟨_, rfl⟩
theorem witness_BusWordsArePutOnTheBus : busWordOf (.data 0xFF) = some (datWord 0xFF) ∧ busWordOf .cmdClear = some (cmdWord 0x01) ∧
    busWordOf .cmdHome = some (cmdWord 0x02) ∧ State.reset.life ≠ .halted := by decide
theorem witness_PrimingNibblesPulseOnce :
    (Instr.nibPrime2, (0x2 : BitVec 4)) ∈ [(Instr.nibPrime3, (0x3 : BitVec 4)), (Instr.nibPrime2, 0x2)] ∧
    (ready .bus4 16 0 0).life ≠ .halted ∧ (ready .bus4 16 0 0).mode = .bus4 ∧
    (ready .bus4 16 0 0).lvl.rs = some false ∧ (ready .bus4 16 0 0).lvl.rnw = some false := by decide
theorem witness_EventCountsPerWrite : (∃ t, exec (.data 0x41) (ready .bus8 16 0 0) = .next t) ∧
    (∃ t, exec (.write true 0x41) (ready .bus4 16 0 0) = .next t) ∧ (∃ t, exec .nibPrime3 State.reset = .next t) ∧
    busWordOf (.data 0x41) = some (datWord 0x41) := ⟨⟨_, rfl⟩, ⟨_, rfl⟩, ⟨_, rfl⟩, rfl⟩
theorem witness_SetupOrderCannotBeSeen :
    (([(.rnw, false), (.rs, true)] : List (LineRole × Bool)).map Prod.fst).Nodup ∧
    LineRole.e ∉ ([(.rnw, false), (.rs, true)] : List (LineRole × Bool)).map Prod.fst ∧
    ([(.rs, true), (.rnw, false)] : List (LineRole × Bool)).Perm [(.rnw, false), (.rs, true)] :=
  ⟨by decide, by decide, List.Perm.swap _ _ _⟩

theorem witness_NewlineGoesToTheNextRowsStart : (ready .bus8 1 0 0).cursor.row = 0 ∧ (ready .bus8 1 0 1).cursor.row = 1 ∧
    0 < (ready .bus8 1 0 0).width.toNat ∧ (ready .bus8 1 0 1).life = .ready := by decide
theorem witness_MoveToEstablishesTheCursorInvariant : (ready .bus8 1 0 0).life = .ready ∧ 1 ≤ (ready .bus8 1 0 0).width.toNat := by
  decide
theorem witness_ByteArithmeticGivesTheSameMove : CursorInRange (ready .bus8 255 254 1) ∧
    (254 : Byte).toNat < (255 : Byte).toNat := ⟨fun _ => by decide, by decide⟩
/-- Each clause at both ends of its range. -/
theorem witness_WideDisplaysAreNotClamped : (ready .bus8 255 0 0).width.toNat = 255 ∧
    (∀ col ∈ [(0x40 : Byte), 0x7F], 0x40 ≤ col.toNat ∧ col.toNat ≤ 0x7F ∧ col.toNat < 255 ∧
      col.toNat - 0x40 < (ready .bus8 255 0 0).width.toNat) ∧
    (∀ col ∈ [(0x80 : Byte), 0xFE], 0x80 ≤ col.toNat ∧ col.toNat < 255) ∧
    (∀ col ∈ [(0x40 : Byte), 0x7F, 0xBF], 0x40 ≤ col.toNat ∧ col.toNat < 0xC0 ∧ col.toNat < 255) ∧
    (∀ col ∈ [(0xC0 : Byte), 0xFE], 0xC0 ≤ col.toNat ∧ col.toNat < 255) := by decide
/-- Each of PUT_CHAR_AT's listed cases at a width of 2. -/
theorem witness_PutCharAtMovesDrawsAndAdvances : (ready .bus8 2 0 0).life = .ready ∧ 1 < (ready .bus8 2 0 0).width.toNat ∧
    (0 : Byte).toNat + 1 < (ready .bus8 2 0 0).width.toNat ∧ (1 : Byte).toNat + 1 = (ready .bus8 2 0 0).width.toNat ∧
    (1 : Byte).toNat < 2 ∧ 2 ≤ (2 : Byte).toNat ∧ (ready .bus8 1 0 0).life = .ready ∧ (ready .bus8 1 0 0).width.toNat = 1 := by decide
theorem witness_TextBeyondTheCapIsDropped : (List.replicate 80 (0x61 : Byte)).length = 80 ∧
    (0x00 : Byte) ∉ List.replicate 80 (0x61 : Byte) := by decide
theorem witness_DefineCharStreamsItsPattern : (ready .bus8 16 6 1).life = .ready ∧ [(1 : Byte)].length < (2 : Byte).toNat ∧
    (2 : Byte).toNat ≤ [(1 : Byte), 2].length ∧ (0 : Byte).toNat ≤ ([] : List Byte).length := by decide
theorem witness_PseudoOperationsAreTheirExpansions : CursorInRange (ready .bus8 16 15 1) := fun _ => by decide

/-- An INIT that passes its checks; that its ports are valid is the platform's (PORT_VALID, log 14), so no witness can show it. -/
theorem witness_InitRunsItsStepsOrHalts : State.reset.life ≠ .halted ∧ (16 : Byte) ≠ 0 ∧
    ((initRoles true).map (roleGet wires)).Nodup ∧ ((initRoles false).map (roleGet { wires with db0 := wires.db4 })).Nodup := by decide
theorem witness_InitReadsOnlyTwoLinesOfItsFormat : (1 < (2 : Byte).toNat ↔ 1 < (255 : Byte).toNat) ∧
    (1 < (0 : Byte).toNat ↔ 1 < (1 : Byte).toNat) := by decide

/-- A next state of a host operation and of a word of the table, in each mode: the hypothesis of OnlyInitReconfigures,
EveryCallAddressesTheBusDescriptor, NothingIsDrivenWhileEIsHigh, OnlyTheTablesDelaysAreRequested and RequestedUnitsFollowTheTable. -/
theorem witness_exec_next : (∃ t, exec (.putChar 0x41) (ready .bus8 16 15 0) = .next t ∧ t.life ≠ .halted) ∧
    (∃ t, exec (.formatted [0x41]) (ready .bus4 16 0 0) = .next t) ∧ (∃ t, exec .cmdHome State.reset = .next t) :=
  ⟨⟨_, rfl, by decide⟩, ⟨_, rfl⟩, ⟨_, rfl⟩⟩
theorem witness_OnlyPositioningOperationsMoveTheCursor : ∃ t, exec .newline (ready .bus8 16 5 0) = .next t ∧
    t.cursor ≠ (ready .bus8 16 5 0).cursor := ⟨_, rfl, by decide⟩
theorem witness_FourBitModeNeverTouchesTheLowLines : ∃ t, exec .clear (ready .bus4 16 5 0) = .next t ∧ t.mode = .bus4 := ⟨_, rfl, rfl⟩
theorem witness_HostOperationsSendOnlyTableWords : isHostOp .newline = true ∧ isInit .newline = false ∧
    (∀ isData byte, Instr.newline ≠ .write isData byte) ∧ ∃ t, exec .newline (ready .bus8 16 5 0) = .next t :=
  ⟨by decide, by decide, fun _ _ => by simp, _, rfl⟩
/-- Its second clause: an INIT that passes its checks answers a next state, Done or halted as PORT_VALID has it (log 14). -/
theorem witness_HostOperationsSendOnlyTableWords_init : ∃ t, exec (.init wires 16 false 2 false) State.reset = .next t := by
  have accepted := execInit_accepted wires 16 false 2 false State.reset (by decide) (by decide) (by decide)
  rw [show exec (.init wires 16 false 2 false) State.reset = _ from accepted]
  split
  · exact ⟨_, rfl⟩
  · exact ⟨_, rfl⟩

/-- A step of a READY state, whose cursor and lines meet the invariants. -/
theorem witness_StepsKeepTheCursorInRange : CursorInRange (readyWith .bus8 [0x09, 0x41]) ∧
    ∃ t, step (readyWith .bus8 [0x09, 0x41]) = .next t := ⟨fun _ => by decide, _, rfl⟩
theorem witness_StepsLeaveTheLinesIdle : LinesIdle (readyWith .bus4 [0x09, 0x41]) ∧
    ∃ t, step (readyWith .bus4 [0x09, 0x41]) = .next t := ⟨fun _ => by decide, _, rfl⟩
/-- A step of a state whose lines follow its trace: the hypotheses of TheTraceOnlyGrows, LevelsAndConfigurationsFollowTheTrace,
ReadyMeansTheBusWasAccepted, HaltedMeansABadPortWasClocked and StepsNeverEnterReadMode. -/
theorem witness_step_of_reset : (∃ t, step resetWithNibble = .next t) ∧ LinesFromTrace resetWithNibble ∧
    BusAccepted resetWithNibble ∧ HaltRecorded resetWithNibble ∧ NeverReads resetWithNibble :=
  ⟨⟨_, rfl⟩, ⟨rfl, rfl⟩, fun h => by simp [resetWithNibble, State.reset] at h, fun h => by simp [resetWithNibble, State.reset] at h,
    fun _ h => by simp [resetWithNibble, State.reset] at h⟩

end Sys2Proof.Tests
end

section
/-! PROOFS. Which answer a step gives to its next pending call (00_scope.md R12, 60_exceptions.md R722). -/

namespace Sys2Proof.Machine

theorem idle_of_alive {s : State} (alive : s.life ≠ .halted) : idle s = .next s := by
  cases life : s.life with
  | halted => exact absurd life alive
  | uninit | ready => simp [idle, unlessHalted, life]

theorem idle_of_halted {s : State} (halted : s.life = .halted) : idle s = .fault .engineHalted := by
  simp [idle, unlessHalted, halted]

/-- A refusal that is none of the spec's table stays the step's own answer (60_exceptions.md R700). -/
theorem backToCaller_of_kept {s : State} {r : Refusal} (kept : returnsToCaller r = false) :
    backToCaller s (.refused r) = .refused r :=
  if_neg fun returned => absurd returned.1 (by simp [kept])

/-- Of the requests that decode to no instruction, only an unused tag is in the spec's table of refusals (60_exceptions.md R700). -/
theorem returnsToCaller_refusalOf {err : DecodeError} (noTag : ∀ tag, err ≠ .badOpcode tag) :
    returnsToCaller (refusalOf err) = false := by
  cases err with
  | badOpcode tag => exact absurd rfl (noTag tag)
  | truncated | badOperand | trailingBytes | badWordWidth | notEmitted => rfl

theorem step_of_decoded {s : State} {q : Request} {rest : List Request} {i : Instr} (pending : s.calls = q :: rest)
    (decoded : decode q = .ok i) : step s = answered { s with calls := rest } (exec i { s with calls := rest }) := by
  rw [step_of_calls pending, decoded]
  exact backToCaller_exec i _

theorem step_of_undecoded {s : State} {q : Request} {rest : List Request} {err : DecodeError} (pending : s.calls = q :: rest)
    (undecoded : decode q = .error err) : step s = backToCaller { s with calls := rest } (.refused (refusalOf err)) := by
  rw [step_of_calls pending, undecoded]

/-- Settles O8, by whether a call is pending and whether it decodes; that every refusal of an instruction is handed back is
`backToCaller_exec`. -/
theorem stepRunsTheDecodedCall : Obligations.StepRunsTheDecodedCall := by
  intro s
  refine ⟨fun q rest i pending decoded => ?_, fun q rest err pending undecoded noTag => ?_, fun waiting alive => ?_,
    fun waiting halted => ?_⟩
  · exact step_of_decoded pending decoded
  · rw [step_of_undecoded pending undecoded]
    exact backToCaller_of_kept (returnsToCaller_refusalOf noTag)
  · rw [step_of_no_calls waiting, idle_of_alive alive]
  · rw [step_of_no_calls waiting, idle_of_halted halted]

end Sys2Proof.Machine
end

section
/-! PROOFS. The state's rules (10_state.md): what an instruction that is no INIT keeps, what an accepted INIT leaves, which lines the
appended events name, and the invariants every step keeps. -/

namespace Sys2Proof.Machine

/-! ### Power-on (10_state.md R130) -/

/-- Settles O59: the power-on state, field by field. -/
theorem powerOnStateIsUninitialized : Obligations.PowerOnStateIsUninitialized := by
  refine ⟨rfl, rfl, rfl, fun role => ?_⟩
  cases role <;> exact ⟨rfl, rfl⟩

/-- Settles O58: power-on is neither READY nor HALTED, and its trace is empty. -/
theorem powerOnMeetsTheInvariants : Obligations.PowerOnMeetsTheInvariants := by
  have notReady : State.reset.life ≠ .ready := by decide
  have notHalted : State.reset.life ≠ .halted := by decide
  exact ⟨fun ready => absurd ready notReady, fun ready => absurd ready notReady, ⟨rfl, rfl⟩, fun ready => absurd ready notReady,
    fun halted => absurd halted notHalted, fun _ mem => absurd mem List.not_mem_nil⟩

/-! ### Instructions other than INIT -/

/-- An instruction other than INIT writes the trace, the levels, the cursor and the outcome, and no other field. -/
theorem exec_notInit {i : Instr} {s t : State} (notInit : isInit i = false) (h : exec i s = .next t) :
    ∃ cursor outcome, SameButBus { s with cursor := cursor, outcome := outcome } t := by
  rcases effect_cases i with init | ⟨-, hasEffect⟩ | ⟨-, noEffect⟩
  · simp [init] at notInit
  · obtain ⟨e, he⟩ := hasEffect s
    exact ⟨e.cursor, e.outcome, (exec_effect he h).2.2⟩
  · exact ⟨s.cursor, .done, (exec_tableWord (noEffect s) notInit h).2⟩

/-- Settles O43: the pending calls and the lifecycle check are those of every instruction, the rest is `exec_notInit`. -/
theorem onlyInitReconfigures : Obligations.OnlyInitReconfigures := by
  intro i s t h
  obtain ⟨base, acts, reached, -, -, -, calls, -⟩ := exec_fields h
  refine ⟨calls, reached.alive, fun notInit => ?_⟩
  obtain ⟨_, _, same⟩ := exec_notInit notInit h
  exact ⟨same.life, same.mode, same.width, same.bus, same.cfg⟩

/-- Settles O44: an instruction with another effect has the cursor it found as its effect's cursor, and a table word has none. -/
theorem onlyPositioningOperationsMoveTheCursor : Obligations.OnlyPositioningOperationsMoveTheCursor := by
  intro i s t h moved
  rcases effect_cases i with init | ⟨-, hasEffect⟩ | ⟨notInit, noEffect⟩
  · exact .inl init
  · obtain ⟨e, he⟩ := hasEffect s
    have written : e.cursor ≠ s.cursor := fun kept => moved ((exec_effect he h).2.2.cursor.trans kept)
    cases i with
    | entryModeSet | displayControl | cursorControl | functionSet | setCgramAddress | setDdramAddress | defineChar | isBusy | write =>
      cases he
      exact absurd rfl written
    | clear | home | putChar | putCharAt | formatted | formattedAt | moveTo | newline => simp
    | _ => cases he
  · exact absurd (exec_tableWord (noEffect s) notInit h).2.cursor moved

/-! ### INIT -/

section
variable {bus : BusDescriptor} {width : Byte} {bus8 : Bool} {lineCount : Byte} {bigFont : Bool} {s t : State}

/-- The state step 2 of INIT leaves when no port is bad. -/
def initConfigured (bus : BusDescriptor) (width : Byte) (bus8 : Bool) (s : State) : State :=
  (initRoles bus8).foldl configureLine (initRecord bus width bus8 s)

/-- An INIT that ends in READY passed its checks, found no bad port, and ran all its steps (44_init_status.md R600). -/
theorem execInit_ready (h : execInit bus width bus8 lineCount bigFont s = .next t) (ready : t.life = .ready) :
    width ≠ 0 ∧ ((initRoles bus8).map (roleGet bus)).Nodup ∧ firstBadPort bus (initRoles bus8) = none ∧
      t = { initReady (initWords lineCount (initPrime (initConfigured bus width bus8 s))) with outcome := .done } := by
  obtain ⟨alive, widthOk, distinct⟩ := execInit_next_accepted h
  rw [execInit_accepted bus width bus8 lineCount bigFont s alive widthOk distinct] at h
  cases found : firstBadPort bus (initRoles bus8) with
  | none =>
    simp only [found, finish, Host.Outcome.next.injEq] at h
    exact ⟨widthOk, distinct, rfl, h.symm⟩
  | some bad =>
    simp only [found, raiseHalt, Host.Outcome.next.injEq] at h
    simp [← h] at ready

/-- Steps 3 to 5 of INIT write only the bus, and the cursor to (0, 0). -/
theorem initTail_sameButBus (lineCount : Byte) (s : State) :
    SameButBus { s with cursor := ⟨0, 0⟩ } (initWords lineCount (initPrime s)) := by
  have words := (initWords_spec lineCount (initPrime s)).2
  have prime := initPrime_sameButBus s
  exact ⟨words.life.trans prime.life, words.mode.trans prime.mode, words.width.trans prime.width, words.bus.trans prime.bus,
    words.cursor, words.cfg.trans prime.cfg, words.outcome.trans prime.outcome, words.calls.trans prime.calls⟩

/-- The configuration fields an INIT that ends in READY leaves (44_init_status.md R602, R603). -/
theorem execInit_ready_fields (h : execInit bus width bus8 lineCount bigFont s = .next t) (ready : t.life = .ready) :
    t.mode = modeOf bus8 ∧ t.width = width ∧ t.bus = bus ∧ t.cursor = ⟨0, 0⟩ ∧
      ∀ role ∈ usedRoles t.mode, roleGet t.cfg role = .output := by
  obtain ⟨-, -, -, rfl⟩ := execInit_ready h ready
  have same := initTail_sameButBus lineCount (initConfigured bus width bus8 s)
  have configured := configureAll_eq (initRoles bus8) (initRecord bus width bus8 s)
  have mode : (initWords lineCount (initPrime (initConfigured bus width bus8 s))).mode = modeOf bus8 := by
    rw [same.mode, initConfigured, configured]; rfl
  refine ⟨mode, ?_, ?_, same.cursor, fun role used => ?_⟩
  · rw [initReady_width, same.width, initConfigured, configured]; rfl
  · rw [initReady_bus, same.bus, initConfigured, configured]; rfl
  · rw [initReady_mode, mode, usedRoles_modeOf] at used
    rw [initReady_cfg, same.cfg, initConfigured, configured]
    exact (roleGet_foldl_roleSet _ _ _ _).trans (if_pos used)

end

/-! ### The lines the events name (10_state.md R104, R114) -/

/-- An allowed action's events address the lines of the bus descriptor and name used roles only. -/
theorem Act.events_onBus {mode : BusMode} {a : Act} (ok : a.Ok mode) (bus : BusDescriptor) :
    ∀ ev ∈ a.events bus, onBus bus ev = true ∧ ∀ role, eventRole ev = some role → role ∈ usedRoles mode := by
  cases a with
  | clk role | low role | out role => simpa [Act.events, onBus, eventRole, Act.Ok] using ok
  | delay | place => simp [Act.events, onBus, eventRole]
  | cycle phase pairs =>
    have strobe : LineRole.e ∈ usedRoles mode := by cases mode <;> decide
    intro ev mem
    rcases List.mem_append.mp mem with drive | pulse
    · obtain ⟨p, ordered, rfl⟩ := List.mem_map.mp drive
      simpa [onBus, eventRole] using (ok.2 p ((mem_setupOrder phase pairs p).mp ordered)).1
    · simp only [pulseEvents, List.mem_cons, List.not_mem_nil, or_false] at pulse
      rcases pulse with rfl | rfl | rfl | rfl <;> simp [onBus, eventRole, roleGet, strobe]

/-- Settles O46: the appended events are those of a script of allowed actions. -/
theorem everyCallAddressesTheBusDescriptor : Obligations.EveryCallAddressesTheBusDescriptor := by
  intro i s t h
  obtain ⟨_, acts, -, ok, -, -, -, trace, -⟩ := exec_fields h
  refine ⟨actsEvents t.bus acts, trace, fun ev mem => ?_⟩
  obtain ⟨a, inScript, ofAction⟩ := List.mem_flatMap.mp mem
  exact Act.events_onBus (ok a inScript) t.bus ev ofAction

/-- Events that do not name a role keep its level. -/
theorem roleGet_levelsAfter_of_unnamed {role : LineRole} (evs : List Event) (unnamed : ∀ ev ∈ evs, eventRole ev ≠ some role)
    (lvl : RoleMap (Option Bool)) : roleGet (levelsAfter lvl evs) role = roleGet lvl role := by
  induction evs generalizing lvl with
  | nil => rfl
  | cons ev rest ih =>
    obtain ⟨other, restOther⟩ := List.forall_mem_cons.mp unnamed
    cases ev with
    | drv driven line v =>
      have ne : role ≠ driven := fun same => other (congrArg some same.symm)
      rw [levelsAfter, ih restOther, roleGet_roleSet_ne _ _ ne]
    | clk | out | dly => exact ih restOther lvl

/-- Events that do not name a role keep its configuration. -/
theorem roleGet_configsAfter_of_unnamed {role : LineRole} (evs : List Event) (unnamed : ∀ ev ∈ evs, eventRole ev ≠ some role)
    (cfg : RoleMap LineConfig) : roleGet (configsAfter cfg evs) role = roleGet cfg role := by
  induction evs generalizing cfg with
  | nil => rfl
  | cons ev rest ih =>
    obtain ⟨other, restOther⟩ := List.forall_mem_cons.mp unnamed
    cases ev with
    | out configured line =>
      have ne : role ≠ configured := fun same => other (congrArg some same.symm)
      rw [configsAfter, ih restOther, roleGet_roleSet_ne _ _ ne]
    | clk | drv | dly => exact ih restOther cfg

theorem lowLine_unused : ∀ role ∈ [LineRole.db3, .db2, .db1, .db0], role ∉ usedRoles .bus4 := by decide

/-- Settles O48: the appended events name used roles, DB3..DB0 are unused in BUS4, and what is not named is kept. -/
theorem fourBitModeNeverTouchesTheLowLines : Obligations.FourBitModeNeverTouchesTheLowLines := by
  refine ⟨fun i s t h fourBit => ?_, fun lvl v3 v2 v1 v0 => rfl⟩
  obtain ⟨_, acts, -, ok, -, -, -, trace, lvl, cfg, -⟩ := exec_fields h
  refine ⟨actsEvents t.bus acts, trace, fun role low => ?_⟩
  have unnamed : ∀ ev ∈ actsEvents t.bus acts, eventRole ev ≠ some role := by
    intro ev mem names
    obtain ⟨a, inScript, ofAction⟩ := List.mem_flatMap.mp mem
    have used := (Act.events_onBus (ok a inScript) t.bus ev ofAction).2 role names
    exact lowLine_unused role low (fourBit ▸ used)
  refine ⟨?_, ?_, unnamed⟩
  · rw [lvl, roleGet_levelsAfter_of_unnamed _ unnamed]
  · rw [cfg, roleGet_configsAfter_of_unnamed _ unnamed]

/-! ### Invariants of every step -/

/-- A property is kept by every step when taking a call, handing a refusal back, and every instruction keep it. -/
theorem step_keeps {P : State → Prop} (takes : ∀ s rest, P s → P { s with calls := rest })
    (refuses : ∀ s r, s.life ≠ .halted → P s → P { s with outcome := .refused r })
    (runs : ∀ i s t, P s → exec i s = .next t → P t) {s t : State} (before : P s) (h : step s = .next t) : P t := by
  rcases step_cases h with ⟨-, -, rfl⟩ | ⟨_, rest, i, -, -, ran⟩ | ⟨_, rest, r, -, alive, -, rfl⟩
  · exact before
  · exact runs i _ t (takes s rest before) ran
  · exact refuses { s with calls := rest } r alive (takes s rest before)

/-- What is said of READY states only is kept by every instruction when an INIT that ends in READY establishes it and the other
instructions keep it in READY. -/
theorem exec_keeps_ready {P : State → Prop} (vacuous : ∀ s, s.life ≠ .ready → P s)
    (init : ∀ bus width bus8 lineCount bigFont s t, execInit bus width bus8 lineCount bigFont s = .next t → t.life = .ready → P t)
    (other : ∀ i s t, isInit i = false → s.life = .ready → P s → exec i s = .next t → P t)
    (i : Instr) (s t : State) (before : P s) (h : exec i s = .next t) : P t := by
  by_cases ready : t.life = .ready
  · cases kind : isInit i with
    | false =>
      obtain ⟨_, _, same⟩ := exec_notInit kind h
      exact other i s t kind (same.life.symm.trans ready) before h
    | true =>
      cases i with
      | init bus width bus8 lineCount bigFont => exact init bus width bus8 lineCount bigFont s t h ready
      | _ => cases kind
  · exact vacuous t ready

/-- Settles O45: what a step appends to the trace is what its instruction appends. -/
theorem theTraceOnlyGrows : Obligations.TheTraceOnlyGrows := by
  intro s t h
  refine step_keeps (P := fun u => ∃ evs, u.trace = s.trace ++ evs) (fun _ _ k => k) (fun _ _ _ k => k) ?_ ⟨[], by simp⟩ h
  rintro i u v ⟨evs, grown⟩ ran
  obtain ⟨_, acts, -, -, -, -, -, trace, -⟩ := exec_fields ran
  exact ⟨evs ++ actsEvents v.bus acts, by rw [trace, grown, List.append_assoc]⟩

/-- Settles O54: an instruction's levels and configurations are those its appended events leave. -/
theorem levelsAndConfigurationsFollowTheTrace : Obligations.LevelsAndConfigurationsFollowTheTrace := by
  intro s t before h
  refine step_keeps (fun _ _ k => k) (fun _ _ _ k => k) ?_ before h
  rintro i u v ⟨fromLvl, fromCfg⟩ ran
  obtain ⟨_, acts, -, -, -, -, -, trace, lvl, cfg, -⟩ := exec_fields ran
  constructor
  · rw [lvl, trace, levelsAfter_append, ← fromLvl]
  · rw [cfg, trace, configsAfter_append, ← fromCfg]

/-- Settles O55: INIT checks the lines before READY, and no other instruction writes the bus descriptor or the mode. -/
theorem readyMeansTheBusWasAccepted : Obligations.ReadyMeansTheBusWasAccepted := by
  intro s t before h
  refine step_keeps (fun _ _ k => k) (fun _ _ _ k => k) (exec_keeps_ready (P := BusAccepted) ?_ ?_ ?_) before h
  · exact fun _ notReady ready => absurd ready notReady
  · intro bus width bus8 lineCount bigFont u v ran ready _
    obtain ⟨-, distinct, noneBad, -⟩ := execInit_ready ran ready
    obtain ⟨mode, -, bus, -⟩ := execInit_ready_fields ran ready
    rw [mode, bus, usedRoles_modeOf]
    exact ⟨distinct, (firstBadPort_eq_none _ _).mp noneBad⟩
  · intro i u v notInit wasReady accepted ran _
    obtain ⟨_, _, same⟩ := exec_notInit notInit ran
    rw [same.mode, same.bus]
    exact accepted wasReady

/-! ### The cursor stays in the cursor space (10_state.md R106) -/

/-- The cursor lies in the cursor space of a width. -/
def CursorWithin (width : Byte) (cursor : Cursor) : Prop := cursor.col.toNat < width.toNat ∧ cursor.row.toNat < 2

theorem cursorWithin_origin {width : Byte} (positive : 0 < width.toNat) : CursorWithin width ⟨0, 0⟩ := ⟨positive, by decide⟩

theorem cursorWithin_movedTo {width : Byte} (positive : 0 < width.toNat) (col row : Nat) :
    CursorWithin width (cursorAt (movedTo width.toNat col row)) := by
  rw [CursorWithin, cursorAt_movedTo_col, cursorAt_movedTo_row]
  exact movedTo_inRange col row positive

/-- A text leaves a position of the cursor space, or the one it started from. -/
theorem textRun_position (width : Nat) (start : Nat × Nat) (text : List Byte) :
    (textRun width start text).2 = start ∨ ∃ col row, (textRun width start text).2 = movedTo width col row := by
  induction text generalizing start with
  | nil => exact .inl rfl
  | cons c rest ih =>
    right
    by_cases newline : c = 0x0A
    · simp only [textRun, if_pos newline]
      rcases ih (movedTo width 0 (start.2 + 1)) with stayed | moved
      · exact ⟨_, _, stayed⟩
      · exact moved
    · simp only [textRun, if_neg newline]
      rcases ih (movedTo width (start.1 + 1) start.2) with stayed | moved
      · exact ⟨_, _, stayed⟩
      · exact moved

/-- Every effect's cursor is the one before it, the origin, or a position `MoveTo` lands on. -/
theorem effectOf_cursor {i : Instr} {s : State} {e : Effect} (he : effectOf i s = some e) :
    e.cursor = s.cursor ∨ e.cursor = ⟨0, 0⟩ ∨ ∃ col row, e.cursor = cursorAt (movedTo s.width.toNat col row) := by
  cases i with
  | clear | home => cases he; exact .inr (.inl rfl)
  | putChar | putCharAt | moveTo | newline => cases he; exact .inr (.inr ⟨_, _, rfl⟩)
  | formatted text =>
    cases he
    rcases textRun_position s.width.toNat (s.cursor.col.toNat, s.cursor.row.toNat) (keptText text) with stayed | ⟨c, r, moved⟩
    · left
      simp [stayed, cursorAt]
    · exact .inr (.inr ⟨c, r, congrArg cursorAt moved⟩)
  | formattedAt col row text =>
    cases he
    rcases textRun_position s.width.toNat (movedTo s.width.toNat col.toNat row.toNat) (keptText text) with stayed | ⟨c, r, moved⟩
    · exact .inr (.inr ⟨_, _, congrArg cursorAt stayed⟩)
    · exact .inr (.inr ⟨c, r, congrArg cursorAt moved⟩)
  | _ => cases he <;> exact .inl rfl

theorem exec_notInit_cursorWithin {i : Instr} {s t : State} (notInit : isInit i = false) (h : exec i s = .next t)
    (within : CursorWithin s.width s.cursor) : CursorWithin s.width t.cursor := by
  have positive : 0 < s.width.toNat := Nat.zero_lt_of_lt within.1
  rcases effect_cases i with init | ⟨-, hasEffect⟩ | ⟨-, noEffect⟩
  · simp [init] at notInit
  · obtain ⟨e, he⟩ := hasEffect s
    rw [(exec_effect he h).2.2.cursor]
    rcases effectOf_cursor he with kept | origin | ⟨col, row, moved⟩
    · exact kept ▸ within
    · exact origin ▸ cursorWithin_origin positive
    · exact moved ▸ cursorWithin_movedTo positive col row
  · rw [(exec_tableWord (noEffect s) notInit h).2.cursor]
    exact within

/-- Settles O52: INIT starts at the origin of a width that is not 0, and each effect's cursor is within the width it ran at. -/
theorem stepsKeepTheCursorInRange : Obligations.StepsKeepTheCursorInRange := by
  intro s t before h
  refine step_keeps (fun _ _ k => k) (fun _ _ _ k => k) (exec_keeps_ready (P := CursorInRange) ?_ ?_ ?_) before h
  · exact fun _ notReady ready => absurd ready notReady
  · intro bus width bus8 lineCount bigFont u v ran ready _
    obtain ⟨widthOk, -⟩ := execInit_ready ran ready
    obtain ⟨-, width, -, cursor, -⟩ := execInit_ready_fields ran ready
    rw [width, cursor]
    exact cursorWithin_origin (Nat.pos_of_ne_zero (BitVec.toNat_ne.mp widthOk))
  · intro i u v notInit wasReady within ran _
    obtain ⟨_, _, same⟩ := exec_notInit notInit ran
    have width : v.width = u.width := same.width
    rw [width]
    exact exec_notInit_cursorWithin notInit ran (within wasReady)

/-! ### The lines stay idle between operations (10_state.md R112) -/

/-- E and RNW low, and every used role driven. -/
structure LevelsIdle (mode : BusMode) (lvl : RoleMap (Option Bool)) : Prop where
  e      : roleGet lvl .e = some false
  rnw    : roleGet lvl .rnw = some false
  driven : ∀ role ∈ usedRoles mode, roleGet lvl role ≠ none

/-- A drive that does not raise E or RNW keeps the levels idle. -/
theorem LevelsIdle.drive {mode : BusMode} {lvl : RoleMap (Option Bool)} (idle : LevelsIdle mode lvl) {role : LineRole} {v : Bool}
    (low : role = .e ∨ role = .rnw → v = false) : LevelsIdle mode (roleSet lvl role (some v)) := by
  refine ⟨?_, ?_, fun r used => ?_⟩
  · rw [roleGet_roleSet]
    split
    · next same => rw [low (.inl same.symm)]
    · exact idle.e
  · rw [roleGet_roleSet]
    split
    · next same => rw [low (.inr same.symm)]
    · exact idle.rnw
  · rw [roleGet_roleSet]
    split
    · exact Option.some_ne_none v
    · exact idle.driven r used

theorem LevelsIdle.drivenLevels {mode : BusMode} {pairs : List (LineRole × Bool)}
    (low : ∀ p ∈ pairs, p.1 = .e ∨ p.1 = .rnw → p.2 = false) {lvl : RoleMap (Option Bool)} (idle : LevelsIdle mode lvl) :
    LevelsIdle mode (drivenLevels pairs lvl) := by
  induction pairs generalizing lvl with
  | nil => exact idle
  | cons p rest ih =>
    obtain ⟨first, others⟩ := List.forall_mem_cons.mp low
    exact ih others (idle.drive first)

/-- Every allowed action keeps the levels idle: a setup phase has no E and no high RNW, and its pulse ends with E low. -/
theorem LevelsIdle.act {mode : BusMode} {a : Act} (ok : a.Ok mode) {s : State} (idle : LevelsIdle mode s.lvl) :
    LevelsIdle mode (a.run s).lvl := by
  cases a with
  | low role => exact idle.drive fun _ => rfl
  | cycle phase pairs =>
    obtain ⟨⟨-, noStrobe⟩, allowed⟩ := ok
    have low : ∀ p ∈ pairs, p.1 = .e ∨ p.1 = .rnw → p.2 = false := by
      rintro p mem (strobe | readWrite)
      · exact absurd (List.mem_map.mpr ⟨p, mem, strobe⟩) noStrobe
      · exact (allowed p mem).2 readWrite
    exact (idle.drivenLevels low).drive (role := .e) fun _ => rfl
  | clk | out | delay | place => exact idle

/-- A word leaves the levels idle, whatever they were (40_bus_transport.md R400). -/
theorem levelsIdle_afterWord (mode : BusMode) (lvl : RoleMap (Option Bool)) (w : BusWord) :
    LevelsIdle mode (levelsAfterWord mode lvl w) := by
  cases mode <;> exact ⟨rfl, rfl, by simp [usedRoles, levelsAfterWord, roleGet]⟩

/-- Words sent one after another keep the levels idle, and one word is enough to make them so. -/
theorem levelsIdle_afterWords {mode : BusMode} {ws : List BusWord} {lvl : RoleMap (Option Bool)}
    (start : ws = [] → LevelsIdle mode lvl) : LevelsIdle mode (levelsAfterWords mode ws lvl) := by
  induction ws generalizing lvl with
  | nil => exact start rfl
  | cons w rest ih => exact ih fun _ => levelsIdle_afterWord mode lvl w

theorem execInit_ready_levelsIdle {bus : BusDescriptor} {width : Byte} {bus8 : Bool} {lineCount : Byte} {bigFont : Bool}
    {s t : State} (h : execInit bus width bus8 lineCount bigFont s = .next t) (ready : t.life = .ready) :
    LevelsIdle t.mode t.lvl := by
  obtain ⟨-, -, -, rfl⟩ := execInit_ready h ready
  have words := initWords_spec lineCount (initPrime (initConfigured bus width bus8 s))
  rw [initReady_mode, initReady_lvl, words.2.mode, words.1.2]
  exact levelsIdle_afterWords fun empty => absurd empty (by simp [initWordList])

theorem exec_notInit_levelsIdle {i : Instr} {s t : State} (notInit : isInit i = false) (h : exec i s = .next t)
    (idle : LevelsIdle s.mode s.lvl) : LevelsIdle t.mode t.lvl := by
  obtain ⟨_, _, same⟩ := exec_notInit notInit h
  obtain ⟨base, reached⟩ := exec_reached h
  obtain ⟨acts, ok, result⟩ := reached.script
  have start : base = s := by
    rcases reached.origin with ⟨_, _, _, _, _, rfl, -⟩ | ⟨-, rfl, -⟩
    · cases notInit
    · rfl
  subst start
  have lvl : t.lvl = (runActs acts base).lvl := by rw [result]
  have mode : t.mode = base.mode := same.mode
  rw [lvl]
  exact runActs_induction (fun u => LevelsIdle t.mode u.lvl) (fun _ allowed _ => LevelsIdle.act allowed) acts ok base
    (mode ▸ idle)

/-- Settles O53: INIT configures the used lines and ends with a word; every other instruction is a script of actions that keep the
levels idle, and configures nothing. -/
theorem stepsLeaveTheLinesIdle : Obligations.StepsLeaveTheLinesIdle := by
  intro s t before h
  refine step_keeps (fun _ _ k => k) (fun _ _ _ k => k) (exec_keeps_ready (P := LinesIdle) ?_ ?_ ?_) before h
  · exact fun _ notReady ready => absurd ready notReady
  · intro bus width bus8 lineCount bigFont u v ran ready _
    have idle := execInit_ready_levelsIdle ran ready
    obtain ⟨-, -, -, -, configured⟩ := execInit_ready_fields ran ready
    exact ⟨idle.e, idle.rnw, fun role used => ⟨idle.driven role used, configured role used⟩⟩
  · intro i u v notInit wasReady before ran _
    obtain ⟨e, rnw, lines⟩ := before wasReady
    obtain ⟨_, _, same⟩ := exec_notInit notInit ran
    have idle := exec_notInit_levelsIdle notInit ran ⟨e, rnw, fun role used => (lines role used).1⟩
    refine ⟨idle.e, idle.rnw, fun role used => ⟨idle.driven role used, ?_⟩⟩
    rw [same.cfg]
    exact (lines role (same.mode ▸ used)).2

end Sys2Proof.Machine
end

section
/-! PROOFS. Bus words and priming nibbles (30_encoding.md R300 to R322): the (match, mask) pairs of the rows as arithmetic of the word, the
row a word decodes to, and the word a row is sent as. -/

namespace Sys2Proof

open Sys2Proof.Machine

/-! ### The (match, mask) pairs of R321 as arithmetic -/

/-- A mask of the bits from `k` up asks for the quotient by `2 ^ k`. -/
theorem and_upperMask_eq_iff (w : BitVec 10) (k p : Nat) (inWord : p * 2 ^ k < 2 ^ 10) :
    w &&& BitVec.allOnes 10 <<< k = BitVec.ofNat 10 (p * 2 ^ k) ↔ w.toNat / 2 ^ k = p := by
  have small : w.toNat / 2 ^ k * 2 ^ k < 2 ^ 10 := Nat.lt_of_le_of_lt (Nat.div_mul_le_self _ _) w.isLt
  rw [← BitVec.shiftLeft_ushiftRight, BitVec.toNat_eq, BitVec.toNat_shiftLeft, BitVec.toNat_ushiftRight, BitVec.toNat_ofNat,
    Nat.shiftRight_eq_div_pow, Nat.shiftLeft_eq, Nat.mod_eq_of_lt small, Nat.mod_eq_of_lt inWord]
  exact Nat.mul_left_inj (by positivity)

/-- A mask of two parts asks for each part. -/
theorem and_or_eq_iff {n : Nat} (w m k p : BitVec n) (inMask : p &&& (m ||| k) = p) :
    w &&& (m ||| k) = p ↔ w &&& m = p &&& m ∧ w &&& k = p &&& k := by
  constructor
  · rintro rfl
    have left : (m ||| k) &&& m = m := by ext; simpa using Or.inl
    have right : (m ||| k) &&& k = k := by ext; simpa using Or.inr
    rw [BitVec.and_assoc, BitVec.and_assoc, left, right]
    exact ⟨rfl, rfl⟩
  · rintro ⟨left, right⟩
    rw [← inMask, BitVec.and_or_distrib_left, left, right, BitVec.and_or_distrib_left]

section
variable (w : BitVec 10)

theorem word_eq_001_iff : w = 0x001 ↔ w.toNat = 1 := BitVec.toNat_eq
theorem word_eq_002_iff : w = 0x002 ↔ w.toNat = 2 := BitVec.toNat_eq
theorem and_3FC_iff : w &&& 0x3FC = 0x004 ↔ w.toNat / 4 = 1 := and_upperMask_eq_iff w 2 1 (by decide)
theorem and_3F8_iff : w &&& 0x3F8 = 0x008 ↔ w.toNat / 8 = 1 := and_upperMask_eq_iff w 3 1 (by decide)
theorem and_3F0_iff : w &&& 0x3F0 = 0x010 ↔ w.toNat / 16 = 1 := and_upperMask_eq_iff w 4 1 (by decide)
theorem and_3E0_iff : w &&& 0x3E0 = 0x020 ↔ w.toNat / 32 = 1 := and_upperMask_eq_iff w 5 1 (by decide)
theorem and_3C0_iff : w &&& 0x3C0 = 0x040 ↔ w.toNat / 64 = 1 := and_upperMask_eq_iff w 6 1 (by decide)
theorem and_380_iff : w &&& 0x380 = 0x080 ↔ w.toNat / 128 = 1 := and_upperMask_eq_iff w 7 1 (by decide)
theorem and_300_iff : w &&& 0x300 = 0x200 ↔ w.toNat / 256 = 2 := and_upperMask_eq_iff w 8 2 (by decide)

theorem and_003_iff : w &&& 0x003 = 0x000 ↔ w.toNat % 4 = 0 := by
  rw [BitVec.toNat_eq, BitVec.toNat_and]
  exact iff_of_eq (congrArg (· = 0) (Nat.and_two_pow_sub_one_eq_mod w.toNat 2))

theorem and_3F3_iff : w &&& 0x3F3 = 0x010 ↔ w.toNat / 16 = 1 ∧ w.toNat % 4 = 0 := by
  rw [← and_3F0_iff, ← and_003_iff]
  exact and_or_eq_iff w 0x3F0 0x003 0x010 (by decide)

theorem and_3E3_iff : w &&& 0x3E3 = 0x020 ↔ w.toNat / 32 = 1 ∧ w.toNat % 4 = 0 := by
  rw [← and_3E0_iff, ← and_003_iff]
  exact and_or_eq_iff w 0x3E0 0x003 0x020 (by decide)

end

/-! ### A word and its two bytes (R300; log 5) -/

theorem toNat_joinBytes {high : Byte} (low : Byte) (inWord : high.toNat < 4) :
    (high.setWidth 2 ++ low).toNat = 256 * high.toNat + low.toNat := by
  rw [BitVec.toNat_append, ← Nat.shiftLeft_add_eq_or_of_lt low.isLt, BitVec.toNat_setWidth, Nat.shiftLeft_eq,
    Nat.mod_eq_of_lt inWord, Nat.mul_comm]

theorem wordRequest_joinBytes {high : Byte} (low : Byte) (inWord : high.toNat < 4) :
    wordRequest (high.setWidth 2 ++ low) = ⟨.bw10, [low, high]⟩ := by
  simp only [wordRequest, Request.mk.injEq, List.cons.injEq, BitVec.toNat_eq, BitVec.toNat_setWidth, BitVec.toNat_ushiftRight,
    Nat.shiftRight_eq_div_pow, toNat_joinBytes low inWord, true_and, and_true]
  omega

theorem toNat_highByte (w : BitVec 10) : ((w >>> 8).setWidth 8).toNat = w.toNat / 256 := by
  rw [BitVec.toNat_setWidth, BitVec.toNat_ushiftRight, Nat.shiftRight_eq_div_pow]
  omega

theorem highByte_lt (w : BitVec 10) : ((w >>> 8).setWidth 8).toNat < 4 := by
  rw [toNat_highByte]
  omega

theorem joinBytes_wordRequest (w : BitVec 10) : ((w >>> 8).setWidth 8).setWidth 2 ++ w.setWidth 8 = w := by
  rw [BitVec.toNat_eq, toNat_joinBytes _ (highByte_lt w), toNat_highByte, BitVec.toNat_setWidth]
  omega

/-- A byte is a word with RS and RNW low (R310). -/
theorem wordRequest_byte (b : Byte) : wordRequest (b.setWidth 10) = requestOfWord (cmdWord b) := by
  have high : (b.setWidth 10 >>> 8).setWidth 8 = (0 : Byte) := by
    rw [BitVec.toNat_eq, toNat_highByte, BitVec.toNat_setWidth]
    exact Nat.div_eq_of_lt (by omega)
  rw [wordRequest, high, BitVec.setWidth_setWidth_of_le b (by decide), BitVec.setWidth_eq]
  rfl

/-- A byte with RS high (R315). -/
theorem wordRequest_data (b : Byte) : wordRequest (0x200 ||| b.setWidth 10) = requestOfWord (datWord b) := by
  have bytes : wordRequest (b.setWidth 10) = requestOfWord (cmdWord b) := wordRequest_byte b
  simp only [wordRequest, requestOfWord, cmdWord, Request.mk.injEq, List.cons.injEq] at bytes
  obtain ⟨-, low, high, -⟩ := bytes
  rw [wordRequest, BitVec.setWidth_or, BitVec.ushiftRight_or_distrib, BitVec.setWidth_or, low, high]
  simp [requestOfWord, datWord]

/-! ### The row a word decodes to -/

theorem decode_wordRequest (w : BitVec 10) : decode (wordRequest w) = decodeWord w := by
  simp only [decode, decodeFront, wordRequest, if_pos (highByte_lt w), joinBytes_wordRequest]
  cases decodeWord w <;> rfl

/-- Settles O4: the quotients and remainders the nine rows ask for exclude one another. -/
theorem busWordsDecodeByMatchAndMask : Obligations.BusWordsDecodeByMatchAndMask := by
  intro w
  simp only [decode_wordRequest, decodeWord, word_eq_001_iff, word_eq_002_iff, and_3FC_iff, and_3F8_iff, and_3F3_iff, and_3E3_iff,
    and_3C0_iff, and_380_iff, and_300_iff]
  refine ⟨fun h => ?_, fun h => ?_, fun h => ?_, fun h => ?_, fun h => ?_, fun h => ?_, fun h => ?_, fun h => ?_, fun h => ?_⟩
  · rw [if_pos h]
  · rw [if_neg (by omega), if_pos h]
  · rw [if_neg (by omega), if_neg (by omega), if_pos h]
  · rw [if_neg (by omega), if_neg (by omega), if_neg (by omega), if_pos h]
  · rw [if_neg (by omega), if_neg (by omega), if_neg (by omega), if_neg (by omega), if_pos h]
  · rw [if_neg (by omega), if_neg (by omega), if_neg (by omega), if_neg (by omega), if_neg (by omega), if_pos h]
  · rw [if_neg (by omega), if_neg (by omega), if_neg (by omega), if_neg (by omega), if_neg (by omega), if_neg (by omega), if_pos h]
  · rw [if_neg (by omega), if_neg (by omega), if_neg (by omega), if_neg (by omega), if_neg (by omega), if_neg (by omega),
      if_neg (by omega), if_pos h]
  · rw [if_neg (by omega), if_neg (by omega), if_neg (by omega), if_neg (by omega), if_neg (by omega), if_neg (by omega),
      if_neg (by omega), if_neg (by omega), if_pos h]

theorem getLsbD_eight_iff (w : BitVec 10) : w.getLsbD 8 = true ↔ w.toNat / 256 % 2 = 1 := by
  simp [BitVec.getLsbD, Nat.testBit_eq_decide_div_mod_eq]

theorem getLsbD_nine_iff (w : BitVec 10) : w.getLsbD 9 = false ↔ w.toNat / 512 % 2 = 0 := by
  simp [BitVec.getLsbD, Nat.testBit_eq_decide_div_mod_eq]

/-- Settles O5: the values that no row of R321 asks for are those R322 lists. -/
theorem neverSentWordsAreRejected : Obligations.NeverSentWordsAreRejected := by
  intro w
  have inWord := w.isLt
  simp only [decode_wordRequest, decodeWord, word_eq_001_iff, word_eq_002_iff, and_3FC_iff, and_3F8_iff, and_3F3_iff, and_3E3_iff,
    and_3C0_iff, and_380_iff, and_300_iff, getLsbD_eight_iff, getLsbD_nine_iff, BitVec.toNat_setWidth]
  split_ifs <;> simp only [true_iff, false_iff] <;> omega

/-! ### The word a row is sent as -/

/-- Every bus word's instruction is encoded as the word its row gives (R310, R315), an address masked to its field. -/
theorem encode_of_busWordOf {i : Instr} {w : BusWord} (row : busWordOf i = some w) : encode i = requestOfWord w := by
  cases i <;> cases row
  case cmdClear => rfl
  case cmdHome => rfl
  case cmdEntryMode increment shift => cases increment <;> cases shift <;> rfl
  case cmdDisplayControl displayOn showCursor cursorBlink => cases displayOn <;> cases showCursor <;> cases cursorBlink <;> rfl
  case cmdShift shiftDisplay shiftRight => cases shiftDisplay <;> cases shiftRight <;> rfl
  case cmdFunctionSet bus8 lines2 bigFont => cases bus8 <;> cases lines2 <;> cases bigFont <;> rfl
  case cmdSetCgram addr =>
    rw [← wordRequest_byte, BitVec.setWidth_or]
    rfl
  case cmdSetDdram addr =>
    rw [← wordRequest_byte, BitVec.setWidth_or]
    rfl
  case data byte => exact wordRequest_data byte

/-- Settles O7: the encoding is the row's word even for an address wider than its field, which both mask. -/
theorem busWordEncodingIsTheWordSent : Obligations.BusWordEncodingIsTheWordSent :=
  fun _ _ _ row => encode_of_busWordOf row

/-! ### Operand bits and their places (R320) -/

/-- The bits outside a row's mask are its operands. -/
theorem match_or_operands {n : Nat} {w m p : BitVec n} (k : BitVec n) (matched : w &&& m = p) (cover : m ||| k = BitVec.allOnes n) :
    p ||| w &&& k = w := by
  rw [← matched, ← BitVec.and_or_distrib_left, cover, BitVec.and_allOnes]

theorem wordFlag_getLsbD (w : BitVec 10) (k : Nat) (bit : BitVec 10) (place : bit = BitVec.twoPow 10 k) :
    wordFlag (w.getLsbD k) bit = w &&& bit := by
  rw [place, BitVec.and_twoPow]
  rfl

theorem setWidth_lowByte (w : BitVec 10) : (w.setWidth 8).setWidth 10 = w &&& 0x0FF := by
  rw [BitVec.toNat_eq, BitVec.toNat_and, BitVec.toNat_setWidth, BitVec.toNat_setWidth, Nat.mod_eq_of_lt (by omega)]
  exact (Nat.and_two_pow_sub_one_eq_mod w.toNat 8).symm

theorem toNat_and_lt (b : Byte) {mask : Byte} {n : Nat} (small : mask.toNat < n) : (b &&& mask).toNat < n := by
  rw [BitVec.toNat_and]
  exact Nat.lt_of_le_of_lt Nat.and_le_right small

theorem and_3F_of_lt {addr : Byte} (small : addr.toNat < 0x40) : addr &&& 0x3F = addr := by
  rw [BitVec.toNat_eq, BitVec.toNat_and]
  exact Nat.and_two_pow_sub_one_of_lt_two_pow (n := 6) small

theorem and_7F_of_lt {addr : Byte} (small : addr.toNat < 0x80) : addr &&& 0x7F = addr := by
  rw [BitVec.toNat_eq, BitVec.toNat_and]
  exact Nat.and_two_pow_sub_one_of_lt_two_pow (n := 7) small

/-- A word that decodes is the word of a well-formed instruction: its row's pattern and its operand bits (R310, R315, R320). -/
theorem encode_of_decodeWord {w : BitVec 10} {i : Instr} (decoded : decodeWord w = .ok i) :
    i.wf = true ∧ encode i = wordRequest w := by
  unfold decodeWord at decoded
  split_ifs at decoded with clear home entryMode displayControl shift functionSet cgram ddram data <;> cases decoded
  · exact ⟨rfl, congrArg wordRequest clear.symm⟩
  · exact ⟨rfl, congrArg wordRequest home.symm⟩
  · refine ⟨rfl, congrArg wordRequest ?_⟩
    rw [wordFlag_getLsbD w 1 0x002 rfl, wordFlag_getLsbD w 0 0x001 rfl, BitVec.or_assoc, ← BitVec.and_or_distrib_left]
    exact match_or_operands _ entryMode rfl
  · refine ⟨rfl, congrArg wordRequest ?_⟩
    rw [wordFlag_getLsbD w 2 0x004 rfl, wordFlag_getLsbD w 1 0x002 rfl, wordFlag_getLsbD w 0 0x001 rfl, BitVec.or_assoc,
      BitVec.or_assoc, ← BitVec.and_or_distrib_left, ← BitVec.and_or_distrib_left]
    exact match_or_operands _ displayControl rfl
  · refine ⟨rfl, congrArg wordRequest ?_⟩
    rw [wordFlag_getLsbD w 3 0x008 rfl, wordFlag_getLsbD w 2 0x004 rfl, BitVec.or_assoc, ← BitVec.and_or_distrib_left]
    exact match_or_operands _ shift rfl
  · refine ⟨rfl, congrArg wordRequest ?_⟩
    rw [wordFlag_getLsbD w 4 0x010 rfl, wordFlag_getLsbD w 3 0x008 rfl, wordFlag_getLsbD w 2 0x004 rfl, BitVec.or_assoc,
      BitVec.or_assoc, ← BitVec.and_or_distrib_left, ← BitVec.and_or_distrib_left]
    exact match_or_operands _ functionSet rfl
  · have small := toNat_and_lt (w.setWidth 8) (mask := 0x3F) (n := 0x40) (by decide)
    refine ⟨decide_eq_true small, congrArg wordRequest ?_⟩
    rw [and_3F_of_lt small, BitVec.setWidth_and, setWidth_lowByte, BitVec.and_assoc]
    exact match_or_operands _ cgram rfl
  · have small := toNat_and_lt (w.setWidth 8) (mask := 0x7F) (n := 0x80) (by decide)
    refine ⟨decide_eq_true small, congrArg wordRequest ?_⟩
    rw [and_7F_of_lt small, BitVec.setWidth_and, setWidth_lowByte, BitVec.and_assoc]
    exact match_or_operands _ ddram rfl
  · refine ⟨rfl, congrArg wordRequest ?_⟩
    rw [setWidth_lowByte]
    exact match_or_operands _ data rfl

/-- Bits outside a row's mask do not change the match. -/
theorem or_operands_matches {p m : BitVec 10} {operands : Byte} (b : Byte) (pattern : p &&& m = p)
    (outside : operands.setWidth 10 &&& m = 0#10) : (p ||| (b &&& operands).setWidth 10) &&& m = p := by
  rw [BitVec.and_or_distrib_right, pattern, BitVec.setWidth_and, BitVec.and_assoc, outside, BitVec.and_zero, BitVec.or_zero]

/-- The operand is read back from a word's low byte. -/
theorem lowByte_or_operand {p : BitVec 10} {operands : Byte} (b : Byte) (outside : p.setWidth 8 &&& operands = 0#8) :
    (p ||| (b &&& operands).setWidth 10).setWidth 8 &&& operands = b &&& operands := by
  rw [BitVec.setWidth_or, BitVec.setWidth_setWidth_of_le _ (by decide), BitVec.setWidth_eq, BitVec.and_or_distrib_right, outside,
    BitVec.zero_or, BitVec.and_assoc, BitVec.and_self]

/-- A well-formed bus word's instruction is read back from its encoding (R310, R315, R320). -/
theorem decode_encode_busWord {i : Instr} {w : BusWord} (row : busWordOf i = some w) (wf : i.wf = true) :
    decode (encode i) = .ok i := by
  cases i <;> cases row
  case cmdClear => rfl
  case cmdHome => rfl
  case cmdEntryMode increment shift => cases increment <;> cases shift <;> rfl
  case cmdDisplayControl displayOn showCursor cursorBlink => cases displayOn <;> cases showCursor <;> cases cursorBlink <;> rfl
  case cmdShift shiftDisplay shiftRight => cases shiftDisplay <;> cases shiftRight <;> rfl
  case cmdFunctionSet bus8 lines2 bigFont => cases bus8 <;> cases lines2 <;> cases bigFont <;> rfl
  case cmdSetCgram addr =>
    obtain ⟨-, -, -, -, -, -, cgram, -⟩ := busWordsDecodeByMatchAndMask (0x040 ||| (addr &&& 0x3F).setWidth 10)
    refine (cgram (or_operands_matches addr rfl rfl)).trans ?_
    rw [lowByte_or_operand addr rfl, and_3F_of_lt (of_decide_eq_true wf)]
  case cmdSetDdram addr =>
    obtain ⟨-, -, -, -, -, -, -, ddram, -⟩ := busWordsDecodeByMatchAndMask (0x080 ||| (addr &&& 0x7F).setWidth 10)
    refine (ddram (or_operands_matches addr rfl rfl)).trans ?_
    rw [lowByte_or_operand addr rfl, and_7F_of_lt (of_decide_eq_true wf)]
  case data byte =>
    obtain ⟨-, -, -, -, -, -, -, -, data⟩ := busWordsDecodeByMatchAndMask (0x200 ||| byte.setWidth 10)
    have matched := or_operands_matches byte (p := 0x200) (m := 0x300) (operands := BitVec.allOnes 8) rfl rfl
    have low := lowByte_or_operand byte (p := 0x200) (operands := BitVec.allOnes 8) rfl
    simp only [BitVec.and_allOnes] at matched low
    refine (data matched).trans ?_
    rw [low]

end Sys2Proof
end

section
/-! PROOFS. Host calls (30_encoding.md R330, R331) and the two round trips of the encoding. -/

namespace Sys2Proof

open Sys2Proof.Machine

/-! ### Reading one operand and going on (log 3) -/

section
variable {α : Type} {bytes : List Byte} {a : α}

theorem bind_takeByte_ok {f : Byte × List Byte → Except DecodeError α} (h : (takeByte bytes >>= f) = .ok a) :
    ∃ b rest, bytes = b :: rest ∧ f (b, rest) = .ok a := by
  obtain ⟨⟨b, rest⟩, taken, more⟩ := Except.bind_ok h
  exact ⟨b, rest, takeByte_ok taken, more⟩

theorem bind_takeBool_ok {f : Bool × List Byte → Except DecodeError α} (h : (takeBool bytes >>= f) = .ok a) :
    ∃ b rest, bytes = boolByte b :: rest ∧ f (b, rest) = .ok a := by
  obtain ⟨⟨b, rest⟩, taken, more⟩ := Except.bind_ok h
  exact ⟨b, rest, takeBool_ok taken, more⟩

theorem bind_takeList_ok {f : List Byte × List Byte → Except DecodeError α} (h : (takeList bytes >>= f) = .ok a) :
    ∃ bs rest, bytes = listBytes bs ++ rest ∧ f (bs, rest) = .ok a := by
  obtain ⟨⟨bs, rest⟩, taken, more⟩ := Except.bind_ok h
  exact ⟨bs, rest, takeList_ok taken, more⟩

theorem bind_takeBus_ok {f : BusDescriptor × List Byte → Except DecodeError α} (h : (takeBus bytes >>= f) = .ok a) :
    ∃ m rest, bytes = busBytes m ++ rest ∧ f (m, rest) = .ok a := by
  obtain ⟨⟨m, rest⟩, taken, more⟩ := Except.bind_ok h
  exact ⟨m, rest, takeBus_ok taken, more⟩

end

theorem byte_eq_of_toNat {b : Byte} {n : Nat} (value : b.toNat = n) : b = BitVec.ofNat 8 n := by
  rw [← value, BitVec.ofNat_toNat, BitVec.setWidth_eq]

/-- `q` is the encoding of `i`, which is well-formed, with `left` after it. -/
def EncodedAtFront (i : Instr) (left : List Byte) (q : Request) : Prop :=
  i.wf = true ∧ q = ⟨(encode i).format, (encode i).bytes ++ left⟩

theorem encodedAtFront_call {i : Instr} {tag : Byte} {operands left : List Byte} {n : Nat} (value : tag.toNat = n) (wf : i.wf = true)
    (call : (⟨.hostOp, BitVec.ofNat 8 n :: operands⟩ : Request) = ⟨(encode i).format, (encode i).bytes ++ left⟩) :
    EncodedAtFront i left ⟨.hostOp, tag :: operands⟩ :=
  ⟨wf, by rw [byte_eq_of_toNat value, call]⟩

/-- What a host call decodes to, it begins with: tag by tag, operand by operand (R330). -/
theorem encodedAtFront_of_decodeHost {bytes left : List Byte} {i : Instr} (decoded : decodeHost bytes = .ok (i, left)) :
    EncodedAtFront i left ⟨.hostOp, bytes⟩ := by
  cases bytes with
  | nil => cases decoded
  | cons tag r =>
    simp only [decodeHost] at decoded
    split at decoded <;> rename_i value
    · obtain ⟨bus, r, rfl, afterBus⟩ := bind_takeBus_ok decoded
      obtain ⟨width, r, rfl, afterWidth⟩ := bind_takeByte_ok afterBus
      obtain ⟨bus8, r, rfl, afterBus8⟩ := bind_takeBool_ok afterWidth
      obtain ⟨lineCount, r, rfl, afterLineCount⟩ := bind_takeByte_ok afterBus8
      obtain ⟨bigFont, r, rfl, afterBigFont⟩ := bind_takeBool_ok afterLineCount
      cases afterBigFont
      exact encodedAtFront_call value rfl (by simp [encode])
    · cases decoded
      exact encodedAtFront_call value rfl rfl
    · cases decoded
      exact encodedAtFront_call value rfl rfl
    · obtain ⟨increment, r, rfl, afterIncrement⟩ := bind_takeBool_ok decoded
      obtain ⟨shift, r, rfl, afterShift⟩ := bind_takeBool_ok afterIncrement
      cases afterShift
      exact encodedAtFront_call value rfl rfl
    · obtain ⟨displayOn, r, rfl, afterDisplayOn⟩ := bind_takeBool_ok decoded
      obtain ⟨showCursor, r, rfl, afterShowCursor⟩ := bind_takeBool_ok afterDisplayOn
      obtain ⟨cursorBlink, r, rfl, afterCursorBlink⟩ := bind_takeBool_ok afterShowCursor
      cases afterCursorBlink
      exact encodedAtFront_call value rfl rfl
    · obtain ⟨shiftDisplay, r, rfl, afterShiftDisplay⟩ := bind_takeBool_ok decoded
      obtain ⟨shiftRight, r, rfl, afterShiftRight⟩ := bind_takeBool_ok afterShiftDisplay
      cases afterShiftRight
      exact encodedAtFront_call value rfl rfl
    · obtain ⟨bus8, r, rfl, afterBus8⟩ := bind_takeBool_ok decoded
      obtain ⟨lineCount, r, rfl, afterLineCount⟩ := bind_takeByte_ok afterBus8
      obtain ⟨bigFont, r, rfl, afterBigFont⟩ := bind_takeBool_ok afterLineCount
      cases afterBigFont
      exact encodedAtFront_call value rfl rfl
    · obtain ⟨addr, r, rfl, afterAddr⟩ := bind_takeByte_ok decoded
      cases afterAddr
      exact encodedAtFront_call value rfl rfl
    · obtain ⟨addr, r, rfl, afterAddr⟩ := bind_takeByte_ok decoded
      cases afterAddr
      exact encodedAtFront_call value rfl rfl
    · obtain ⟨code, r, rfl, afterCode⟩ := bind_takeByte_ok decoded
      cases afterCode
      exact encodedAtFront_call value rfl rfl
    · obtain ⟨col, r, rfl, afterCol⟩ := bind_takeByte_ok decoded
      obtain ⟨row, r, rfl, afterRow⟩ := bind_takeByte_ok afterCol
      obtain ⟨code, r, rfl, afterCode⟩ := bind_takeByte_ok afterRow
      cases afterCode
      exact encodedAtFront_call value rfl rfl
    · obtain ⟨text, r, rfl, afterText⟩ := bind_takeList_ok decoded
      cases afterText
      exact encodedAtFront_call value rfl rfl
    · obtain ⟨col, r, rfl, afterCol⟩ := bind_takeByte_ok decoded
      obtain ⟨row, r, rfl, afterRow⟩ := bind_takeByte_ok afterCol
      obtain ⟨text, r, rfl, afterText⟩ := bind_takeList_ok afterRow
      cases afterText
      exact encodedAtFront_call value rfl rfl
    · obtain ⟨addr, r, rfl, afterAddr⟩ := bind_takeByte_ok decoded
      obtain ⟨pattern, r, rfl, afterPattern⟩ := bind_takeList_ok afterAddr
      obtain ⟨size, r, rfl, afterSize⟩ := bind_takeByte_ok afterPattern
      cases afterSize
      exact encodedAtFront_call value rfl (by simp [encode])
    · cases decoded
      exact encodedAtFront_call value rfl rfl
    · obtain ⟨col, r, rfl, afterCol⟩ := bind_takeByte_ok decoded
      obtain ⟨row, r, rfl, afterRow⟩ := bind_takeByte_ok afterCol
      cases afterRow
      exact encodedAtFront_call value rfl rfl
    · cases decoded
      exact encodedAtFront_call value rfl rfl
    · obtain ⟨isData, r, rfl, afterIsData⟩ := bind_takeBool_ok decoded
      obtain ⟨byte, r, rfl, afterByte⟩ := bind_takeByte_ok afterIsData
      cases afterByte
      exact encodedAtFront_call value rfl rfl
    · cases decoded

theorem encode_of_decodeNibble {n : BitVec 6} {i : Instr} (decoded : decodeNibble n = .ok i) :
    i.wf = true ∧ encode i = ⟨.nib6, [n.setWidth 8]⟩ := by
  unfold decodeNibble at decoded
  split_ifs at decoded with three two <;> cases decoded
  · exact ⟨rfl, by rw [three]; rfl⟩
  · exact ⟨rfl, by rw [two]; rfl⟩

theorem setWidth_nibbleByte {b : Byte} (inCycle : b.toNat < 0x40) : (b.setWidth 6).setWidth 8 = b := by
  rw [BitVec.toNat_eq, BitVec.toNat_setWidth, BitVec.toNat_setWidth]
  omega

/-- What a request decodes to, it begins with, in each format. -/
theorem encodedAtFront_of_decodeFront {q : Request} {i : Instr} {left : List Byte} (decoded : decodeFront q = .ok (i, left)) :
    EncodedAtFront i left q := by
  obtain ⟨format, bytes⟩ := q
  cases format with
  | hostOp => exact encodedAtFront_of_decodeHost decoded
  | bw10 =>
    match bytes with
    | [] | [_] => cases decoded
    | low :: high :: rest =>
      simp only [decodeFront] at decoded
      split_ifs at decoded with inWord
      obtain ⟨j, word, done⟩ := Except.bind_ok decoded
      cases done
      obtain ⟨wf, encoded⟩ := encode_of_decodeWord word
      exact ⟨wf, by rw [encoded, wordRequest_joinBytes low inWord]; rfl⟩
  | nib6 =>
    cases bytes with
    | nil => cases decoded
    | cons b rest =>
      simp only [decodeFront] at decoded
      split_ifs at decoded with inCycle
      obtain ⟨j, cycle, done⟩ := Except.bind_ok decoded
      cases done
      obtain ⟨wf, encoded⟩ := encode_of_decodeNibble cycle
      exact ⟨wf, by rw [encoded, setWidth_nibbleByte inCycle]; rfl⟩

theorem decode_eq_ok_iff {q : Request} {i : Instr} : decode q = .ok i ↔ decodeFront q = .ok (i, []) := by
  unfold decode
  split <;> simp_all

/-- Settles O2: `encodedAtFront_of_decodeFront` with no byte left. -/
theorem everyDecodedRequestIsItsEncoding : Obligations.EveryDecodedRequestIsItsEncoding := by
  intro q i decoded
  obtain ⟨wf, front⟩ := encodedAtFront_of_decodeFront (decode_eq_ok_iff.mp decoded)
  rw [List.append_nil] at front
  exact ⟨wf, front.symm⟩

/-- Each operand reader reads back what the encoding of a host operation lays down (R330). -/
theorem decodeFront_encode_hostOp {i : Instr} (host : (encode i).format = .hostOp) : decodeFront (encode i) = .ok (i, []) := by
  cases i <;> cases host <;> simp [encode, decodeFront, decodeHost, bind, Except.bind]

/-- Settles O1, by the three formats: a bus word, a nibble, a host call. -/
theorem decodeOfEncodeIsTheInstruction : Obligations.DecodeOfEncodeIsTheInstruction := by
  intro i wf
  cases i with
  | nibPrime3 | nibPrime2 => rfl
  | cmdClear | cmdHome | cmdEntryMode | cmdDisplayControl | cmdShift | cmdFunctionSet | cmdSetCgram | cmdSetDdram | data =>
    exact decode_encode_busWord rfl wf
  | _ => exact decode_eq_ok_iff.mpr (decodeFront_encode_hostOp rfl)

/-- Settles O3: the words written out are encodings. -/
theorem wordsWrittenOutFromTheTableDecode : Obligations.WordsWrittenOutFromTheTableDecode := by
  have back := decodeOfEncodeIsTheInstruction
  exact ⟨back .cmdClear rfl, back (.cmdEntryMode true false) rfl, back (.cmdDisplayControl true false false) rfl,
    back (.cmdShift false true) rfl, back (.cmdFunctionSet false true false) rfl, back (.cmdSetCgram 0x3F) rfl,
    back (.cmdSetDdram 0x40) rfl, back (.data 0xA5) rfl, back .nibPrime3 rfl, back .home rfl, back (.putChar 0x41) rfl,
    back .isBusy rfl⟩

end Sys2Proof
end

section
/-! PROOFS. What a step does with a placed table word (30_encoding.md R330; log 5) and with a tag that names no operation (R331). -/

namespace Sys2Proof

open Sys2Proof.Machine

/-! ### Table words -/

theorem trimRequest_of_decodeFront {q : Request} {i : Instr} {left : List Byte} (decoded : decodeFront q = .ok (i, left)) :
    trimRequest q = encode i := by
  obtain ⟨-, front⟩ := encodedAtFront_of_decodeFront decoded
  simp only [trimRequest, decoded]
  simp [front]

theorem decodeTableWord_eq_some {nbits w : Nat} {i : Instr} (table : decodeTableWord nbits w = some i) :
    ∃ q left, tableRequest nbits w = some q ∧ decodeFront q = .ok (i, left) := by
  unfold decodeTableWord at table
  split at table
  · split at table <;> cases table
    exact ⟨_, _, ‹_›, ‹_›⟩
  · cases table

theorem withFetchWord_of_decodeTableWord {nbits w : Nat} {i : Instr} (table : decodeTableWord nbits w = some i) (s : State) :
    s.withFetchWord nbits w = { s with calls := encode i :: s.calls } := by
  obtain ⟨q, left, request, decoded⟩ := decodeTableWord_eq_some table
  simp only [State.withFetchWord, placeTableWord, request, trimRequest_of_decodeFront decoded]

/-- Settles O9: a placed table word is the encoding of the instruction it decodes to, and decodes to it (O1). -/
theorem placedTableWordRunsNext : Obligations.PlacedTableWordRunsNext := by
  intro s nbits w i table
  obtain ⟨q, left, -, front⟩ := decodeTableWord_eq_some table
  have decoded := decodeOfEncodeIsTheInstruction i (encodedAtFront_of_decodeFront front).1
  rw [withFetchWord_of_decodeTableWord table]
  exact step_of_decoded (s := { s with calls := encode i :: s.calls }) rfl decoded

/-! ### Tags that name no operation (R331) -/

/-- The reading is not the one of a bad tag. -/
def NoBadOpcode {α : Type} (x : Except DecodeError α) : Prop := ∀ tag, x ≠ .error (.badOpcode tag)

section
variable {α β : Type}

@[simp] theorem noBadOpcode_ok (a : α) : NoBadOpcode (.ok a) := fun _ => by simp

@[simp] theorem noBadOpcode_bind {x : Except DecodeError α} {f : α → Except DecodeError β} :
    NoBadOpcode (x >>= f) ↔ NoBadOpcode x ∧ ∀ a, x = .ok a → NoBadOpcode (f a) := by
  cases x <;> simp [NoBadOpcode, bind, Except.bind]

end

@[simp] theorem noBadOpcode_takeByte (bytes : List Byte) : NoBadOpcode (takeByte bytes) := by
  cases bytes <;> simp [NoBadOpcode, takeByte]

@[simp] theorem noBadOpcode_takeBool (bytes : List Byte) : NoBadOpcode (takeBool bytes) := by
  cases bytes with
  | nil => simp [NoBadOpcode, takeBool]
  | cons b rest =>
    simp only [takeBool]
    split_ifs <;> simp [NoBadOpcode]

@[simp] theorem noBadOpcode_takeLine (bytes : List Byte) : NoBadOpcode (takeLine bytes) := by
  unfold takeLine
  split <;> simp [NoBadOpcode]

@[simp] theorem noBadOpcode_takeList (bytes : List Byte) : NoBadOpcode (takeList bytes) := by
  intro tag
  induction bytes using takeList.induct <;> simp_all [takeList]

@[simp] theorem noBadOpcode_takeBus (bytes : List Byte) : NoBadOpcode (takeBus bytes) := by
  simp [takeBus]

theorem decodeHost_badOpcode {tag : Byte} (unused : tag = 0x0F ∨ 0x13 ≤ tag.toNat) (args : List Byte) :
    decodeHost (tag :: args) = .error (.badOpcode tag) := by
  have value : tag.toNat = 0x0F ∨ 0x13 ≤ tag.toNat := unused.imp_left (congrArg BitVec.toNat)
  simp only [decodeHost]
  split
  case h_19 => rfl
  all_goals omega

/-- Of a tag that is used, every operand reader has another error. -/
theorem noBadOpcode_decodeHost {tag : Byte} (used : ¬ (tag = 0x0F ∨ 0x13 ≤ tag.toNat)) (args : List Byte) :
    NoBadOpcode (decodeHost (tag :: args)) := by
  have value : tag.toNat ≠ 0x0F ∧ tag.toNat < 0x13 :=
    ⟨fun same => used (.inl (byte_eq_of_toNat same)), Nat.not_le.mp fun large => used (.inr large)⟩
  simp only [decodeHost]
  split
  case h_19 =>
    simp only [imp_false] at *
    omega
  all_goals simp

theorem decode_badOpcode_iff (tag : Byte) (args : List Byte) :
    decode ⟨.hostOp, tag :: args⟩ = .error (.badOpcode tag) ↔ tag = 0x0F ∨ 0x13 ≤ tag.toNat := by
  have front : decodeFront ⟨.hostOp, tag :: args⟩ = decodeHost (tag :: args) := rfl
  constructor
  · intro bad
    by_contra used
    have other := noBadOpcode_decodeHost used args tag
    unfold decode at bad
    split at bad <;> simp_all
  · intro unused
    rw [decode, front, decodeHost_badOpcode unused]

theorem refusalOf_eq_badOpcode_iff {err : DecodeError} {tag : Byte} : refusalOf err = .badOpcode tag ↔ err = .badOpcode tag := by
  cases err <;> simp [refusalOf]

/-- No instruction is refused with BAD_OPCODE (60_exceptions.md R702). -/
theorem answered_exec_outcome {i : Instr} {s t : State} (h : answered s (exec i s) = .next t) (tag : Byte) :
    t.outcome ≠ .refused (.badOpcode tag) := by
  cases ran : exec i s with
  | next u =>
    rw [ran] at h
    cases h
    exact exec_next_outcome ran _
  | fault f =>
    rw [ran] at h
    cases h
  | refused r =>
    rw [ran] at h
    cases h
    rintro ⟨⟩
    simpa using (exec_refused ran).2.2

section
variable {s : State} {q : Request} {rest : List Request} (pending : s.calls = q :: rest)
include pending

/-- Outside HALTED only a bad tag is handed back as BAD_OPCODE (60_exceptions.md R722). -/
theorem step_returns_badOpcode_iff (alive : s.life ≠ .halted) (tag : Byte) :
    step s = .next (afterRefusal s rest (.badOpcode tag)) ↔ decode q = .error (.badOpcode tag) := by
  cases decoded : decode q with
  | ok i =>
    rw [step_of_decoded pending decoded]
    exact iff_of_false (fun h => answered_exec_outcome h tag rfl) (by simp)
  | error err => 
    rw [step_of_undecoded pending decoded, backToCaller_next, Except.error.injEq, ← refusalOf_eq_badOpcode_iff]
    constructor
    · rintro (same | ⟨r, same, -, -, outcome⟩)
      · cases same
      · cases same
        exact (OpOutcome.refused.inj (congrArg State.outcome outcome)).symm
    · rintro same
      exact .inr ⟨_, rfl, by rw [same]; rfl, alive, by rw [same]; rfl⟩

/-- In HALTED only a bad tag is refused with BAD_OPCODE (60_exceptions.md R711). -/
theorem step_refuses_badOpcode_iff (halted : s.life = .halted) (tag : Byte) :
    step s = .refused (.badOpcode tag) ↔ decode q = .error (.badOpcode tag) := by
  rw [step_of_calls pending, backToCaller_of_halted (s := { s with calls := rest }) _ halted]
  cases decoded : decode q with
  | ok i => 
    refine iff_of_false (fun refused => ?_) (by simp)
    exact (exec_refused refused).1 halted
  | error err => simp [refusalOf_eq_badOpcode_iff]

end

/-- Settles O11: a step answers BAD_OPCODE exactly when the tag is the reason its call does not decode. -/
theorem unusedTagsAreBadOpcodes : Obligations.UnusedTagsAreBadOpcodes := by
  intro s tag args rest pending
  refine ⟨fun alive => ?_, fun halted => ?_⟩
  · rw [step_returns_badOpcode_iff pending alive, decode_badOpcode_iff]
  · rw [step_refuses_badOpcode_iff pending halted, decode_badOpcode_iff]

end Sys2Proof
end

section
/-! PROOFS. What the sequencer's words and WRITE put on the bus (30_encoding.md R302, R310, R315, 40_bus_transport.md R431), and the
expansions of the pseudo operations (30_encoding.md R341). -/

namespace Sys2Proof.Machine

/-! ### Words put on the bus -/

theorem SameButBus.keepsAllButBus {s t : State} {outcome : OpOutcome} (same : SameButBus { s with outcome := outcome } t) :
    KeepsAllButBus s t outcome := same.eq

/-- A write that ends an operation (40_bus_transport.md R400). -/
theorem writeByte_done (isData : Bool) (b : Byte) (s : State) :
    Sends s { writeByte isData b s with outcome := .done } [⟨isData, b⟩] ∧
      KeepsAllButBus s { writeByte isData b s with outcome := .done } .done := by
  obtain ⟨sends, same⟩ := (writeByte_movesAndSends isData b s).done
  exact ⟨sends, same.keepsAllButBus⟩

/-- Settles O14: WRITE is the host operation of one `writeByte`. -/
theorem writeSendsItsByte : Obligations.WriteSendsItsByte := by
  intro isData byte
  exact ⟨fun s uninit => hostOp_refused.mpr ⟨uninit, rfl⟩,
    fun s ready => ⟨_, hostOp_ready (effect := writeByte isData byte) ready, writeByte_done isData byte s⟩⟩

theorem setCgramWord_eq_or (addr : Byte) : setCgramWord addr = 0x40 ||| (addr &&& 0x3F) :=
  BitVec.add_eq_or_of_and_eq_zero _ _ (by
    rw [BitVec.and_comm addr, ← BitVec.and_assoc]
    exact BitVec.zero_and)

theorem setDdramWord_eq_or (n : Nat) : setDdramWord n = 0x80 ||| (BitVec.ofNat 8 n &&& 0x7F) :=
  BitVec.add_eq_or_of_and_eq_zero _ _ (by
    rw [BitVec.and_comm (BitVec.ofNat 8 n), ← BitVec.and_assoc]
    exact BitVec.zero_and)

/-- An instruction of the sequencer's table writes the word of its row, outside HALTED (30_encoding.md R310, R315; log 6). -/
theorem exec_busWord {i : Instr} {w : BusWord} (row : busWordOf i = some w) (s : State) :
    exec i s = busOp (writeByte w.isData w.byte) s := by
  cases i <;> cases row
  case cmdSetCgram addr =>
    change busOp (sendCgramAddress addr) s = busOp (sendCommand (0x40 ||| (addr &&& 0x3F))) s
    rw [← setCgramWord_eq_or]
    rfl
  case cmdSetDdram addr =>
    have word : setDdramWord addr.toNat = 0x80 ||| (addr &&& 0x7F) := by
      rw [setDdramWord_eq_or, BitVec.ofNat_toNat, BitVec.setWidth_eq]
    change busOp (sendDdramAddress addr.toNat) s = busOp (sendCommand (0x80 ||| (addr &&& 0x7F))) s
    rw [← word]
    rfl
  all_goals rfl

/-- Settles O16: `exec_busWord`, and what a write does. -/
theorem busWordsArePutOnTheBus : Obligations.BusWordsArePutOnTheBus := by
  intro i w s row alive
  exact ⟨_, (exec_busWord row s).trans (busOp_next.mpr ⟨alive, rfl⟩), writeByte_done w.isData w.byte s⟩

/-! ### Pseudo operations (R341) -/

/-- Two effects in one operation are two operations one after the other, when the first stays READY and the second does not read the
outcome. -/
theorem hostOp_comp {f g : State → State} (s : State) (life : (f s).life = s.life)
    (outcome : g { f s with outcome := .done } = { g (f s) with outcome := .done }) :
    hostOp (fun s => g (f s)) s = andThen (hostOp f s) (hostOp g) := by
  cases now : s.life with
  | ready =>
    have second := hostOp_ready (effect := g) (s := { f s with outcome := .done }) (life.trans now)
    rw [outcome] at second
    rw [hostOp_ready now, hostOp_ready now]
    exact second.symm
  | uninit | halted => simp [hostOp, whenReady, now, andThen]

/-- Only what an effect does in READY matters to its operation. -/
theorem hostOp_congr {f g : State → State} {s : State} (same : s.life = .ready → f s = g s) : hostOp f s = hostOp g s := by
  cases life : s.life with
  | ready => rw [hostOp_ready life, hostOp_ready life, same life]
  | uninit | halted => simp [hostOp, whenReady, life]

/-- Settles O37: `moveCursor` stays READY and no effect reads the outcome; a row of the cursor space has a next row that is a byte. -/
theorem pseudoOperationsAreTheirExpansions : Obligations.PseudoOperationsAreTheirExpansions := by
  refine ⟨fun col row code s => ?_, fun col row text s => ?_, fun s inRange => ?_⟩
  · exact hostOp_comp s (moveCursor_spec col.toNat row.toNat s).2.life (emitChar_outcome code .done _)
  · exact hostOp_comp s (moveCursor_spec col.toNat row.toNat s).2.life (emitText_outcome text .done _)
  · refine hostOp_congr fun ready => ?_
    have nextRow : (s.cursor.row + 1).toNat = s.cursor.row.toNat + 1 := by
      have := (inRange ready).2
      bv_omega
    rw [lineFeed, nextRow]
    rfl

end Sys2Proof.Machine
end

section
/-! PROOFS. Host operations send words of the table only (30_encoding.md R322, R323, 42_commands.md R518), and the bus cycles of INIT
(44_init_status.md R604, R606, R608). -/

namespace Sys2Proof.Machine

/-! ### Words of the table (R322, R323, 42_commands.md R518) -/

/-- The word is one the decoder reads. -/
def InTable (w : BusWord) : Prop := ∃ i, decode (requestOfWord w) = .ok i

theorem inTable_of_busWordOf {i : Instr} {w : BusWord} (row : busWordOf i = some w) (wf : i.wf = true) : InTable w :=
  ⟨i, by rw [← encode_of_busWordOf row]; exact decodeOfEncodeIsTheInstruction i wf⟩

theorem inTable_data (b : Byte) : InTable (datWord b) := inTable_of_busWordOf (i := .data b) rfl rfl

theorem inTable_setCgramWord (addr : Byte) : InTable (cmdWord (setCgramWord addr)) := by
  have field : addr &&& 0x3F = (addr &&& 0x3F) &&& 0x3F := by rw [BitVec.and_assoc, BitVec.and_self]
  rw [setCgramWord_eq_or, field]
  exact inTable_of_busWordOf (i := .cmdSetCgram (addr &&& 0x3F)) rfl (decide_eq_true (toNat_and_lt addr (by decide)))

theorem inTable_setDdramWord (n : Nat) : InTable (cmdWord (setDdramWord n)) := by
  have field : BitVec.ofNat 8 n &&& 0x7F = (BitVec.ofNat 8 n &&& 0x7F) &&& 0x7F := by rw [BitVec.and_assoc, BitVec.and_self]
  rw [setDdramWord_eq_or, field]
  exact inTable_of_busWordOf (i := .cmdSetDdram (BitVec.ofNat 8 n &&& 0x7F)) rfl
    (decide_eq_true (toNat_and_lt (BitVec.ofNat 8 n) (by decide)))

theorem inTable_movedWord (width col row : Nat) : InTable (cmdWord (movedWord width col row)) := by
  rw [← setDdramWord_locate]
  exact inTable_setDdramWord _

theorem inTable_textRun (width : Nat) (start : Nat × Nat) (text : List Byte) : ∀ w ∈ (textRun width start text).1, InTable w := by
  induction text generalizing start with
  | nil => simp [textRun]
  | cons c rest ih =>
    unfold textRun
    split
    · exact List.forall_mem_cons.mpr ⟨inTable_movedWord _ _ _, ih _⟩
    · exact List.forall_mem_cons.mpr ⟨inTable_data _, List.forall_mem_cons.mpr ⟨inTable_movedWord _ _ _, ih _⟩⟩

/-- What a host operation but INIT and WRITE sends is words of the table, and no cycle after them. -/
theorem effectOf_inTable {i : Instr} {s : State} {e : Effect} (he : effectOf i s = some e)
    (notWrite : ∀ isData byte, i ≠ .write isData byte) : (∀ w ∈ e.words, InTable w) ∧ cyclesSeen e.after = [] := by
  cases i <;> cases he
  case clear => exact ⟨List.forall_mem_singleton.mpr (inTable_of_busWordOf (i := .cmdClear) rfl rfl), rfl⟩
  case home => exact ⟨List.forall_mem_singleton.mpr (inTable_of_busWordOf (i := .cmdHome) rfl rfl), rfl⟩
  case entryModeSet a b => exact ⟨List.forall_mem_singleton.mpr (inTable_of_busWordOf (i := .cmdEntryMode a b) rfl rfl), rfl⟩
  case displayControl a b c =>
    exact ⟨List.forall_mem_singleton.mpr (inTable_of_busWordOf (i := .cmdDisplayControl a b c) rfl rfl), rfl⟩
  case cursorControl a b => exact ⟨List.forall_mem_singleton.mpr (inTable_of_busWordOf (i := .cmdShift a b) rfl rfl), rfl⟩
  case functionSet a n c =>
    exact ⟨List.forall_mem_singleton.mpr (inTable_of_busWordOf (i := .cmdFunctionSet a (twoLines n) c) rfl rfl), rfl⟩
  case setCgramAddress addr => exact ⟨List.forall_mem_singleton.mpr (inTable_setCgramWord addr), rfl⟩
  case setDdramAddress addr => exact ⟨List.forall_mem_singleton.mpr (inTable_setDdramWord addr.toNat), rfl⟩
  case putChar code => exact ⟨by simp [inTable_data, inTable_movedWord], rfl⟩
  case putCharAt col row code => exact ⟨by simp [inTable_data, inTable_movedWord], rfl⟩
  case formatted text => exact ⟨inTable_textRun _ _ _, rfl⟩
  case formattedAt col row text => exact ⟨List.forall_mem_cons.mpr ⟨inTable_movedWord _ _ _, inTable_textRun _ _ _⟩, rfl⟩
  case defineChar addr pattern size =>
    refine ⟨List.forall_mem_cons.mpr ⟨inTable_setCgramWord addr, List.forall_mem_map.mpr fun b _ => inTable_data b⟩, rfl⟩
  case isBusy => exact ⟨List.forall_mem_nil _, rfl⟩
  case moveTo col row => exact ⟨List.forall_mem_singleton.mpr (inTable_movedWord _ _ _), rfl⟩
  case newline => exact ⟨List.forall_mem_singleton.mpr (inTable_movedWord _ _ _), rfl⟩
  case write isData byte => exact absurd rfl (notWrite isData byte)

/-- Every host operation but INIT has an effect. -/
theorem effectOf_hostOp {i : Instr} (host : isHostOp i = true) (notInit : isInit i = false) (s : State) : ∃ e, effectOf i s = some e := by
  cases i with
  | init => cases notInit
  | cmdClear | cmdHome | cmdEntryMode | cmdDisplayControl | cmdShift | cmdFunctionSet | cmdSetCgram | cmdSetDdram | data | nibPrime3
  | nibPrime2 => cases host
  | _ => exact ⟨_, rfl⟩

/-! ### The cycles of INIT (44_init_status.md R604, R606) -/

theorem inTable_initWordList (lineCount : Byte) : ∀ w ∈ initWordList lineCount, InTable w := by
  have functionSet : InTable (cmdWord (if 1 < lineCount.toNat then 0x28 else 0x20)) := by
    split
    · exact inTable_of_busWordOf (i := .cmdFunctionSet false true false) rfl rfl
    · exact inTable_of_busWordOf (i := .cmdFunctionSet false false false) rfl rfl
  simp only [initWordList, List.forall_mem_cons]
  exact ⟨functionSet, inTable_of_busWordOf (i := .cmdDisplayControl true false false) rfl rfl,
    inTable_of_busWordOf (i := .cmdEntryMode true false) rfl rfl, inTable_of_busWordOf (i := .cmdShift false false) rfl rfl,
    inTable_of_busWordOf (i := .cmdClear) rfl rfl, inTable_of_busWordOf (i := .cmdHome) rfl rfl, List.forall_mem_nil _⟩

theorem initNibbles_decode (bus8 : Bool) : ∀ n ∈ initNibbles bus8, ∃ j, decode ⟨.nib6, [n.setWidth 8]⟩ = .ok j := by
  have three : ∃ j, decode ⟨.nib6, [(0x3 : BitVec 4).setWidth 8]⟩ = .ok j := ⟨.nibPrime3, rfl⟩
  have two : ∃ j, decode ⟨.nib6, [(0x2 : BitVec 4).setWidth 8]⟩ = .ok j := ⟨.nibPrime2, rfl⟩
  cases bus8 with
  | false =>
    simp only [initNibbles, Bool.false_eq_true, if_false, List.forall_mem_cons]
    exact ⟨three, three, three, two, List.forall_mem_nil _⟩
  | true => exact List.forall_mem_nil _

theorem cyclesSeen_strobes (cs : List BusCycle) : cyclesSeen (cs.flatMap strobeSeen) = cs := by
  induction cs with
  | nil => rfl
  | cons c rest ih => rw [List.flatMap_cons, cyclesSeen_append, ih]; rfl

theorem cyclesSeen_wordsSeen (mode : BusMode) (ws : List BusWord) : cyclesSeen (wordsSeen mode ws) = ws.flatMap (wordCycles mode) :=
  cyclesSeen_strobes _

/-- Configuring lines is no bus cycle: E is only driven low (44_init_status.md R603). -/
theorem cyclesSeen_lineEvents (mode : BusMode) (bus : BusDescriptor) (roles : List LineRole) (lvl : RoleMap (Option Bool)) :
    cyclesSeen (observe mode lvl (roles.flatMap (lineEvents bus))) = [] := by
  induction roles generalizing lvl with
  | nil => rfl
  | cons role rest ih =>
    rw [List.flatMap_cons, observe_append, cyclesSeen_append, ih]
    cases role <;> rfl

section
variable {bus : BusDescriptor} {width : Byte} {bus8 : Bool} {lineCount : Byte} {bigFont : Bool} {s t : State}

/-- An INIT that does not end in READY clocked a line it could not use, and halted (44_init_status.md R608). -/
theorem execInit_halted (h : execInit bus width bus8 lineCount bigFont s = .next t) (notReady : t.life ≠ .ready) :
    t.life = .halted ∧
      ∃ (before : List LineRole) (role : LineRole),
        t.trace = s.trace ++ (before.flatMap (lineEvents bus) ++ [.clk role (roleGet bus role)]) := by
  obtain ⟨alive, widthOk, distinct⟩ := execInit_next_accepted h
  rw [execInit_accepted bus width bus8 lineCount bigFont s alive widthOk distinct] at h
  cases found : firstBadPort bus (initRoles bus8) with
  | none =>
    simp only [found, finish, Host.Outcome.next.injEq] at h
    exact absurd (congrArg State.life h.symm) notReady
  | some bad =>
    simp only [found, raiseHalt, Host.Outcome.next.injEq] at h
    refine ⟨congrArg State.life h.symm, bad.1, bad.2, ?_⟩
    rw [← h, configureAll_eq]
    simp

theorem initConfigured_eq (bus : BusDescriptor) (width : Byte) (bus8 : Bool) (s : State) :
    initConfigured bus width bus8 s = { initRecord bus width bus8 s with
      trace := s.trace ++ (initRoles bus8).flatMap (lineEvents bus)
      lvl := levelsAfter s.lvl ((initRoles bus8).flatMap (lineEvents bus))
      cfg := (initRoles bus8).foldl (fun m r => roleSet m r .output) s.cfg } := by
  rw [levelsAfter_lineEvents]
  exact configureAll_eq _ _

/-- What steps 3 to 5 of INIT show (44_init_status.md R604 to R606). -/
theorem initTail_emits (bus : BusDescriptor) (width : Byte) (bus8 : Bool) (lineCount : Byte) (s : State) :
    Emits (initConfigured bus width bus8 s) (initWords lineCount (initPrime (initConfigured bus width bus8 s)))
      (initSeen bus8 lineCount) := by
  have mode : (initConfigured bus width bus8 s).mode = modeOf bus8 := by rw [initConfigured_eq]; rfl
  have low : ∀ role ∈ initRoles bus8, roleGet (initConfigured bus width bus8 s).lvl role = some false := by
    intro role used
    rw [initConfigured_eq, levelsAfter_lineEvents]
    exact (roleGet_foldl_roleSet _ _ _ _).trans (if_pos used)
  have primed := initPrime_emits bus8 _ mode (low .rs (by cases bus8 <;> decide)) (low .rnw (by cases bus8 <;> decide))
  have kept := (initPrime_sameButBus (initConfigured bus width bus8 s)).mode
  have words := (initWords_spec lineCount (initPrime (initConfigured bus width bus8 s))).1.1
  rw [kept, mode] at words
  have both := primed.trans words kept
  simpa only [initSeen, List.cons_append, List.append_assoc] using both

theorem cyclesSeen_initSeen (bus8 : Bool) (lineCount : Byte) :
    cyclesSeen (initSeen bus8 lineCount) =
      (initNibbles bus8).map (nibbleCycle false) ++ (initWordList lineCount).flatMap (wordCycles (modeOf bus8)) := by
  simp only [initSeen, cyclesSeen, cyclesSeen_append, cyclesSeen_wordsSeen, List.append_nil]
  cases bus8 <;> rfl

/-- The cycles of a Done INIT: configuring the lines shows none, the rest is `initSeen`. -/
theorem execInit_ready_cycles (h : execInit bus width bus8 lineCount bigFont s = .next t) (ready : t.life = .ready) :
    ∃ evs, t.trace = s.trace ++ evs ∧ cyclesSeen (observe t.mode s.lvl evs) =
      (initNibbles bus8).map (nibbleCycle false) ++ (initWordList lineCount).flatMap (wordCycles t.mode) := by
  obtain ⟨mode, -⟩ := execInit_ready_fields h ready
  obtain ⟨-, -, -, rfl⟩ := execInit_ready h ready
  obtain ⟨rest, trace, seen, -⟩ := initTail_emits bus width bus8 lineCount s
  have start := initConfigured_eq bus width bus8 s
  have startTrace := congrArg State.trace start
  have startLvl := congrArg State.lvl start
  have startMode := congrArg State.mode start
  refine ⟨(initRoles bus8).flatMap (lineEvents bus) ++ rest, trace.trans ?_, ?_⟩
  · rw [startTrace, List.append_assoc]
  · rw [startMode, startLvl] at seen
    rw [mode, observe_append, cyclesSeen_append, cyclesSeen_lineEvents, List.nil_append, ← cyclesSeen_initSeen, ← seen]
    rfl

end

/-- Settles O51: the effect of each host operation, and INIT by whether it ends in READY. -/
theorem hostOperationsSendOnlyTableWords : Obligations.HostOperationsSendOnlyTableWords := by
  refine ⟨fun i s t host notInit notWrite h => ?_, fun bus width bus8 lineCount bigFont s t h => ?_⟩
  · obtain ⟨e, he⟩ := effectOf_hostOp host notInit s
    obtain ⟨words, after⟩ := effectOf_inTable he notWrite
    exact ⟨e.words, e.after, (exec_effect he h).2.1, after, words⟩
  · refine ⟨initNibbles_decode bus8, inTable_initWordList lineCount, ?_⟩
    by_cases ready : t.life = .ready
    · rw [if_neg (by rw [ready]; decide)]
      exact execInit_ready_cycles (bigFont := bigFont) h ready
    · obtain ⟨halted, before, role, trace⟩ := execInit_halted (bigFont := bigFont) h ready
      rw [if_pos halted]
      refine ⟨_, trace, ?_⟩
      rw [observe_append, cyclesSeen_append, cyclesSeen_lineEvents]
      rfl

end Sys2Proof.Machine
end

section
/-! PROOFS. The bus-cycle sequencer (40_bus_transport.md): what is seen of a setup phase and its pulse, the events of a write and of a
lone nibble with their counts, and that no step drives RNW high. -/

namespace Sys2Proof.Machine

/-! ### One setup phase and its pulse (R405, R406, R410) -/

/-- Only the levels a setup phase leaves are seen, and every order of its drives leaves the same. -/
theorem observe_drivesOf_strobe (mode : BusMode) (bus : BusDescriptor) (lvl : RoleMap (Option Bool))
    {ps qs : List (LineRole × Bool)} (good : GoodPairs ps) (order : qs.Perm ps) :
    observe mode lvl (drivesOf bus qs ++ strobeEvents bus) = strobeSeen (sampleCycle mode (drivenLevels ps lvl)) := by
  obtain ⟨nodup, noStrobe⟩ := good
  have unseen : observe mode lvl (drivesOf bus qs) = [] :=
    observe_driveEvents mode bus qs (by rwa [(order.map Prod.fst).mem_iff]) lvl
  have levels : levelsAfter lvl (drivesOf bus qs) = drivenLevels ps lvl :=
    (levelsAfter_driveEvents bus qs lvl).trans (drivenLevels_perm order nodup lvl)
  rw [observe_append, unseen, levels]
  exact observe_pulseEvents mode bus _

/-- Settles O19: `observe_drivesOf_strobe`, for pairs with no role twice and without E. -/
theorem setupOrderCannotBeSeen : Obligations.SetupOrderCannotBeSeen :=
  fun mode bus lvl _ _ nodup noStrobe order => observe_drivesOf_strobe mode bus lvl ⟨nodup, noStrobe⟩ order

theorem cycleEvents_eq_drivesOf (phase : SetupPhase) (ps : List (LineRole × Bool)) (bus : BusDescriptor) :
    cycleEvents phase ps bus = drivesOf bus (setupOrder phase ps) ++ strobeEvents bus := rfl

/-! ### The events of a write (R400) -/

theorem writeByte_trace_bus8 (isData : Bool) (b : Byte) {s : State} (mode : s.mode = .bus8) :
    (writeByte isData b s).trace = s.trace ++ cycleEvents .write8 (selectPairs isData ++ bytePairs b) s.bus := by
  simp only [writeByte, mode, cycle_trace]

theorem writeByte_trace_bus4 (isData : Bool) (b : Byte) {s : State} (mode : s.mode = .bus4) :
    (writeByte isData b s).trace = s.trace ++
      (cycleEvents .write4High (selectPairs isData ++ nibblePairs (highNibble b)) s.bus ++
        cycleEvents .write4Low (nibblePairs (lowNibble b)) s.bus) := by
  simp only [writeByte, mode, cycle_trace, pulse_bus, setup_bus, List.append_assoc]

theorem nibblePairs_highNibble (b : Byte) :
    nibblePairs (highNibble b) =
      [(.db7, b.getLsbD 7), (.db6, b.getLsbD 6), (.db5, b.getLsbD 5), (.db4, b.getLsbD 4)] := by
  simp [nibblePairs, highNibble]

theorem nibblePairs_lowNibble (b : Byte) :
    nibblePairs (lowNibble b) =
      [(.db7, b.getLsbD 3), (.db6, b.getLsbD 2), (.db5, b.getLsbD 1), (.db4, b.getLsbD 0)] := by
  simp [nibblePairs, lowNibble]

/-- Settles O15: the drives of each setup phase are its pairs in the order `setupOrder` puts them. -/
theorem writeDrivesEachLineOnceThenPulses : Obligations.WriteDrivesEachLineOnceThenPulses := by
  intro isData b s ready
  refine ⟨_, hostOp_ready (effect := writeByte isData b) ready, fun mode => ?_, fun mode => ?_⟩
  · refine ⟨_, setupOrder_perm .write8 (selectPairs isData ++ bytePairs b), (writeByte_trace_bus8 isData b mode).trans ?_⟩
    rw [cycleEvents_eq_drivesOf, List.append_assoc]
  · have high := setupOrder_perm .write4High (selectPairs isData ++ nibblePairs (highNibble b))
    have low := setupOrder_perm .write4Low (nibblePairs (lowNibble b))
    refine ⟨_, _, high.trans (.of_eq ?_), low.trans (.of_eq (nibblePairs_lowNibble b)),
      (writeByte_trace_bus4 isData b mode).trans ?_⟩
    · rw [nibblePairs_highNibble]
      rfl
    · simp only [cycleEvents_eq_drivesOf, List.append_assoc]

/-! ### The lone nibble (R420) -/

theorem exec_nibPrime3 (s : State) : exec .nibPrime3 s = busOp (nibble 0x3) s := rfl

theorem exec_nibPrime2 (s : State) : exec .nibPrime2 s = busOp (nibble 0x2) s := rfl

theorem nibble_trace (n : BitVec 4) (s : State) :
    (nibble n s).trace = s.trace ++ cycleEvents .loneNibble (nibblePairs n) s.bus :=
  cycle_trace .loneNibble (nibblePairs n) s

theorem nibble_lvl (n : BitVec 4) (s : State) :
    (nibble n s).lvl = { s.lvl with
      e := some false, db7 := some (n.getLsbD 3), db6 := some (n.getLsbD 2), db5 := some (n.getLsbD 1),
      db4 := some (n.getLsbD 0) } := rfl

/-- The cycle's value is read off the levels the nibble leaves, since E is no part of it. -/
theorem nibble_emits_lvl (n : BitVec 4) (s : State) :
    Emits s (nibble n s) (strobeSeen (sampleCycle s.mode (nibble n s).lvl)) := by
  have leaves : (nibble n s).lvl = roleSet (drivenLevels (nibblePairs n) s.lvl) .e (some false) := rfl
  rw [leaves, sampleCycle_roleSet_e]
  exact nibble_emits n s

/-- With RS and RNW low in BUS4 the cycle is `CYC 0 0 n`. -/
theorem sampleCycle_nibble_lvl {n : BitVec 4} {s : State} (rs : s.lvl.rs = some false) (rnw : s.lvl.rnw = some false) :
    sampleCycle .bus4 (nibble n s).lvl = nibbleCycle false n := by
  simp only [nibble_lvl, sampleCycle, nibbleCycle, rs, rnw]

theorem SameButBus.withOutcome {s t : State} (same : SameButBus s t) (outcome : OpOutcome) :
    SameButBus { s with outcome := outcome } { t with outcome := outcome } :=
  ⟨same.life, same.mode, same.width, same.bus, same.cursor, same.cfg, rfl, same.calls⟩

/-- Settles O17: both rows are `nibble` of their number, which drives no line but E and DB7..DB4. -/
theorem primingNibblesPulseOnce : Obligations.PrimingNibblesPulseOnce := by
  intro i n s row alive
  have runs : exec i s = busOp (nibble n) s := by
    simp only [List.mem_cons, Prod.mk.injEq, List.not_mem_nil, or_false] at row
    rcases row with ⟨rfl, rfl⟩ | ⟨rfl, rfl⟩
    · exact exec_nibPrime3 s
    · exact exec_nibPrime2 s
  refine ⟨_, runs.trans (busOp_next.mpr ⟨alive, rfl⟩), ((nibble_sameButBus n s).withOutcome .done).keepsAllButBus,
    nibble_lvl n s, nibble_emits_lvl n s, fun mode rs rnw => ?_⟩
  have seen := nibble_emits_lvl n s
  rw [mode, sampleCycle_nibble_lvl rs rnw] at seen
  exact seen

/-! ### Event counts (R432) -/

/-- How many events there are, how many bus cycles are seen in them, and how many delay units they request. -/
structure EventCounts (mode : BusMode) (lvl : RoleMap (Option Bool)) (evs : List Event) (events cycles units : Nat) : Prop where
  length : evs.length = events
  seen   : (cyclesSeen (observe mode lvl evs)).length = cycles
  delays : requestedUnits evs = units

theorem EventCounts.append {mode : BusMode} {lvl : RoleMap (Option Bool)} {a b : List Event} {e₁ c₁ u₁ e₂ c₂ u₂ : Nat}
    (first : EventCounts mode lvl a e₁ c₁ u₁) (second : EventCounts mode (levelsAfter lvl a) b e₂ c₂ u₂) :
    EventCounts mode lvl (a ++ b) (e₁ + e₂) (c₁ + c₂) (u₁ + u₂) where
  length := by rw [List.length_append, first.length, second.length]
  seen := by rw [observe_append, cyclesSeen_append, List.length_append, first.seen, second.seen]
  delays := by rw [requestedUnits_append, first.delays, second.delays]

/-- A setup phase is one event for each pair, and its pulse four events, one cycle and two units. -/
theorem eventCounts_cycleEvents (mode : BusMode) (lvl : RoleMap (Option Bool)) (phase : SetupPhase) {ps : List (LineRole × Bool)}
    (good : GoodPairs ps) (bus : BusDescriptor) : EventCounts mode lvl (cycleEvents phase ps bus) (ps.length + 4) 1 2 where
  length := by simp [cycleEvents, driveEvents, pulseEvents]
  seen := by
    rw [cycleEvents_eq_drivesOf, observe_drivesOf_strobe mode bus lvl good (setupOrder_perm phase ps)]
    rfl
  delays := by
    rw [cycleEvents, requestedUnits_append, requestedUnits_driveEvents]
    rfl

theorem writeByte_counts_bus8 (isData : Bool) (b : Byte) {s : State} (mode : s.mode = .bus8) :
    ∃ evs, (writeByte isData b s).trace = s.trace ++ evs ∧ EventCounts s.mode s.lvl evs 14 1 2 :=
  ⟨_, writeByte_trace_bus8 isData b mode, eventCounts_cycleEvents _ _ _ (goodPairs_byte isData b) _⟩

theorem writeByte_counts_bus4 (isData : Bool) (b : Byte) {s : State} (mode : s.mode = .bus4) :
    ∃ evs, (writeByte isData b s).trace = s.trace ++ evs ∧ EventCounts s.mode s.lvl evs 18 2 4 :=
  ⟨_, writeByte_trace_bus4 isData b mode,
    (eventCounts_cycleEvents _ _ _ (goodPairs_select_nibble isData _) _).append
      (eventCounts_cycleEvents _ _ _ (goodPairs_nibble _) _)⟩

theorem nibble_counts (n : BitVec 4) (s : State) :
    ∃ evs, (nibble n s).trace = s.trace ++ evs ∧ EventCounts s.mode s.lvl evs 8 1 2 :=
  ⟨_, nibble_trace n s, eventCounts_cycleEvents _ _ _ (goodPairs_nibble n) _⟩

/-- WRITE and the BW10 rows are one `writeByte` (R431, log 6). -/
theorem exec_write_next {i : Instr} {s t : State} (row : (∃ isData b, i = .write isData b) ∨ ∃ w, busWordOf i = some w)
    (h : exec i s = .next t) : ∃ isData b, t = { writeByte isData b s with outcome := .done } := by
  rcases row with ⟨isData, b, rfl⟩ | ⟨w, word⟩
  · exact ⟨isData, b, (hostOp_next.mp h).2⟩
  · rw [exec_busWord word] at h
    exact ⟨w.isData, w.byte, (busOp_next.mp h).2⟩

theorem exec_primingNibble_next {i : Instr} {s t : State} (row : i = .nibPrime3 ∨ i = .nibPrime2) (h : exec i s = .next t) :
    ∃ n, t = { nibble n s with outcome := .done } := by
  rcases row with rfl | rfl
  · exact ⟨0x3, (busOp_next.mp h).2⟩
  · exact ⟨0x2, (busOp_next.mp h).2⟩

/-- Settles O18: one cycle of ten drives in BUS8, a cycle of six and one of four in BUS4, and one of four for a lone nibble. -/
theorem eventCountsPerWrite : Obligations.EventCountsPerWrite := by
  refine fun i s t h => ⟨fun row => ?_, fun row => ?_⟩
  · obtain ⟨isData, b, rfl⟩ := exec_write_next row h
    cases mode : s.mode with
    | bus8 =>
      obtain ⟨evs, trace, length, seen, delays⟩ := writeByte_counts_bus8 isData b mode
      exact ⟨evs, trace, fun _ => ⟨length, mode ▸ seen, delays⟩, nofun⟩
    | bus4 =>
      obtain ⟨evs, trace, length, seen, delays⟩ := writeByte_counts_bus4 isData b mode
      exact ⟨evs, trace, nofun, fun _ => ⟨length, mode ▸ seen, delays⟩⟩
  · obtain ⟨n, rfl⟩ := exec_primingNibble_next row h
    obtain ⟨evs, trace, length, seen, delays⟩ := nibble_counts n s
    exact ⟨evs, trace, length, seen, delays⟩

/-! ### RNW stays low (R402) -/

theorem raisesRnw_drv {role : LineRole} {line : GpioLine} {v : Bool} (low : role = .rnw → v = false) :
    raisesRnw (.drv role line v) = false := by
  cases role with
  | rnw => exact low rfl
  | _ => rfl

/-- No allowed action drives RNW high: a setup phase has RNW low, and a pulse drives E. -/
theorem Act.events_raisesRnw {mode : BusMode} {a : Act} (ok : a.Ok mode) (bus : BusDescriptor) :
    ∀ ev ∈ a.events bus, raisesRnw ev = false := by
  cases a with
  | clk | out | delay | place => simp [Act.events, raisesRnw]
  | low role => exact List.forall_mem_singleton.mpr (raisesRnw_drv fun _ => rfl)
  | cycle phase pairs =>
    refine List.forall_mem_append.mpr ⟨List.forall_mem_map.mpr fun p ordered => ?_, by simp [pulseEvents, raisesRnw]⟩
    exact raisesRnw_drv (ok.2 p ((mem_setupOrder phase pairs p).mp ordered)).2

/-- Settles O57: what a step appends to the trace is a script of allowed actions. -/
theorem stepsNeverEnterReadMode : Obligations.StepsNeverEnterReadMode := by
  intro s t before h
  refine step_keeps (P := NeverReads) (fun _ _ k => k) (fun _ _ _ k => k) (fun i u v low ran => ?_) before h
  obtain ⟨_, acts, -, ok, -, -, -, trace, -⟩ := exec_fields ran
  rw [NeverReads, trace]
  refine List.forall_mem_append.mpr ⟨low, fun ev mem => ?_⟩
  obtain ⟨a, inScript, ofAction⟩ := List.mem_flatMap.mp mem
  exact Act.events_raisesRnw (ok a inScript) v.bus ev ofAction

end Sys2Proof.Machine
end

section
/-! PROOFS. The DDRAM address translator (41_addressing.md): MOVE_TO and NEWLINE follow R465's closed form, whose results do not
depend on the width of its sums (R463) and are not clamped (R466). -/

namespace Sys2Proof.Machine

/-! ### The closed form (41_addressing.md R465) -/

/-- A column inside the display does not wrap (R451). -/
theorem wrapped_of_lt {w c : Nat} (inside : c < w) (r : Nat) : wrapped w c r = (c, r) := if_neg (Nat.not_le.mpr inside)

theorem movedTo_of_lt {w c r : Nat} (inside : c < w) (row : r < 2) : movedTo w c r = (c, r) := by
  rw [movedTo, wrapped_of_lt inside, if_pos (Nat.le_of_lt_succ row)]

/-- A row below the last falls back to the origin (R452). -/
theorem movedTo_of_row_ge {w c r : Nat} (inside : c < w) (below : 2 ≤ r) : movedTo w c r = (0, 0) := by
  rw [movedTo, wrapped_of_lt inside, if_neg (Nat.not_le.mpr below)]

/-- The address mask takes a sum modulo 128, whatever the width it was computed in (R453, R463 b). -/
theorem ofNat_and_7F (n : Nat) : BitVec.ofNat 8 n &&& 0x7F = BitVec.ofNat 8 (n % 128) := by
  apply BitVec.eq_of_toNat_eq
  rw [BitVec.toNat_and, BitVec.toNat_ofNat, BitVec.toNat_ofNat]
  change n % 2 ^ 8 &&& 2 ^ 7 - 1 = n % 128 % 2 ^ 8
  rw [Nat.and_two_pow_sub_one_eq_mod]
  omega

/-- The masked address lies beside the command's bit, so that joining them adds them. -/
theorem or_masked_eq_add (n : Nat) : (0x80 : Byte) ||| BitVec.ofNat 8 (n % 128) = BitVec.ofNat 8 (0x80 + n % 128) :=
  calc (0x80 : Byte) ||| BitVec.ofNat 8 (n % 128)
    _ = setDdramWord n := by rw [setDdramWord_eq_or, ofNat_and_7F]
    _ = 0x80 + BitVec.ofNat 8 (n % 128) := congrArg (0x80 + ·) (ofNat_and_7F n)
    _ = BitVec.ofNat 8 (0x80 + n % 128) := (BitVec.ofNat_add _ _).symm

/-- Inside the display the word carries the masked sum of the column and the row's base (R453). -/
theorem movedWord_of_lt {w c r : Nat} (inside : c < w) (row : r < 2) :
    movedWord w c r = BitVec.ofNat 8 (0x80 + (c + 0x40 * r) % 128) := by
  rw [movedWord, wrapped_of_lt inside]
  obtain rfl | rfl : r = 0 ∨ r = 1 := by omega
  · exact or_masked_eq_add c
  · exact or_masked_eq_add (c + 0x40)

theorem movedWord_of_row_ge {w c r : Nat} (inside : c < w) (below : 2 ≤ r) : movedWord w c r = 0x80 := by
  rw [movedWord, wrapped_of_lt inside, if_neg (by omega), if_neg (by omega)]

/-! ### MOVE_TO and NEWLINE (41_addressing.md R460, R461) -/

theorem KeepsAllButBusAndCursor.cursor {s t : State} {cursor : Cursor} (keeps : KeepsAllButBusAndCursor s t cursor) :
    t.cursor = cursor := congrArg State.cursor keeps

/-- Settles O20: MOVE_TO is the host operation of one `moveCursor`. -/
theorem moveToFollowsTheClosedForm : Obligations.MoveToFollowsTheClosedForm := by
  intro col row
  exact ⟨fun s uninit => hostOp_refused.mpr ⟨uninit, rfl⟩,
    fun s ready => ⟨_, hostOp_ready ready, (moveCursor_movesAndSends col.toNat row.toNat s).keeps⟩⟩

/-- Settles O21: NEWLINE is the host operation of `lineFeed`; at a positive width column 0 does not wrap. -/
theorem newlineGoesToTheNextRowsStart : Obligations.NewlineGoesToTheNextRowsStart := by
  refine ⟨fun s uninit => hostOp_refused.mpr ⟨uninit, rfl⟩, fun s ready => ?_⟩
  obtain ⟨sends, keeps⟩ := (lineFeed_movesAndSends s).keeps
  refine ⟨_, hostOp_ready ready, sends, keeps, fun positive row => ?_, fun positive row => ?_⟩
  · have next : s.cursor.row.toNat + 1 = 1 := by rw [row]; rfl
    rw [next, movedTo_of_lt positive (by decide)] at keeps
    rw [next, movedWord_of_lt positive (by decide)] at sends
    exact ⟨keeps.cursor, sends⟩
  · have next : s.cursor.row.toNat + 1 = 2 := by rw [row]; rfl
    rw [next, movedTo_of_row_ge positive (by decide)] at keeps
    rw [next, movedWord_of_row_ge positive (by decide)] at sends
    exact ⟨keeps.cursor, sends⟩

/-! ### The cursor space (41_addressing.md R462) -/

theorem moveCursor_inCursorSpace (col row : Nat) (s : State) (positive : 1 ≤ s.width.toNat) :
    (moveCursor col row s).cursor.col.toNat < (moveCursor col row s).width.toNat ∧
      ((moveCursor col row s).cursor.row.toNat = 0 ∨ (moveCursor col row s).cursor.row.toNat = 1) := by
  obtain ⟨-, same⟩ := moveCursor_spec col row s
  rw [same.width, same.cursor]
  obtain ⟨column, lowRow⟩ := cursorWithin_movedTo positive col row
  exact ⟨column, Nat.le_one_iff_eq_zero_or_eq_one.mp (Nat.le_of_lt_succ lowRow)⟩

/-- Settles O22: MOVE_TO does one `moveCursor`, whose closed form lies in the cursor space. -/
theorem moveToEstablishesTheCursorInvariant : Obligations.MoveToEstablishesTheCursorInvariant :=
  ⟨moveCursor_inCursorSpace, fun col row s ready positive =>
    ⟨_, hostOp_ready ready, moveCursor_inCursorSpace col.toNat row.toNat s positive⟩⟩

/-! ### Sums modulo 256 (41_addressing.md R463) -/

/-- The wrap computed modulo 256 is the wrap, modulo 256. -/
theorem wrapped8_eq (w c r : Byte) :
    wrapped8 w c r =
      (BitVec.ofNat 8 (wrapped w.toNat c.toNat r.toNat).1, BitVec.ofNat 8 (wrapped w.toNat c.toNat r.toNat).2) := by
  rw [wrapped8, wrapped]
  split <;> simp [BitVec.ofNat_add]

/-- R463 a: only the wrap of row 255 leaves the bytes, and it leaves column 0. -/
theorem wrapped_toNat_cases (w c r : Byte) :
    (wrapped w.toNat c.toNat r.toNat).2 < 256 ∨ wrapped w.toNat c.toNat r.toNat = (0, 256) := by
  have byte := r.isLt
  rw [wrapped]
  split
  · rcases Nat.lt_or_eq_of_le (Nat.succ_le_of_lt byte) with fits | last
    · exact .inl fits
    · exact .inr (congrArg (Prod.mk 0) last)
  · exact .inl byte

theorem movedTo8_eq (w c r : Byte) : movedTo8 w c r = cursorAt (movedTo w.toNat c.toNat r.toNat) := by
  rw [movedTo8, movedTo, wrapped8_eq]
  rcases wrapped_toNat_cases w c r with fits | overflow
  · rw [BitVec.toNat_ofNat, Nat.mod_eq_of_lt fits, apply_ite cursorAt]
    rfl
  · rw [overflow]
    rfl

theorem movedWord8_eq (w c r : Byte) : movedWord8 w c r = movedWord w.toNat c.toNat r.toNat := by
  rw [movedWord8, movedWord, wrapped8_eq]
  rcases wrapped_toNat_cases w c r with fits | overflow
  · have row : ∀ n < 256, BitVec.ofNat 8 (wrapped w.toNat c.toNat r.toNat).2 = BitVec.ofNat 8 n ↔
        (wrapped w.toNat c.toNat r.toNat).2 = n := fun n small => by
      rw [BitVec.toNat_eq, BitVec.toNat_ofNat, BitVec.toNat_ofNat, Nat.mod_eq_of_lt fits, Nat.mod_eq_of_lt small]
    simp only [← row 0 (by decide), ← row 1 (by decide), ← ofNat_and_7F, BitVec.ofNat_add]
    rfl
  · rw [overflow]
    rfl

/-- Settles O23: the functions of R463 are the closed form, and a byte's width bounds the cursor space. -/
theorem byteArithmeticGivesTheSameMove : Obligations.ByteArithmeticGivesTheSameMove := by
  refine ⟨fun col row s ready => ?_, fun s ready inRange => ?_, fun width col inside => ?_⟩
  · obtain ⟨t, ran, sends, keeps⟩ := (moveToFollowsTheClosedForm col row).2 s ready
    rw [← movedWord8_eq] at sends
    rw [← movedTo8_eq] at keeps
    exact ⟨t, ran, keeps.cursor, sends⟩
  · obtain ⟨column, row⟩ := inRange ready
    exact ⟨column, Nat.le_of_lt_succ s.width.isLt, row⟩
  · have byte := width.isLt
    omega

/-! ### Wide displays (41_addressing.md R466) -/

/-- MOVE_TO to a cell of the display goes there, and sends the masked sum of the column and the row's base. -/
theorem exec_moveTo_of_lt {col row : Byte} {s : State} (ready : s.life = .ready) (inside : col.toNat < s.width.toNat)
    (display : row.toNat < 2) :
    ∃ t, exec (.moveTo col row) s = .next t ∧ t.cursor = ⟨col, row⟩ ∧
      Sends s t [cmdWord (BitVec.ofNat 8 (0x80 + (col.toNat + 0x40 * row.toNat) % 128))] := by
  obtain ⟨t, ran, sends, keeps⟩ := (moveToFollowsTheClosedForm col row).2 s ready
  rw [movedWord_of_lt inside display] at sends
  rw [movedTo_of_lt inside display] at keeps
  exact ⟨t, ran, by rw [keeps.cursor]; simp [cursorAt], sends⟩

/-- Settles O24: in each range the mask takes a fixed multiple of 0x80 from the sum. -/
theorem wideDisplaysAreNotClamped : Obligations.WideDisplaysAreNotClamped := by
  intro col row s ready inside display
  obtain ⟨t, ran, cursor, sends⟩ := exec_moveTo_of_lt ready inside display
  have byte := col.isLt
  have sendsAt : ∀ addr, (col.toNat + 0x40 * row.toNat) % 128 = addr → Sends s t [cmdWord (BitVec.ofNat 8 (0x80 + addr))] :=
    fun _ masked => masked ▸ sends
  refine ⟨t, ran, cursor, ?_, ?_, ?_, ?_⟩
  · rintro rfl wide low
    refine ⟨sendsAt _ (Nat.mod_eq_of_lt (Nat.lt_succ_of_le low)), fun u readyU _ _ insideU => ?_⟩
    have column : (col - 0x40).toNat = col.toNat - 0x40 := BitVec.toNat_sub_of_le wide
    obtain ⟨v, ranV, -, sendsV⟩ := exec_moveTo_of_lt (row := 1) readyU (column ▸ insideU) (by decide)
    have masked : ((col - 0x40).toNat + 0x40 * (1 : Byte).toNat) % 128 = col.toNat := by
      rw [column]
      change (col.toNat - 0x40 + 0x40) % 128 = col.toNat
      omega
    exact ⟨v, ranV, masked ▸ sendsV⟩
  · rintro rfl wide
    exact sendsAt _ (by change col.toNat % 128 = _; omega)
  · rintro rfl wide low
    exact ⟨sendsAt _ (by change (col.toNat + 0x40) % 128 = _; omega), fun _ => by omega⟩
  · rintro rfl wide
    exact sendsAt _ (by change (col.toNat + 0x40) % 128 = _; omega)

end Sys2Proof.Machine
end

section
/-! PROOFS. The command instruction builder (42_commands.md): what each of its host operations sends and keeps, and the words its builders
give. -/

namespace Sys2Proof.Machine

/-! ### CLEAR and HOME (42_commands.md R500, R501) -/

theorem refusedBeforeInit_of_hostOp {i : Instr} {effect : State → State} (op : ∀ s, exec i s = hostOp effect s) :
    RefusedBeforeInit i :=
  fun s uninit => (op s).trans (hostOp_refused.mpr ⟨uninit, rfl⟩)

/-- Settles O25: CLEAR is the host operation of `clearDisplay`. -/
theorem clearResetsTheCursorAndSends01 : Obligations.ClearResetsTheCursorAndSends01 :=
  ⟨refusedBeforeInit_of_hostOp fun _ => rfl,
    fun s ready => ⟨_, hostOp_ready ready, (clearDisplay_movesAndSends s).keeps⟩⟩

/-- Settles O26: HOME is the host operation of `returnHome`. -/
theorem homeResetsTheCursorAndSettles : Obligations.HomeResetsTheCursorAndSettles := by
  refine ⟨refusedBeforeInit_of_hostOp fun _ => rfl, fun s ready => ?_⟩
  obtain ⟨sends, same⟩ := returnHome_spec s
  exact ⟨_, hostOp_ready ready, sendsThen_congr sends rfl rfl rfl rfl rfl, (same.withOutcome .done).eq⟩

/-! ### Operations of one command word (42_commands.md R502 to R507) -/

/-- The host operation sends one command word and keeps everything else, the cursor too. -/
def SendsOneCommand (i : Instr) (word : Byte) : Prop :=
  RefusedBeforeInit i ∧
  ∀ s : State, s.life = .ready → ∃ t, exec i s = .next t ∧ Sends s t [cmdWord word] ∧ KeepsAllButBus s t .done

theorem sendsOneCommand_of_hostOp {i : Instr} {word : Byte} (op : ∀ s, exec i s = hostOp (sendCommand word) s) :
    SendsOneCommand i word :=
  ⟨refusedBeforeInit_of_hostOp op, fun s ready => ⟨_, (op s).trans (hostOp_ready ready), writeByte_done false word s⟩⟩

theorem KeepsAllButBus.cursor {s t : State} {outcome : OpOutcome} (keeps : KeepsAllButBus s t outcome) : t.cursor = s.cursor :=
  (congrArg State.cursor keeps).trans rfl

theorem SendsOneCommand.keepsCursor {i : Instr} {word : Byte} (op : SendsOneCommand i word) {s : State} (ready : s.life = .ready) :
    ∃ t, exec i s = .next t ∧ t.cursor = s.cursor := by
  obtain ⟨t, ran, -, keeps⟩ := op.2 s ready
  exact ⟨t, ran, keeps.cursor⟩

theorem entryModeSet_sends (increment shift : Bool) :
    SendsOneCommand (.entryModeSet increment shift) (entryModeWord increment shift) :=
  sendsOneCommand_of_hostOp fun _ => rfl

theorem displayControl_sends (displayOn showCursor cursorBlink : Bool) :
    SendsOneCommand (.displayControl displayOn showCursor cursorBlink) (displayControlWord displayOn showCursor cursorBlink) :=
  sendsOneCommand_of_hostOp fun _ => rfl

theorem cursorControl_sends (shiftDisplay shiftRight : Bool) :
    SendsOneCommand (.cursorControl shiftDisplay shiftRight) (shiftWord shiftDisplay shiftRight) :=
  sendsOneCommand_of_hostOp fun _ => rfl

theorem functionSet_sends (bus8 : Bool) (lineCount : Byte) (bigFont : Bool) :
    SendsOneCommand (.functionSet bus8 lineCount bigFont) (functionSetWord bus8 (twoLines lineCount) bigFont) :=
  sendsOneCommand_of_hostOp fun _ => rfl

theorem setCgramAddress_sends (addr : Byte) : SendsOneCommand (.setCgramAddress addr) (setCgramWord addr) :=
  sendsOneCommand_of_hostOp fun _ => rfl

theorem setDdramAddress_sends (addr : Byte) : SendsOneCommand (.setDdramAddress addr) (setDdramWord addr.toNat) :=
  sendsOneCommand_of_hostOp fun _ => rfl

/-- Settles O27: the builders are the statement's words, flag by flag. -/
theorem flagCommandsSendTheirWord : Obligations.FlagCommandsSendTheirWord :=
  ⟨entryModeSet_sends, displayControl_sends, cursorControl_sends⟩

/-- The N flag of a line count stands for the comparison (D39). -/
theorem functionSetWord_twoLines (bus8 : Bool) (lineCount : Byte) (bigFont : Bool) :
    functionSetWord bus8 (twoLines lineCount) bigFont =
      0x20 ||| (if bigFont then 0x04 else 0) ||| (if 1 < lineCount.toNat then 0x08 else 0) ||| (if bus8 then 0x10 else 0) := by
  simp only [functionSetWord, flagBit, twoLines, decide_eq_true_eq, Config.opFunctionSet]

/-- Settles O28: FUNCTION_SET sends its builder's word, and writes no field but the bus's. -/
theorem functionSetSendsItsWordAndKeepsTheMode : Obligations.FunctionSetSendsItsWordAndKeepsTheMode := by
  intro bus8 lineCount bigFont
  rw [← functionSetWord_twoLines]
  exact functionSet_sends bus8 lineCount bigFont

theorem and_3F_eq_ofNat (addr : Byte) : addr &&& 0x3F = BitVec.ofNat 8 (addr.toNat % 64) := by
  rw [BitVec.toNat_eq, BitVec.toNat_and, BitVec.toNat_ofNat, Nat.mod_eq_of_lt (by omega)]
  exact Nat.and_two_pow_sub_one_eq_mod addr.toNat 6

/-- R513 as a sum. -/
theorem setCgramWord_eq_ofNat (addr : Byte) : setCgramWord addr = BitVec.ofNat 8 (0x40 + addr.toNat % 64) :=
  (congrArg (0x40 + ·) (and_3F_eq_ofNat addr)).trans (BitVec.ofNat_add _ _).symm

/-- R514 as a sum. -/
theorem setDdramWord_eq_ofNat (n : Nat) : setDdramWord n = BitVec.ofNat 8 (0x80 + n % 128) := by
  rw [setDdramWord_eq_or, ofNat_and_7F, or_masked_eq_add]

/-- Settles O29: the masks of the builders are remainders. -/
theorem addressCommandsMaskAndKeepTheCursor : Obligations.AddressCommandsMaskAndKeepTheCursor := by
  intro addr
  rw [← setCgramWord_eq_ofNat, ← setDdramWord_eq_ofNat]
  exact ⟨setCgramAddress_sends addr, setDdramAddress_sends addr⟩

/-- Settles O30: each of the six sends one command word and nothing else. -/
theorem nonPositioningCommandsKeepTheCursor : Obligations.NonPositioningCommandsKeepTheCursor := fun _ ready =>
  ⟨fun increment shift => (entryModeSet_sends increment shift).keepsCursor ready,
    fun displayOn showCursor cursorBlink => (displayControl_sends displayOn showCursor cursorBlink).keepsCursor ready,
    fun shiftDisplay shiftRight => (cursorControl_sends shiftDisplay shiftRight).keepsCursor ready,
    fun bus8 lineCount bigFont => (functionSet_sends bus8 lineCount bigFont).keepsCursor ready,
    fun addr => (setCgramAddress_sends addr).keepsCursor ready,
    fun addr => (setDdramAddress_sends addr).keepsCursor ready⟩

/-! ### The command words (42_commands.md R518) -/

/-- A builder gives the byte, for some operands (42_commands.md R500 to R514). -/
def BuiltCommand (b : Byte) : Prop :=
  b = Config.opClear ∨ b = Config.opHome ∨ (∃ increment shift, b = entryModeWord increment shift) ∨
    (∃ displayOn showCursor cursorBlink, b = displayControlWord displayOn showCursor cursorBlink) ∨
    (∃ shiftDisplay shiftRight, b = shiftWord shiftDisplay shiftRight) ∨
    (∃ bus8 lineCount bigFont, b = functionSetWord bus8 (twoLines lineCount) bigFont) ∨
    (∃ addr, b = setCgramWord addr) ∨ ∃ addr : Nat, b = setDdramWord addr

/-- R514 for an address of a byte. -/
theorem setDdramWord_toNat (addr : Byte) : setDdramWord addr.toNat = 0x80 ||| (addr &&& 0x7F) := by
  rw [setDdramWord_eq_or, BitVec.ofNat_toNat, BitVec.setWidth_eq]

theorem twoLines_surjective (lines2 : Bool) : ∃ lineCount, twoLines lineCount = lines2 := by
  cases lines2
  · exact ⟨1, rfl⟩
  · exact ⟨2, rfl⟩

theorem inTable_of_builtCommand {b : Byte} (built : BuiltCommand b) : InTable (cmdWord b) := by
  rcases built with rfl | rfl | ⟨increment, shift, rfl⟩ | ⟨displayOn, showCursor, cursorBlink, rfl⟩ |
    ⟨shiftDisplay, shiftRight, rfl⟩ | ⟨bus8, lineCount, bigFont, rfl⟩ | ⟨addr, rfl⟩ | ⟨addr, rfl⟩
  · exact inTable_of_busWordOf (i := .cmdClear) rfl rfl
  · exact inTable_of_busWordOf (i := .cmdHome) rfl rfl
  · exact inTable_of_busWordOf (i := .cmdEntryMode increment shift) rfl rfl
  · exact inTable_of_busWordOf (i := .cmdDisplayControl displayOn showCursor cursorBlink) rfl rfl
  · exact inTable_of_busWordOf (i := .cmdShift shiftDisplay shiftRight) rfl rfl
  · exact inTable_of_busWordOf (i := .cmdFunctionSet bus8 (twoLines lineCount) bigFont) rfl rfl
  · exact inTable_setCgramWord addr
  · exact inTable_setDdramWord addr

/-- The command word of a row is what the row's builder gives (30_encoding.md R310). -/
theorem builtCommand_of_busWordOf {i : Instr} {b : Byte} (row : busWordOf i = some (cmdWord b)) : BuiltCommand b := by
  cases i <;> cases row
  case cmdClear => exact .inl rfl
  case cmdHome => exact .inr (.inl rfl)
  case cmdEntryMode increment shift => exact .inr (.inr (.inl ⟨increment, shift, rfl⟩))
  case cmdDisplayControl displayOn showCursor cursorBlink =>
    exact .inr (.inr (.inr (.inl ⟨displayOn, showCursor, cursorBlink, rfl⟩)))
  case cmdShift shiftDisplay shiftRight => exact .inr (.inr (.inr (.inr (.inl ⟨shiftDisplay, shiftRight, rfl⟩))))
  case cmdFunctionSet bus8 lines2 bigFont =>
    obtain ⟨lineCount, rfl⟩ := twoLines_surjective lines2
    exact .inr (.inr (.inr (.inr (.inr (.inl ⟨bus8, lineCount, bigFont, rfl⟩)))))
  case cmdSetCgram addr =>
    exact .inr (.inr (.inr (.inr (.inr (.inr (.inl ⟨addr, (setCgramWord_eq_or addr).symm⟩))))))
  case cmdSetDdram addr =>
    exact .inr (.inr (.inr (.inr (.inr (.inr (.inr ⟨addr.toNat, (setDdramWord_toNat addr).symm⟩))))))

theorem requestOfWord_injective : Function.Injective requestOfWord := by
  rintro ⟨d, b⟩ ⟨d', b'⟩ same
  cases d <;> cases d' <;> simp_all [requestOfWord]

/-- The rows with a bus word are those of format BW10 (30_encoding.md R300). -/
theorem busWordOf_isSome (i : Instr) : (busWordOf i).isSome = decide ((encode i).format = .bw10) := by
  cases i <;> rfl

/-- A word of the table is the word of the row it decodes to. -/
theorem busWordOf_of_decode {w : BusWord} {i : Instr} (decoded : decode (requestOfWord w) = .ok i) : busWordOf i = some w := by
  obtain ⟨-, encoded⟩ := everyDecodedRequestIsItsEncoding _ i decoded
  have isWord : (busWordOf i).isSome = true := by
    rw [busWordOf_isSome, encoded]
    rfl
  obtain ⟨v, row⟩ := Option.isSome_iff_exists.mp isWord
  rw [row, requestOfWord_injective ((encode_of_busWordOf row).symm.trans encoded)]

theorem builtCommand_iff_inTable (b : Byte) : BuiltCommand b ↔ InTable (cmdWord b) :=
  ⟨inTable_of_builtCommand, fun ⟨_, decoded⟩ => builtCommand_of_busWordOf (busWordOf_of_decode decoded)⟩

/-- A 10-bit word that does not decode is one the engine never sends. -/
theorem decodeWord_error {w : BitVec 10} {err : DecodeError} (h : decodeWord w = .error err) : err = .notEmitted := by
  unfold decodeWord at h
  split_ifs at h
  cases h
  rfl

/-- The command words of the table are the bytes R322 does not list. -/
theorem inTable_cmdWord_iff (b : Byte) :
    InTable (cmdWord b) ↔ ¬ (b.toNat = 0x00 ∨ b.toNat = 0x03 ∨ (0x11 ≤ b.toNat ∧ b.toNat ≤ 0x3F ∧ b.toNat % 4 ≠ 0)) := by
  have rejected := neverSentWordsAreRejected (b.setWidth 10)
  have writes : (b.setWidth 10).getLsbD 8 = false := by simp
  have command : (b.setWidth 10).getLsbD 9 = false := by simp
  have low : (b.setWidth 10).setWidth 8 = b := by rw [BitVec.setWidth_setWidth_of_le b (by decide), BitVec.setWidth_eq]
  simp only [writes, command, low, Bool.false_eq_true, false_or, true_and] at rejected
  rw [← rejected, InTable, ← wordRequest_byte, decode_wordRequest]
  cases decoded : decodeWord (b.setWidth 10) with
  | ok i => simp
  | error err => simp [decodeWord_error decoded]

/-- Settles O6: the builders give what the decoder reads, all bytes but those of R322's list, whose complement is R518's; the count is
a closed computation. -/
theorem commandBuildersGiveExactly218Words : Obligations.CommandBuildersGiveExactly218Words := by
  refine ⟨fun b => ((builtCommand_iff_inTable b).trans (inTable_cmdWord_iff b)).trans ?_, rfl⟩
  have clear : b = 0x01 ↔ b.toNat = 1 := BitVec.toNat_eq
  have home : b = 0x02 ↔ b.toNat = 2 := BitVec.toNat_eq
  rw [clear, home]
  omega

end Sys2Proof.Machine
end

section
/-! PROOFS. The character and text operations (43_text.md): each one's words and cursor are its `Effect`'s, the cursor corners of
PUT_CHAR_AT (R551), the bytes of a text that matter (R570), and DEFINE_CHAR's refusal (R580). -/

namespace Sys2Proof.Machine

/-! ### From an effect to what a statement says -/

/-- A host operation whose effect is Done with no delay after its words: the words, the cursor, and nothing else. -/
theorem exec_effect_done {i : Instr} {s t : State} {words : List BusWord} {cursor : Cursor}
    (he : effectOf i s = some ⟨words, [], cursor, .done⟩) (ran : exec i s = .next t) :
    Sends s t words ∧ KeepsAllButBusAndCursor s t cursor := by
  obtain ⟨-, sends, same⟩ := exec_effect he ran
  exact ⟨sends, same.eq⟩

/-- In READY such an operation is Done. -/
theorem hostOp_effect_done {i : Instr} {effect : State → State} (op : ∀ s, exec i s = hostOp effect s) {s : State}
    {words : List BusWord} {cursor : Cursor} (he : effectOf i s = some ⟨words, [], cursor, .done⟩) (ready : s.life = .ready) :
    ∃ t, exec i s = .next t ∧ Sends s t words ∧ KeepsAllButBusAndCursor s t cursor :=
  have ran := (op s).trans (hostOp_ready ready)
  ⟨_, ran, exec_effect_done he ran⟩

/-! ### PUT_CHAR, FORMATTED and FORMATTED_AT (R550, R570, R571) -/

/-- Settles O31: PUT_CHAR is the host operation of `emitChar`. -/
theorem putCharSendsTheCodeAndAdvances : Obligations.PutCharSendsTheCodeAndAdvances := by
  intro code
  have op : ∀ s, exec (.putChar code) s = hostOp (emitChar code) s := fun _ => rfl
  exact ⟨refusedBeforeInit_of_hostOp op, fun _ => hostOp_effect_done op rfl⟩

/-- Settles O33: FORMATTED is the host operation of `emitText`. -/
theorem formattedSendsItsTextByteByByte : Obligations.FormattedSendsItsTextByteByByte := by
  intro text
  have op : ∀ s, exec (.formatted text) s = hostOp (emitText text) s := fun _ => rfl
  exact ⟨refusedBeforeInit_of_hostOp op, fun _ => hostOp_effect_done op rfl⟩

/-- Settles O34: FORMATTED_AT is the host operation of `moveCursor` and then `emitText`. -/
theorem formattedAtMovesThenSendsItsText : Obligations.FormattedAtMovesThenSendsItsText := by
  intro col row text
  have op : ∀ s, exec (.formattedAt col row text) s =
      hostOp (fun s => emitText text (moveCursor col.toNat row.toNat s)) s := fun _ => rfl
  exact ⟨refusedBeforeInit_of_hostOp op, fun _ => hostOp_effect_done op rfl⟩

/-! ### PUT_CHAR_AT (R551) -/

/-- Past the end of line, row 0 goes on at row 1's start (41_addressing.md R451). -/
theorem movedTo_of_ge_row_zero {w c : Nat} (past : w ≤ c) : movedTo w c 0 = (0, 1) := by
  rw [movedTo, wrapped, if_pos past]
  rfl

/-- Past the end of line, every later row falls back to the origin (41_addressing.md R451, R452). -/
theorem movedTo_of_ge_row_pos {w c r : Nat} (past : w ≤ c) (later : 0 < r) : movedTo w c r = (0, 0) := by
  rw [movedTo, wrapped, if_pos past]
  exact if_neg (by omega)

/-- Rows below the display fall back to the origin, whatever the column (41_addressing.md R452). -/
theorem movedTo_of_two_le_row {w r : Nat} (c : Nat) (below : 2 ≤ r) : movedTo w c r = (0, 0) := by
  rcases Nat.lt_or_ge c w with inside | past
  · exact movedTo_of_row_ge inside below
  · exact movedTo_of_ge_row_pos past (by omega)

theorem cursorAt_succ_col (col row : Byte) : cursorAt (col.toNat + 1, row.toNat) = ⟨col + 1, row⟩ := by
  simp [cursorAt, BitVec.ofNat_add]

/-- Settles O32: PUT_CHAR_AT is the host operation of `moveCursor` and then `emitChar`; the corners are where the two closed forms land. -/
theorem putCharAtMovesDrawsAndAdvances : Obligations.PutCharAtMovesDrawsAndAdvances := by
  intro col row code
  have op : ∀ s, exec (.putCharAt col row code) s =
      hostOp (fun s => emitChar code (moveCursor col.toNat row.toNat s)) s := fun _ => rfl
  refine ⟨refusedBeforeInit_of_hostOp op, fun s ready => ?_⟩
  obtain ⟨t, ran, sends, keeps⟩ := hostOp_effect_done op rfl ready
  refine ⟨t, ran, ⟨sends, keeps⟩, fun inside display => ?_, fun below wide => ?_, fun below narrow => ?_⟩
    <;> rw [keeps.cursor]
  · rw [movedTo_of_lt inside display]
    refine ⟨fun notLast => ?_, fun last top => ?_, fun last bottom => ?_⟩
    · rw [movedTo_of_lt notLast display, cursorAt_succ_col]
    · subst top
      exact congrArg cursorAt (movedTo_of_ge_row_zero last.ge)
    · subst bottom
      exact congrArg cursorAt (movedTo_of_ge_row_pos last.ge Nat.one_pos)
  · rw [movedTo_of_two_le_row _ below, movedTo_of_lt wide (by decide)]
    rfl
  · rw [movedTo_of_two_le_row _ below, movedTo_of_ge_row_zero narrow.le]
    rfl

/-! ### The bytes of a text that matter (R570) -/

/-- FORMATTED reads its text through the kept bytes only. -/
theorem exec_formatted_congr {text text' : List Byte} (kept : keptText text = keptText text') (s : State) :
    exec (.formatted text) s = exec (.formatted text') s :=
  congrArg (fun bytes : List Byte => hostOp (fun s => bytes.foldl emitTextByte s) s) kept

theorem ne_endByte_of_mem {text : List Byte} (noEnd : 0x00 ∉ text) : ∀ c ∈ text, (c != 0x00) = true :=
  fun _ mem => bne_iff_ne.mpr fun isEnd => noEnd (isEnd ▸ mem)

theorem keptText_of_noEnd {text : List Byte} (noEnd : 0x00 ∉ text) : keptText text = text.take 80 :=
  congrArg (List.take 80) (List.takeWhile_eq_self_iff.mpr (ne_endByte_of_mem noEnd))

theorem endByte_notMem_keptText (text : List Byte) : 0x00 ∉ keptText text := fun mem =>
  absurd (List.mem_takeWhile_imp (List.mem_of_mem_take mem)) (by decide)

theorem keptText_keptText (text : List Byte) : keptText (keptText text) = keptText text := by
  rw [keptText_of_noEnd (endByte_notMem_keptText text)]
  exact List.take_take.trans rfl

/-- Nothing after the first 80 bytes is kept. -/
theorem keptText_append_of_full {text : List Byte} (full : text.length = 80) (noEnd : 0x00 ∉ text) (more : List Byte) :
    keptText (text ++ more) = keptText text := by
  rw [keptText_of_noEnd noEnd, keptText, List.takeWhile_append_of_pos (ne_endByte_of_mem noEnd),
    List.take_append_of_le_length full.ge]

/-- Nothing from the first 0x00 on is kept. -/
theorem keptText_append_endByte {text : List Byte} (noEnd : 0x00 ∉ text) (more : List Byte) :
    keptText (text ++ 0x00 :: more) = keptText text := by
  rw [keptText_of_noEnd noEnd, keptText, List.takeWhile_append_of_pos (ne_endByte_of_mem noEnd),
    List.takeWhile_cons_of_neg (by decide), List.append_nil]

/-- Settles O35: texts with the same kept bytes are the same to FORMATTED, and an empty text emits nothing. -/
theorem textBeyondTheCapIsDropped : Obligations.TextBeyondTheCapIsDropped :=
  ⟨fun text => exec_formatted_congr (keptText_keptText text).symm,
    fun _ more s full noEnd => exec_formatted_congr (keptText_append_of_full full noEnd more) s,
    fun _ more s noEnd => exec_formatted_congr (keptText_append_endByte noEnd more) s,
    fun _ ready => hostOp_ready (effect := emitText []) ready⟩

/-! ### DEFINE_CHAR (R580) -/

/-- DEFINE_CHAR's two refusals: before INIT, and of a pattern shorter than its size. -/
theorem execDefineChar_refused {addr : Byte} {pattern : List Byte} {size : Byte} {s : State} {r : Refusal} :
    execDefineChar addr pattern size s = .refused r ↔
      (s.life = .uninit ∧ r = .notInitialized) ∨ (s.life = .ready ∧ pattern.length < size.toNat ∧ r = .shortPattern) := by
  by_cases short : pattern.length < size.toNat
  · cases life : s.life <;> simp [execDefineChar, whenReady, life, short, eq_comm]
  · cases life : s.life <;> simp [execDefineChar, whenReady, life, short, finish, eq_comm]

/-- Settles O36: an accepted DEFINE_CHAR is one command and a stream of data, whose effect leaves the cursor it found. -/
theorem defineCharStreamsItsPattern : Obligations.DefineCharStreamsItsPattern := by
  intro addr pattern size
  rw [← setCgramWord_eq_ofNat]
  refine ⟨fun s uninit => execDefineChar_refused.mpr (.inl ⟨uninit, rfl⟩), fun s ready => ⟨fun short => ?_, fun long => ?_⟩⟩
  · exact execDefineChar_refused.mpr (.inr ⟨ready, short, rfl⟩)
  · have ran : exec (.defineChar addr pattern size) s = .next _ := execDefineChar_next.mpr ⟨ready, long, rfl⟩
    exact ⟨_, ran, exec_effect_done rfl ran⟩

end Sys2Proof.Machine
end

section
/-! PROOFS. The initialization sequence and the busy stub (44_init_status.md): the two ends of an accepted INIT, the levels and the
event counts of a Done one, what INIT reads of its format, and IS_BUSY. -/

namespace Sys2Proof.Machine

/-! ### How an accepted INIT ends (R600, R608) -/

/-- The state a Done INIT leaves. -/
def initDone (bus : BusDescriptor) (width : Byte) (bus8 : Bool) (lineCount : Byte) (s : State) : State :=
  { initReady (initWords lineCount (initPrime (initConfigured bus width bus8 s))) with outcome := .done }

/-- The state an INIT leaves that configured the lines `before` and halted at `role`. -/
def initHalted (bus : BusDescriptor) (width : Byte) (bus8 : Bool) (before : List LineRole) (role : LineRole) (s : State) : State :=
  { clk role (before.foldl configureLine (initRecord bus width bus8 s)) with life := .halted, outcome := .halted .badPort role }

section
variable {bus : BusDescriptor} {width : Byte} {bus8 : Bool} {lineCount : Byte} {bigFont : Bool} {s : State}
  (alive : s.life ≠ .halted) (widthOk : width ≠ 0) (distinct : ((initRoles bus8).map (roleGet bus)).Nodup)
include alive widthOk distinct

theorem exec_init_noneBad (noneBad : firstBadPort bus (initRoles bus8) = none) :
    exec (.init bus width bus8 lineCount bigFont) s = .next (initDone bus width bus8 lineCount s) := by
  have accepted := execInit_accepted bus width bus8 lineCount bigFont s alive widthOk distinct
  rw [noneBad] at accepted
  exact accepted

theorem exec_init_firstBad {before : List LineRole} {role : LineRole}
    (found : firstBadPort bus (initRoles bus8) = some (before, role)) :
    exec (.init bus width bus8 lineCount bigFont) s = .next (initHalted bus width bus8 before role s) := by
  have accepted := execInit_accepted bus width bus8 lineCount bigFont s alive widthOk distinct
  rw [found] at accepted
  exact accepted

/-- An accepted INIT has a next state, and which one when no port is bad. -/
theorem exec_init_next : ∃ t, exec (.init bus width bus8 lineCount bigFont) s = .next t ∧
    (firstBadPort bus (initRoles bus8) = none → t = initDone bus width bus8 lineCount s) := by
  cases found : firstBadPort bus (initRoles bus8) with
  | none => exact ⟨_, exec_init_noneBad alive widthOk distinct found, fun _ => rfl⟩
  | some bad => exact ⟨_, exec_init_firstBad alive widthOk distinct found, nofun⟩

end

section
variable (bus : BusDescriptor) (width : Byte) (bus8 : Bool) (lineCount : Byte) (s : State)

/-- The fields a Done INIT leaves, but for the trace and the levels (R602, R603). -/
theorem initDone_sameButBus :
    SameButBus
      { initRecord bus width bus8 s with
        life := .ready, outcome := .done, cfg := (initRoles bus8).foldl (fun m r => roleSet m r .output) s.cfg }
      (initDone bus width bus8 lineCount s) := by
  have start : SameButBus { initRecord bus width bus8 s with cfg := (initRoles bus8).foldl (fun m r => roleSet m r .output) s.cfg }
      (initConfigured bus width bus8 s) := by
    rw [initConfigured_eq]
    exact ⟨rfl, rfl, rfl, rfl, rfl, rfl, rfl, rfl⟩
  have tail := initTail_sameButBus lineCount (initConfigured bus width bus8 s)
  rw [initDone]
  exact ⟨rfl, tail.mode.trans start.mode, tail.width.trans start.width, tail.bus.trans start.bus, tail.cursor,
    tail.cfg.trans start.cfg, rfl, tail.calls.trans start.calls⟩

/-- The events of a Done INIT: its lines configured, then what shows as steps 3 to 5 (R603 to R606). -/
theorem initDone_trace : ∃ rest,
    (initDone bus width bus8 lineCount s).trace = s.trace ++ (initRoles bus8).flatMap (lineEvents bus) ++ rest ∧
    observe (modeOf bus8) (levelsAfter s.lvl ((initRoles bus8).flatMap (lineEvents bus))) rest = initSeen bus8 lineCount ∧
    (initDone bus width bus8 lineCount s).lvl = levelsAfter s.lvl ((initRoles bus8).flatMap (lineEvents bus) ++ rest) := by
  obtain ⟨rest, trace, seen, lvl⟩ := initTail_emits bus width bus8 lineCount s
  have start := initConfigured_eq bus width bus8 s
  rw [congrArg State.trace start] at trace
  rw [congrArg State.mode start, congrArg State.lvl start] at seen
  rw [congrArg State.lvl start] at lvl
  exact ⟨rest, trace, seen, lvl.trans (levelsAfter_append _ _ _).symm⟩

end

/-- Settles O38: the two ends of an accepted INIT. -/
theorem initRunsItsStepsOrHalts : Obligations.InitRunsItsStepsOrHalts := by
  intro bus width bus8 lineCount bigFont s alive widthOk distinct
  cases found : firstBadPort bus (initRoles bus8) with
  | none =>
    have same := initDone_sameButBus bus width bus8 lineCount s
    refine ⟨_, exec_init_noneBad alive widthOk distinct found, same.mode, same.width, same.bus, same.cursor, same.calls,
      same.life, same.outcome, initDone_trace bus width bus8 lineCount s, fun role => ?_⟩
    rw [same.cfg]
    exact roleGet_foldl_roleSet _ _ _ _
  | some bad =>
    obtain ⟨before, role⟩ := bad
    refine ⟨_, exec_init_firstBad alive widthOk distinct found, ?_⟩
    rw [initHalted, configureAll_eq]
    exact ⟨rfl, rfl, rfl, rfl, rfl, rfl, rfl, rfl, roleGet_foldl_roleSet _ _ _, roleGet_foldl_roleSet _ _ _⟩

/-! ### The lines a Done INIT leaves (R607) -/

/-- The last word of step 5 is the home word. -/
theorem initWordList_eq_append_home (lineCount : Byte) : ∃ front, initWordList lineCount = front ++ [cmdWord 0x02] :=
  ⟨(initWordList lineCount).dropLast, rfl⟩

theorem initDone_lvl (bus : BusDescriptor) (width : Byte) (bus8 : Bool) (lineCount : Byte) (s : State) :
    ∃ lvl, (initDone bus width bus8 lineCount s).lvl = levelsAfterWord (modeOf bus8) lvl (cmdWord 0x02) := by
  have sent := (initWords_spec lineCount (initPrime (initConfigured bus width bus8 s))).1.2
  have mode : (initPrime (initConfigured bus width bus8 s)).mode = modeOf bus8 :=
    (initPrime_sameButBus _).mode.trans (congrArg State.mode (initConfigured_eq bus width bus8 s))
  obtain ⟨front, endsHome⟩ := initWordList_eq_append_home lineCount
  rw [mode, endsHome, levelsAfterWords_append] at sent
  exact ⟨_, sent⟩

/-- Settles O39: the levels are those the home word leaves. -/
theorem initLeavesTheHomeWordOnTheLines : Obligations.InitLeavesTheHomeWordOnTheLines := by
  intro bus width bus8 lineCount bigFont s alive widthOk distinct
  obtain ⟨t, ran, whenDone⟩ := exec_init_next (lineCount := lineCount) (bigFont := bigFont) alive widthOk distinct
  refine ⟨t, ran, fun noneBad => ?_⟩
  rw [whenDone noneBad]
  have same := initDone_sameButBus bus width bus8 lineCount s
  obtain ⟨lvl, home⟩ := initDone_lvl bus width bus8 lineCount s
  refine ⟨same.life, same.cursor, ?_⟩
  rw [home]
  cases bus8 with
  | true => exact ⟨rfl, rfl, rfl, fun _ => rfl, nofun⟩
  | false => exact ⟨rfl, rfl, rfl, nofun, fun _ => rfl⟩

/-! ### The events of a Done INIT, counted (R610) -/

/-- Going from `s` to `t` kept the mode and appended so many events, which request so many delay units. -/
structure Appends (s t : State) (events units : Nat) : Prop where
  mode     : t.mode = s.mode
  appended : ∃ evs, t.trace = s.trace ++ evs ∧ evs.length = events ∧ requestedUnits evs = units

theorem Appends.trans {s t u : State} {e₁ u₁ e₂ u₂ : Nat} (first : Appends s t e₁ u₁) (second : Appends t u e₂ u₂) :
    Appends s u (e₁ + e₂) (u₁ + u₂) := by
  obtain ⟨mode₁, a, traceA, lengthA, unitsA⟩ := first
  obtain ⟨mode₂, b, traceB, lengthB, unitsB⟩ := second
  exact ⟨mode₂.trans mode₁, a ++ b, by rw [traceB, traceA, List.append_assoc], by rw [List.length_append, lengthA, lengthB],
    by rw [requestedUnits_append, unitsA, unitsB]⟩

theorem Appends.of_counts {s t : State} {events cycles units : Nat} (mode : t.mode = s.mode)
    (counted : ∃ evs, t.trace = s.trace ++ evs ∧ EventCounts s.mode s.lvl evs events cycles units) : Appends s t events units := by
  obtain ⟨evs, trace, counts⟩ := counted
  exact ⟨mode, evs, trace, counts.length, counts.delays⟩

theorem dly_appends (n : Nat) (s : State) : Appends s (dly n s) 1 n := ⟨rfl, [.dly n], rfl, rfl, rfl⟩

theorem setCursor_appends (col row : Nat) (s : State) : Appends s (setCursor col row s) 0 0 :=
  ⟨rfl, [], (List.append_nil _).symm, rfl, rfl⟩

theorem nibble_appends (n : BitVec 4) (s : State) : Appends s (nibble n s) 8 2 :=
  .of_counts (nibble_sameButBus n s).mode (nibble_counts n s)

theorem sendCommand_appends_bus8 (w : Byte) {s : State} (mode : s.mode = .bus8) : Appends s (sendCommand w s) 14 2 :=
  .of_counts (sendCommand_sameButBus w s).mode (writeByte_counts_bus8 false w mode)

theorem sendCommand_appends_bus4 (w : Byte) {s : State} (mode : s.mode = .bus4) : Appends s (sendCommand w s) 18 4 :=
  .of_counts (sendCommand_sameButBus w s).mode (writeByte_counts_bus4 false w mode)

/-- Step 2: three events for each line. -/
theorem configureAll_appends (roles : List LineRole) (s : State) :
    Appends s (roles.foldl configureLine s) (roles.length * 3) 0 := by
  induction roles generalizing s with
  | nil => exact ⟨rfl, [], (List.append_nil _).symm, rfl, rfl⟩
  | cons role rest ih =>
    have one : Appends s (configureLine s role) 3 0 := by
      rw [configureLine_sameButLines]
      exact ⟨rfl, lineEvents s.bus role, rfl, rfl, rfl⟩
    rw [List.length_cons, Nat.succ_mul, Nat.add_comm (rest.length * 3)]
    exact one.trans (ih _)

theorem primeRepeat_appends (n : Nat) (s : State) : Appends s (primeRepeat n s) (n * 9) (n * 17) := by
  induction n generalizing s with
  | zero => exact ⟨rfl, [], (List.append_nil _).symm, rfl, rfl⟩
  | succ n ih =>
    have one : Appends s (dly Config.tPrime (nibble Config.primeNibble s)) 9 17 := (nibble_appends _ s).trans (dly_appends 15 _)
    rw [Nat.succ_mul, Nat.succ_mul, Nat.add_comm (n * 9), Nat.add_comm (n * 17)]
    exact one.trans (ih _)

/-- Steps 3 and 4 in BUS8: the settle delay. -/
theorem initPrime_appends_bus8 {s : State} (mode : s.mode = .bus8) : Appends s (initPrime s) 1 40 := by
  simp only [initPrime, dly_mode, mode]
  exact dly_appends 40 s

/-- Steps 3 and 4 in BUS4: the settle delay, three nibbles with their delays, and one nibble. -/
theorem initPrime_appends_bus4 {s : State} (mode : s.mode = .bus4) : Appends s (initPrime s) 36 93 := by
  simp only [initPrime, dly_mode, mode]
  exact ((dly_appends 40 s).trans (primeRepeat_appends 3 _)).trans (nibble_appends _ _)

/-- Step 5: six commands and a delay of 2, whatever a command's events are in the mode. -/
theorem initWords_appends (lineCount : Byte) {s : State} {events units : Nat}
    (command : ∀ w u, u.mode = s.mode → Appends u (sendCommand w u) events units) :
    Appends s (initWords lineCount s) (6 * events + 1) (6 * units + 2) := by
  have first := command (functionSetWord false (twoLines lineCount) false) s rfl
  have second := first.trans (command (displayControlWord true false false) _ first.mode)
  have third := second.trans (command (entryModeWord true false) _ second.mode)
  have fourth := third.trans (command (shiftWord false false) _ third.mode)
  have fifth := (fourth.trans (setCursor_appends 0 0 _)).trans (command Config.opClear _ fourth.mode)
  have sixth := (fifth.trans (setCursor_appends 0 0 _)).trans (command Config.opHome _ fifth.mode)
  obtain ⟨mode, evs, trace, length, delays⟩ := sixth.trans (dly_appends Config.tHome _)
  exact ⟨mode, evs, trace, by omega, by rw [delays, Config.tHome]; omega⟩

/-- R610: a Done INIT from its record on, in each mode. -/
theorem initDone_appends (bus : BusDescriptor) (width : Byte) (bus8 : Bool) (lineCount : Byte) (s : State) :
    Appends (initRecord bus width bus8 s) (initDone bus width bus8 lineCount s) (if bus8 then 119 else 166)
      (if bus8 then 54 else 119) := by
  have lines : Appends _ (initConfigured bus width bus8 s) _ _ := configureAll_appends (initRoles bus8) (initRecord bus width bus8 s)
  have ran : Appends (initRecord bus width bus8 s)
      (initWords lineCount (initPrime (initConfigured bus width bus8 s))) (if bus8 then 119 else 166) (if bus8 then 54 else 119) := by
    cases bus8 with
    | true =>
      have primed := lines.trans (initPrime_appends_bus8 lines.mode)
      exact primed.trans (initWords_appends lineCount fun w _ same => sendCommand_appends_bus8 w (same.trans primed.mode))
    | false =>
      have primed := lines.trans (initPrime_appends_bus4 lines.mode)
      exact primed.trans (initWords_appends lineCount fun w _ same => sendCommand_appends_bus4 w (same.trans primed.mode))
  exact ⟨ran.mode, ran.appended⟩

/-- Settles O40: events and units by `initDone_appends`, and the cycles of those events by `execInit_ready_cycles`. -/
theorem initTotals : Obligations.InitTotals := by
  intro bus width bus8 lineCount bigFont s alive widthOk distinct
  obtain ⟨t, ran, whenDone⟩ := exec_init_next (lineCount := lineCount) (bigFont := bigFont) alive widthOk distinct
  refine ⟨t, ran, fun noneBad => ?_⟩
  obtain rfl := whenDone noneBad
  obtain ⟨evs, trace, cycles⟩ := execInit_ready_cycles (bigFont := bigFont) ran rfl
  obtain ⟨mode, counted, trace', length, units⟩ := initDone_appends bus width bus8 lineCount s
  obtain rfl : evs = counted := List.append_cancel_left (trace.symm.trans trace')
  refine ⟨evs, trace, ?_⟩
  rw [cycles, mode]
  cases bus8 with
  | true => exact ⟨fun _ => ⟨length, rfl, units⟩, nofun⟩
  | false => exact ⟨nofun, fun _ => ⟨length, rfl, units⟩⟩

/-! ### What INIT reads of its format (R601, R606) -/

theorem initWords_congr {lineCount other : Byte} (same : twoLines lineCount = twoLines other) :
    initWords lineCount = initWords other := by
  funext s
  rw [initWords, initWords, same]

/-- Settles O41: INIT reads `lineCount` in step 5 only, for its N flag. -/
theorem initReadsOnlyTwoLinesOfItsFormat : Obligations.InitReadsOnlyTwoLinesOfItsFormat := by
  intro bus width bus8 lineCount other bigFont bigFont' s twoLinesIff
  have same : twoLines lineCount = twoLines other := decide_eq_decide.mpr twoLinesIff
  simp only [exec, execInit, initWords_congr same]

/-! ### IS_BUSY (R650) -/

theorem execIsBusy_refused {s : State} {r : Refusal} :
    execIsBusy s = .refused r ↔ s.life = .uninit ∧ r = .notInitialized := by
  cases life : s.life <;> simp [execIsBusy, whenReady, life, finish, eq_comm]

/-- Settles O42: IS_BUSY is one delay and the stub's Boolean, whichever it is. -/
theorem isBusyDelaysOnceAndReturnsTheStub : Obligations.IsBusyDelaysOnceAndReturnsTheStub :=
  ⟨fun _ uninit => execIsBusy_refused.mpr ⟨uninit, rfl⟩, fun _ ready => execIsBusy_next.mpr ⟨ready, rfl⟩⟩

end Sys2Proof.Machine
end

section
/-! PROOFS. Stops (60_exceptions.md): which calls are refused and when the engine is stuck (R700, R702, R711), what a refused call
returns (R722), and what HALTED records (R710). -/

namespace Sys2Proof.Machine

/-! ### The check every instruction begins with (R702) -/

theorem whenReady_refused {s : State} {k : State → Answer} {r : Refusal} :
    whenReady s k = .refused r ↔ (s.life = .uninit ∧ r = .notInitialized) ∨ (s.life = .ready ∧ k s = .refused r) := by
  cases life : s.life <;> simp [whenReady, life, eq_comm]

theorem whenReady_fault {s : State} {k : State → Answer} {f : Fault} :
    whenReady s k = .fault f ↔ (s.life = .halted ∧ f = .engineHalted) ∨ (s.life = .ready ∧ k s = .fault f) := by
  cases life : s.life <;> simp [whenReady, life, eq_comm]

theorem unlessHalted_fault {s : State} {k : State → Answer} {f : Fault} :
    unlessHalted s k = .fault f ↔ (s.life = .halted ∧ f = .engineHalted) ∨ (s.life ≠ .halted ∧ k s = .fault f) := by
  cases life : s.life <;> simp [unlessHalted, life, eq_comm]

/-- Every instruction is INIT, DEFINE_CHAR, another host operation that is always Done in READY, or a word or nibble of the
sequencer's table. -/
theorem exec_shape (i : Instr) :
    isInit i = true ∨ (∃ addr pattern size, i = .defineChar addr pattern size) ∨
      (isHostOp i = true ∧ isInit i = false ∧
        ∃ outcome, ∃ effect : State → State, ∀ s, exec i s = whenReady s fun s => finish outcome (effect s)) ∨
      (isHostOp i = false ∧ ∃ effect, ∀ s, exec i s = busOp effect s) := by
  cases i with
  | init => exact .inl rfl
  | defineChar addr pattern size => exact .inr (.inl ⟨addr, pattern, size, rfl⟩)
  | cmdClear | cmdHome | cmdEntryMode | cmdDisplayControl | cmdShift | cmdFunctionSet | cmdSetCgram | cmdSetDdram | data | nibPrime3
  | nibPrime2 => exact .inr (.inr (.inr ⟨rfl, _, fun _ => rfl⟩))
  | _ => exact .inr (.inr (.inl ⟨rfl, rfl, _, _, fun _ => rfl⟩))

/-! ### Refusals (R700) -/

theorem exec_refusedBeforeInit {i : Instr} (host : isHostOp i = true) (notInit : isInit i = false) : RefusedBeforeInit i := by
  intro s uninit
  rcases exec_shape i with init | ⟨addr, pattern, size, rfl⟩ | ⟨-, -, outcome, effect, op⟩ | ⟨tableWord, -⟩
  · simp [notInit] at init
  · exact execDefineChar_refused.mpr (.inl ⟨uninit, rfl⟩)
  · rw [op]
    exact whenReady_refused.mpr (.inl ⟨uninit, rfl⟩)
  · simp [host] at tableWord

/-- INIT's two refusals: of width 0, and then of two used roles on one line. -/
theorem exec_init_refused {bus : BusDescriptor} {width : Byte} {bus8 : Bool} {lineCount : Byte} {bigFont : Bool} {s : State}
    {r : Refusal} :
    exec (.init bus width bus8 lineCount bigFont) s = .refused r ↔ s.life ≠ .halted ∧
      ((width = 0 ∧ r = .badWidth) ∨ (width ≠ 0 ∧ ¬ ((initRoles bus8).map (roleGet bus)).Nodup ∧ r = .lineAlias)) := by
  by_cases halted : s.life = .halted
  · simp [exec, execInit, unlessHalted, halted]
  by_cases widthZero : width = 0
  · rw [exec, execInit_alive _ _ _ _ _ _ halted]
    simp [halted, widthZero, eq_comm]
  by_cases distinct : ((initRoles bus8).map (roleGet bus)).Nodup
  · obtain ⟨t, accepted, -⟩ := exec_init_next (lineCount := lineCount) (bigFont := bigFont) halted widthZero distinct
    simp only [accepted, reduceCtorEq, widthZero, distinct, not_true_eq_false, false_and, and_false, or_self]
  · have aliased : lineAliased bus (modeOf bus8) = true := by
      rwa [← Bool.not_eq_false, lineAliased_eq_false, usedRoles_modeOf]
    rw [exec, execInit_alive _ _ _ _ _ _ halted, if_neg widthZero, if_pos aliased]
    simp only [Host.Outcome.refused.injEq, @eq_comm _ _ r, halted, widthZero, distinct, ne_eq, not_false_eq_true, true_and,
      false_and, false_or]

/-- Settles O12: the refusals of INIT, of DEFINE_CHAR and of the other host operations are each a row of the table. -/
theorem refusalsAreExactlyTheTable : Obligations.RefusalsAreExactlyTheTable := by
  intro i s r
  constructor
  · intro refused
    rcases exec_shape i with init | ⟨addr, pattern, size, rfl⟩ | ⟨host, notInit, outcome, effect, op⟩ | ⟨-, effect, op⟩
    · cases i with
      | init bus width bus8 lineCount bigFont =>
        exact .inr (.inl ⟨bus, width, bus8, lineCount, bigFont, rfl, exec_init_refused.mp refused⟩)
      | _ => cases init
    · rcases execDefineChar_refused.mp refused with ⟨uninit, rfl⟩ | short
      · exact .inl ⟨rfl, rfl, uninit, rfl⟩
      · exact .inr (.inr ⟨addr, pattern, size, rfl, short⟩)
    · rw [op] at refused
      rcases whenReady_refused.mp refused with notReady | ⟨-, done⟩
      · exact .inl ⟨host, notInit, notReady⟩
      · cases done
    · rw [op] at refused
      exact absurd refused busOp_refused
  · rintro (⟨host, notInit, uninit, rfl⟩ | ⟨bus, width, bus8, lineCount, bigFont, rfl, failed⟩ | ⟨addr, pattern, size, rfl, short⟩)
    · exact exec_refusedBeforeInit host notInit s uninit
    · exact exec_init_refused.mpr failed
    · exact execDefineChar_refused.mpr (.inr short)

/-! ### Stuck in HALTED (R711) -/

theorem execDefineChar_fault {addr : Byte} {pattern : List Byte} {size : Byte} {s : State} {f : Fault} :
    execDefineChar addr pattern size s = .fault f ↔ s.life = .halted ∧ f = .engineHalted := by
  refine whenReady_fault.trans (or_iff_left ?_)
  rintro ⟨-, stuck⟩
  split at stuck <;> cases stuck

theorem exec_init_fault {bus : BusDescriptor} {width : Byte} {bus8 : Bool} {lineCount : Byte} {bigFont : Bool} {s : State}
    {f : Fault} : exec (.init bus width bus8 lineCount bigFont) s = .fault f ↔ s.life = .halted ∧ f = .engineHalted := by
  rw [exec, execInit, unlessHalted_fault]
  refine or_iff_left ?_
  rintro ⟨-, stuck⟩
  split at stuck
  · cases stuck
  split at stuck
  · cases stuck
  split at stuck <;> cases stuck

/-- Settles O13: HALTED fails the check every instruction begins with, and nothing after that check is stuck. -/
theorem onlyHaltedIsStuck : Obligations.OnlyHaltedIsStuck := by
  intro i s f
  rcases exec_shape i with init | ⟨addr, pattern, size, rfl⟩ | ⟨-, -, outcome, effect, op⟩ | ⟨-, effect, op⟩
  · cases i with
    | init => exact exec_init_fault
    | _ => cases init
  · exact execDefineChar_fault
  · rw [op]
    exact whenReady_fault.trans (or_iff_left fun stuck => nomatch stuck.2)
  · rw [op]
    exact unlessHalted_fault.trans (or_iff_left fun stuck => nomatch stuck.2)

/-! ### What a refused call returns (R702, R722) -/

section
variable {s : State} {q : Request} {rest : List Request} (pending : s.calls = q :: rest)
include pending

theorem step_of_refused {i : Instr} {r : Refusal} (decoded : decode q = .ok i)
    (refused : exec i { s with calls := rest } = .refused r) : step s = .next (afterRefusal s rest r) := by
  rw [step_of_decoded pending decoded, refused]
  rfl

/-- A step that reports a refusal handed it back from its instruction, or from a tag that names no operation. -/
theorem step_reports_refusal {t : State} {r : Refusal} (h : step s = .next t) (reported : t.outcome = .refused r) :
    t = afterRefusal s rest r ∧
      ((∃ i, decode q = .ok i ∧ exec i { s with calls := rest } = .refused r) ∨
        ∃ tag, decode q = .error (.badOpcode tag) ∧ r = .badOpcode tag) := by
  rw [step_of_calls pending, backToCaller_next] at h
  cases decoded : decode q with
  | ok i =>
    simp only [decoded] at h
    rcases h with ran | ⟨r', refused, -, -, rfl⟩
    · exact absurd reported (exec_next_outcome ran r)
    · cases reported
      exact ⟨rfl, .inl ⟨i, rfl, refused⟩⟩
  | error err =>
    simp only [decoded] at h
    obtain ran | ⟨r', refused, returns, -, rfl⟩ := h
    · cases ran
    · cases reported
      cases refused
      cases err with
      | badOpcode tag => exact ⟨rfl, .inr ⟨tag, rfl, rfl⟩⟩
      | truncated | badOperand | trailingBytes | badWordWidth | notEmitted => cases returns

end

/-- Settles O10: each check is a row of the table of refusals (O12), after the tag (O11) and HALTED (O13). -/
theorem checksRunInTheOrderOfTheSpec : Obligations.ChecksRunInTheOrderOfTheSpec := by
  intro s q rest pending
  refine ⟨?_, fun i decoded halted => ?_, fun i decoded host notInit uninit => ?_,
    fun bus bus8 lineCount bigFont decoded alive => ?_,
    fun bus width bus8 lineCount bigFont decoded alive widthOk aliased => ?_,
    fun addr pattern size decoded ready short => ?_⟩
  · rintro tag args rfl unused
    obtain ⟨returned, stays⟩ := unusedTagsAreBadOpcodes s tag args rest pending
    exact ⟨fun alive => (returned alive).mpr unused, fun halted => (stays halted).mpr unused⟩
  · have stuck := (onlyHaltedIsStuck i { s with calls := rest } .engineHalted).mpr ⟨halted, rfl⟩
    rw [step_of_decoded pending decoded, stuck]
    rfl
  · exact step_of_refused pending decoded (exec_refusedBeforeInit host notInit _ uninit)
  · exact step_of_refused pending decoded (exec_init_refused.mpr ⟨alive, .inl ⟨rfl, rfl⟩⟩)
  · exact step_of_refused pending decoded (exec_init_refused.mpr ⟨alive, .inr ⟨widthOk, aliased, rfl⟩⟩)
  · exact step_of_refused pending decoded (execDefineChar_refused.mpr (.inr ⟨ready, short, rfl⟩))

/-- Settles O60: both kinds of refusal are handed back outside HALTED, and nothing else reports one. -/
theorem refusedCallsReturnToTheCaller : Obligations.RefusedCallsReturnToTheCaller := by
  intro s q rest pending alive
  refine ⟨fun i r decoded refused => step_of_refused pending decoded refused,
    fun tag undecoded => (step_returns_badOpcode_iff pending alive tag).mpr undecoded, fun t r h reported => ?_⟩
  obtain ⟨left, ⟨i, -, refused⟩ | ⟨tag, -, rfl⟩⟩ := step_reports_refusal pending h reported
  · exact ⟨left, .inl (exec_refused refused).2.2⟩
  · exact ⟨left, .inr ⟨tag, rfl⟩⟩

/-! ### What HALTED records (R710) -/

theorem initHalted_haltRecorded {bus : BusDescriptor} {bus8 : Bool} {before : List LineRole} {role : LineRole}
    (found : firstBadPort bus (initRoles bus8) = some (before, role)) (width : Byte) (s : State) :
    HaltRecorded (initHalted bus width bus8 before role s) := by
  intro _
  obtain ⟨⟨after, roles⟩, bad, -⟩ := firstBadPort_eq_some bus _ before role found
  have used : role ∈ usedRoles (modeOf bus8) := by simp [usedRoles_modeOf, roles]
  rw [initHalted, configureAll_eq]
  exact ⟨role, used, rfl, bad, List.getLast?_concat⟩

theorem exec_init_haltRecorded {bus : BusDescriptor} {width : Byte} {bus8 : Bool} {lineCount : Byte} {bigFont : Bool} {s t : State}
    (h : exec (.init bus width bus8 lineCount bigFont) s = .next t) : HaltRecorded t := by
  obtain ⟨alive, widthOk, distinct⟩ := execInit_next_accepted (bigFont := bigFont) h
  cases found : firstBadPort bus (initRoles bus8) with
  | none =>
    cases h.symm.trans (exec_init_noneBad alive widthOk distinct found)
    exact fun halted => nomatch halted
  | some bad =>
    cases h.symm.trans (exec_init_firstBad alive widthOk distinct found)
    exact initHalted_haltRecorded found width s

/-- Settles O56: no instruction runs in HALTED, and only INIT writes the lifecycle. -/
theorem haltedMeansABadPortWasClocked : Obligations.HaltedMeansABadPortWasClocked := by
  intro s t before h
  refine step_keeps (P := HaltRecorded) (fun _ _ k => k) (fun _ _ alive _ halted => absurd halted alive) ?_ before h
  intro i u v _ ran
  obtain ⟨-, alive, keeps⟩ := onlyInitReconfigures i u v ran
  cases kind : isInit i with
  | false => exact fun halted => absurd ((keeps kind).1.symm.trans halted) alive
  | true =>
    cases i with
    | init => exact exec_init_haltRecorded ran
    | _ => cases kind

end Sys2Proof.Machine
end

section
/-! PROOFS. Hazards of the lines and delays (70_reset_and_hazards.md): no line is touched while E is high (R824), every delay is one of
the table's amounts (R822), and the units each operation requests (R840). -/

namespace Sys2Proof.Machine

/-! ### No line is touched while E is high (R824) -/

/-- Events that leave E low, and then events that start with E low. -/
theorem strobesClean_append {high : Bool} {a b : List Event} (first : strobesClean high a = true)
    (second : strobesClean false b = true) : strobesClean high (a ++ b) = true := by
  induction a generalizing high with
  | nil =>
    have low : high = false := by simpa [strobesClean] using first
    rw [low]
    exact second
  | cons ev rest ih =>
    cases ev with
    | dly n => exact ih first
    | clk role line | out role line =>
      simp only [List.cons_append, strobesClean, Bool.and_eq_true] at first ⊢
      exact first.imp_right ih
    | drv role line v =>
      by_cases strobe : role = .e
      · simp only [List.cons_append, strobesClean, if_pos strobe, Bool.and_eq_true] at first ⊢
        exact first.imp_right ih
      · simp only [List.cons_append, strobesClean, if_neg strobe, Bool.and_eq_true] at first ⊢
        exact first.imp_right ih

theorem strobesClean_flatMap {α : Type} {f : α → List Event} {l : List α} (each : ∀ a ∈ l, strobesClean false (f a) = true) :
    strobesClean false (l.flatMap f) = true := by
  induction l with
  | nil => rfl
  | cons a rest ih =>
    obtain ⟨first, others⟩ := List.forall_mem_cons.mp each
    exact strobesClean_append first (ih others)

/-- A setup phase that does not drive E keeps it low (40_bus_transport.md R405). -/
theorem strobesClean_driveEvents (bus : BusDescriptor) {pairs : List (LineRole × Bool)}
    (noStrobe : LineRole.e ∉ pairs.map Prod.fst) : strobesClean false (driveEvents bus pairs) = true := by
  induction pairs with
  | nil => rfl
  | cons p rest ih =>
    obtain ⟨other, restOther⟩ := not_or.mp (List.mem_cons.not.mp noStrobe)
    exact (if_neg (Ne.symm other)).trans (ih restOther)

/-- A pulse raises E and drives nothing before it lowers it (40_bus_transport.md R410). -/
theorem strobesClean_pulseEvents (bus : BusDescriptor) : strobesClean false (pulseEvents bus) = true := rfl

theorem Act.events_strobesClean {mode : BusMode} {a : Act} (ok : a.Ok mode) (bus : BusDescriptor) :
    strobesClean false (a.events bus) = true := by
  cases a with
  | clk | out | delay | place => rfl
  | low role => cases role <;> rfl
  | cycle phase pairs =>
    obtain ⟨⟨-, noStrobe⟩, -⟩ := ok
    have ordered : LineRole.e ∉ (setupOrder phase pairs).map Prod.fst := by
      rwa [((setupOrder_perm phase pairs).map Prod.fst).mem_iff]
    exact strobesClean_append (strobesClean_driveEvents bus ordered) (strobesClean_pulseEvents bus)

/-- Settles O47: an instruction is a script of allowed actions, and each of them starts and ends with E low. -/
theorem nothingIsDrivenWhileEIsHigh : Obligations.NothingIsDrivenWhileEIsHigh := by
  intro i s t h
  obtain ⟨_, acts, -, ok, -, -, -, trace, -⟩ := exec_fields h
  exact ⟨actsEvents t.bus acts, trace, strobesClean_flatMap fun a inScript => Act.events_strobesClean (ok a inScript) t.bus⟩

/-! ### Delays of the table (R822) -/

theorem Act.events_delayInTable {mode : BusMode} {a : Act} (ok : a.Ok mode) (bus : BusDescriptor) :
    ∀ ev ∈ a.events bus, delayInTable ev = true := by
  cases a with
  | clk | low | out => exact List.forall_mem_singleton.mpr rfl
  | place => exact List.forall_mem_nil _
  | delay units =>
    refine List.forall_mem_singleton.mpr ?_
    rcases ok with rfl | rfl | rfl | rfl <;> rfl
  | cycle phase pairs =>
    refine List.forall_mem_append.mpr ⟨List.forall_mem_map.mpr fun _ _ => rfl, ?_⟩
    simp [pulseEvents, delayInTable, Config.tEh, Config.tEl]

/-- Settles O49: an allowed action delays by an amount of the table, and a pulse by 1. -/
theorem onlyTheTablesDelaysAreRequested : Obligations.OnlyTheTablesDelaysAreRequested := by
  intro i s t h
  obtain ⟨_, acts, -, ok, -, -, -, trace, -⟩ := exec_fields h
  refine ⟨actsEvents t.bus acts, trace, fun ev mem => ?_⟩
  obtain ⟨a, inScript, ofAction⟩ := List.mem_flatMap.mp mem
  exact Act.events_delayInTable (ok a inScript) t.bus ev ofAction

/-! ### Requested units, read off what is seen (R820) -/

/-- The delay units among what is seen. -/
def unitsSeen : List Observed → Nat
  | [] => 0
  | .dly n :: rest => n + unitsSeen rest
  | .cycle _ :: rest => unitsSeen rest
  | .strobeLow :: rest => unitsSeen rest
  | .clk _ _ :: rest => unitsSeen rest
  | .out _ _ :: rest => unitsSeen rest

theorem unitsSeen_append (a b : List Observed) : unitsSeen (a ++ b) = unitsSeen a + unitsSeen b := by
  induction a with
  | nil => exact (Nat.zero_add _).symm
  | cons o rest ih => cases o <;> simp [unitsSeen, ih, Nat.add_assoc]

theorem unitsSeen_observeDrive (mode : BusMode) (lvl : RoleMap (Option Bool)) (role : LineRole) (v : Bool) :
    unitsSeen (observeDrive mode lvl role v) = 0 := by
  unfold observeDrive
  split
  · cases v <;> rfl
  · rfl

/-- Every delay is seen. -/
theorem unitsSeen_observe (mode : BusMode) (lvl : RoleMap (Option Bool)) (evs : List Event) :
    unitsSeen (observe mode lvl evs) = requestedUnits evs := by
  induction evs generalizing lvl with
  | nil => rfl
  | cons ev rest ih =>
    cases ev with
    | drv role line v => rw [observe, unitsSeen_append, unitsSeen_observeDrive, Nat.zero_add, ih, requestedUnits]
    | dly n => exact congrArg (n + ·) (ih lvl)
    | clk | out => exact ih lvl

/-- The units one word requests (40_bus_transport.md R432). -/
def wordUnits : BusMode → Nat
  | .bus8 => 2
  | .bus4 => 4

theorem unitsSeen_strobes (cycles : List BusCycle) : unitsSeen (cycles.flatMap strobeSeen) = cycles.length * 2 := by
  induction cycles with
  | nil => rfl
  | cons c rest ih =>
    have pulse : unitsSeen (strobeSeen c) = 2 := rfl
    rw [List.flatMap_cons, unitsSeen_append, ih, pulse, List.length_cons]
    omega

theorem wordCycles_length (mode : BusMode) (w : BusWord) : (wordCycles mode w).length * 2 = wordUnits mode := by
  cases mode <;> rfl

theorem unitsSeen_wordsSeen (mode : BusMode) (ws : List BusWord) : unitsSeen (wordsSeen mode ws) = ws.length * wordUnits mode := by
  induction ws with
  | nil => exact (Nat.zero_mul _).symm
  | cons w rest ih =>
    have one : unitsSeen (wordsSeen mode [w]) = wordUnits mode := by
      rw [wordsSeen, unitsSeen_strobes, List.flatMap_singleton, wordCycles_length]
    rw [← List.singleton_append, wordsSeen_append, unitsSeen_append, one, ih, List.singleton_append, List.length_cons, Nat.succ_mul,
      Nat.add_comm]

/-- Words and then what `after` says request the units of each. -/
theorem SendsThen.units {s t : State} {ws : List BusWord} {after : List Observed} (sent : SendsThen s t ws after) :
    ∃ evs, t.trace = s.trace ++ evs ∧ requestedUnits evs = ws.length * wordUnits s.mode + unitsSeen after := by
  obtain ⟨⟨evs, trace, seen, -⟩, -⟩ := sent
  exact ⟨evs, trace, by rw [← unitsSeen_observe s.mode s.lvl, seen, unitsSeen_append, unitsSeen_wordsSeen]⟩

/-! ### The table of R840 -/

/-- A newline byte is one word and a drawn byte two (43_text.md R581). -/
theorem textRun_length (width : Nat) (start : Nat × Nat) (text : List Byte) :
    (textRun width start text).1.length = 2 * text.countP (fun c => c != 0x0A) + text.countP (fun c => c == 0x0A) := by
  induction text generalizing start with
  | nil => rfl
  | cons c rest ih =>
    by_cases newline : c = 0x0A
    · have fed : (c == 0x0A) = true := beq_iff_eq.mpr newline
      simp only [textRun, if_pos newline, List.length_cons, ih, List.countP_cons, bne, fed, Bool.not_true, Bool.false_eq_true, if_true,
        if_false]
      omega
    · have drawn : (c == 0x0A) = false := beq_eq_false_iff_ne.mpr newline
      simp only [textRun, if_neg newline, List.length_cons, ih, List.countP_cons, bne, drawn, Bool.not_false, Bool.false_eq_true,
        if_true, if_false]
      omega

theorem textRun_keptText_length (width : Nat) (start : Nat × Nat) (text : List Byte) :
    (textRun width start (keptText text)).1.length = 2 * drawnCount text + newlineCount text :=
  textRun_length width start (keptText text)

/-- What a host operation but INIT sends is as many words and delays as its row has units. -/
theorem effectOf_units {i : Instr} {s t : State} {e : Effect} (he : effectOf i s = some e) (ran : exec i s = .next t)
    (mode : BusMode) : e.words.length * wordUnits mode + unitsSeen e.after = unitsOf mode i := by
  cases i with
  | formatted text =>
    cases he
    rw [textRun_keptText_length]
    cases mode <;> rfl
  | formattedAt col row text =>
    cases he
    rw [List.length_cons, textRun_keptText_length, Nat.add_comm _ 1, ← Nat.add_assoc]
    cases mode <;> rfl
  | defineChar addr pattern size =>
    cases he
    obtain ⟨-, long, -⟩ := execDefineChar_next.mp ran
    rw [List.length_cons, List.length_map, List.length_take_of_le long, Nat.add_comm _ 1]
    cases mode <;> rfl
  | cmdClear | cmdHome | cmdEntryMode | cmdDisplayControl | cmdShift | cmdFunctionSet | cmdSetCgram | cmdSetDdram | data | nibPrime3
  | nibPrime2 | init => cases he
  | _ =>
    cases he
    cases mode <;> rfl

/-- R610: INIT's row, of an INIT that did not halt. -/
theorem exec_init_units {bus : BusDescriptor} {width : Byte} {bus8 : Bool} {lineCount : Byte} {bigFont : Bool} {s t : State}
    (h : exec (.init bus width bus8 lineCount bigFont) s = .next t) (running : t.life ≠ .halted) :
    ∃ evs, t.trace = s.trace ++ evs ∧ requestedUnits evs = unitsOf t.mode (.init bus width bus8 lineCount bigFont) := by
  have ready : t.life = .ready := by
    by_contra notReady
    obtain ⟨halted, -⟩ := execInit_halted (bigFont := bigFont) h notReady
    exact running halted
  obtain ⟨-, -, -, done⟩ := execInit_ready (bigFont := bigFont) h ready
  obtain rfl : t = initDone bus width bus8 lineCount s := done
  obtain ⟨mode, evs, trace, -, units⟩ := initDone_appends bus width bus8 lineCount s
  refine ⟨evs, trace, ?_⟩
  rw [units, mode]
  cases bus8 <;> rfl

/-- The instructions that are no host operation: the bus words, and the two priming nibbles (30_encoding.md R302, R303). -/
theorem tableWord_rows {i : Instr} {s : State} (noEffect : effectOf i s = none) (notInit : isInit i = false) :
    (∃ w, busWordOf i = some w) ∨ i = .nibPrime3 ∨ i = .nibPrime2 := by
  cases i with
  | nibPrime3 => exact .inr (.inl rfl)
  | nibPrime2 => exact .inr (.inr rfl)
  | cmdClear | cmdHome | cmdEntryMode | cmdDisplayControl | cmdShift | cmdFunctionSet | cmdSetCgram | cmdSetDdram | data =>
    exact .inl ⟨_, rfl⟩
  | init => cases notInit
  | _ => cases noEffect

theorem unitsOf_busWord {i : Instr} {w : BusWord} (row : busWordOf i = some w) (mode : BusMode) :
    unitsOf mode i = wordUnits mode := by
  cases i <;> cases row <;> cases mode <;> rfl

theorem exec_busWord_units {i : Instr} {w : BusWord} {s t : State} (row : busWordOf i = some w) (h : exec i s = .next t) :
    ∃ evs, t.trace = s.trace ++ evs ∧ requestedUnits evs = unitsOf t.mode i := by
  rw [exec_busWord row] at h
  obtain ⟨-, rfl⟩ := busOp_next.mp h
  obtain ⟨evs, trace, units⟩ := (writeByte_sends w.isData w.byte s).units
  have mode : (writeByte w.isData w.byte s).mode = s.mode := (writeByte_sameButBus _ _ s).mode
  exact ⟨evs, trace, by rw [units, unitsOf_busWord row, mode]; exact Nat.one_mul _⟩

theorem exec_primingNibble_units {i : Instr} {s t : State} (row : i = .nibPrime3 ∨ i = .nibPrime2) (h : exec i s = .next t) :
    ∃ evs, t.trace = s.trace ++ evs ∧ requestedUnits evs = unitsOf t.mode i := by
  obtain ⟨n, rfl⟩ := exec_primingNibble_next row h
  obtain ⟨evs, trace, counts⟩ := nibble_counts n s
  refine ⟨evs, trace, counts.delays.trans ?_⟩
  rcases row with rfl | rfl <;> rfl

/-- Settles O50: INIT by its totals, a host operation by the words and delays of its effect, and the sequencer's table row by row. -/
theorem requestedUnitsFollowTheTable : Obligations.RequestedUnitsFollowTheTable := by
  intro i s t h running
  rcases effect_cases i with init | ⟨-, hasEffect⟩ | ⟨notInit, noEffect⟩
  · cases i with
    | init => exact exec_init_units h running
    | _ => cases init
  · obtain ⟨e, he⟩ := hasEffect s
    obtain ⟨-, sent, same⟩ := exec_effect he h
    obtain ⟨evs, trace, units⟩ := sent.units
    have mode : t.mode = s.mode := same.mode
    exact ⟨evs, trace, by rw [units, effectOf_units he h, mode]⟩
  · rcases tableWord_rows (noEffect s) notInit with ⟨w, busWord⟩ | nibble
    · exact exec_busWord_units busWord h
    · exact exec_primingNibble_units nibble h

end Sys2Proof.Machine
end
